-- ==== Sys2Proof/Word.lean ====
section
/-! DEFINITION. The machine word. All registers, operands and memory elements of ST2 are 32 bits wide
(00_scope.md R7; R8: one element is one 32-bit word, there is no byte access). -/

namespace Sys2Proof

/-- A 32-bit word: a register, an operand, a memory element or the encoding of a binary32 value (R7, R62). -/
abbrev Word := BitVec 32

end Sys2Proof
end

