-- ==== Sys2Proof/Syntax.lean ====
section
/-! DEFINITION. The 28 commands of ST2 as one inductive (30_encoding.md R82), one constructor per row of
spec/opcode_table.json. A command takes its operands from the operand registers (R81), so a constructor
carries at most the instance index `j` of the command word's IDX field (R80). -/

namespace Sys2Proof

/-- A command. `j` is the instance index; WellFormed bounds it by the 16 bits of IDX. -/
inductive Instr where
  /-- `SYS.NOP`: no effect (R130). -/
  | sysNop
  /-- `SYS.RESET`: reset (R131). -/
  | sysReset
  /-- `WTS.BANK`: declare a bank (R134). -/
  | wtsBank
  /-- `WTS.WR`: write a store cell (R135). -/
  | wtsWr
  /-- `WTS.SEAL`: seal the store (R136). -/
  | wtsSeal
  /-- `ENV.INIT`: a fresh envelope (R151). -/
  | envInit (j : Nat)
  /-- `ENV.SETP`: store the four parameters (R152). -/
  | envSetp (j : Nat)
  /-- `ENV.PROC`: amplitude at a time (R153). -/
  | envProc (j : Nat)
  /-- `ENV.STAT`: read `rsa` and `finished` (R158). -/
  | envStat (j : Nat)
  /-- `OSC.INIT`: construct an oscillator (R173). -/
  | oscInit (j : Nat)
  /-- `OSC.SETF`: set the frequency (R174). -/
  | oscSetf (j : Nat)
  /-- `OSC.SETM`: set the morph position (R175). -/
  | oscSetm (j : Nat)
  /-- `OSC.PROC`: one sample (R176). -/
  | oscProc (j : Nat)
  /-- `BQ.INIT`: identity coefficients, zero taps (R191). -/
  | bqInit (j : Nat)
  /-- `BQ.SETC`: store five coefficients (R192). -/
  | bqSetc (j : Nat)
  /-- `BQ.LP`: lowpass design (R194). -/
  | bqLp (j : Nat)
  /-- `BQ.AP`: allpass design (R195). -/
  | bqAp (j : Nat)
  /-- `BQ.PROC`: one sample (R196). -/
  | bqProc (j : Nat)
  /-- `DL.INIT`: silent buffer, delay and feedback (R213). -/
  | dlInit (j : Nat)
  /-- `DL.SET`: delay and feedback (R214). -/
  | dlSet (j : Nat)
  /-- `DL.PROC`: one sample (R215). -/
  | dlProc (j : Nat)
  /-- `RVB.INIT`: reset the network (R225). -/
  | rvbInit (j : Nat)
  /-- `RVB.UPD`: re-derive the six parameter sets (R226). -/
  | rvbUpd (j : Nat)
  /-- `RVB.PROC`: one stereo sample (R227). -/
  | rvbProc (j : Nat)
  /-- `DRV.INIT`: reset the drive (R241). -/
  | drvInit (j : Nat)
  /-- `DRV.PROC`: one sample (R242). -/
  | drvProc (j : Nat)
  /-- `SPA.INIT`: reset the analyzer (R252). -/
  | spaInit
  /-- `SPA.PROC`: analyse a block (R253). -/
  | spaProc
  deriving DecidableEq, Repr

end Sys2Proof
end

