-- ==== Sys2Proof/WellFormed.lean ====
section
/-! DEFINITION. Which terms of `Instr` are commands at all: the instance index is the 16-bit unsigned IDX
field (30_encoding.md R80, R81). Whether an instance of that index exists is a matter of the
configuration and is tested when the command runs (R83, R86 step 4). -/

namespace Sys2Proof

/-- IDX has 16 bits (R80). -/
def idxFits (j : Nat) : Bool := decide (j < 65536)

/-- A well-formed command: its index, if it has one, fits IDX. -/
def Instr.wellFormed : Instr → Bool
  | .sysNop => true
  | .sysReset => true
  | .wtsBank => true
  | .wtsWr => true
  | .wtsSeal => true
  | .envInit j => idxFits j
  | .envSetp j => idxFits j
  | .envProc j => idxFits j
  | .envStat j => idxFits j
  | .oscInit j => idxFits j
  | .oscSetf j => idxFits j
  | .oscSetm j => idxFits j
  | .oscProc j => idxFits j
  | .bqInit j => idxFits j
  | .bqSetc j => idxFits j
  | .bqLp j => idxFits j
  | .bqAp j => idxFits j
  | .bqProc j => idxFits j
  | .dlInit j => idxFits j
  | .dlSet j => idxFits j
  | .dlProc j => idxFits j
  | .rvbInit j => idxFits j
  | .rvbUpd j => idxFits j
  | .rvbProc j => idxFits j
  | .drvInit j => idxFits j
  | .drvProc j => idxFits j
  | .spaInit => true
  | .spaProc => true

end Sys2Proof
end

