-- ==== Sys2Proof/Decode.lean ====
section
/-! DEFINITION. Decoding and encoding of command words (30_encoding.md R80 to R83, R86, R90).
The decoder is total on 32-bit words: it answers the command a word spells, or the reason it spells none.
Instance counts and the mode are not its business (R86 steps 1 and 4; R91). -/

namespace Sys2Proof

/-- Why a word spells no command (R90). -/
inductive Reject where
  /-- `OP` is not in the map of R82. -/
  | badOp
  /-- `RSV` is not 0. -/
  | rsvNotZero
  /-- The command takes no instance and `IDX` is not 0. -/
  | idxNotZero
  deriving DecidableEq, Repr

/-- `OP`, bits [31:24]: `UNIT` and `FN` together (R80). -/
def opField (c : Word) : Nat := c.toNat / 2 ^ 24

/-- `RSV`, bits [23:16] (R80). -/
def rsvField (c : Word) : Nat := c.toNat / 2 ^ 16 % 2 ^ 8

/-- `IDX`, bits [15:0], zero-extended (R80). -/
def idxField (c : Word) : Nat := c.toNat % 2 ^ 16

/-- What an opcode's idx column says (R82): nothing is selected, or an instance array. -/
inductive OpRow where
  | noIdx (i : Instr)
  | withIdx (f : Nat → Instr)

/-- The opcode map of R82; `none` for every other value of `OP`. -/
def opRow (op : Nat) : Option OpRow :=
  match op with
  | 0x00 => some (.noIdx .sysNop)
  | 0x01 => some (.noIdx .sysReset)
  | 0x10 => some (.noIdx .wtsBank)
  | 0x11 => some (.noIdx .wtsWr)
  | 0x12 => some (.noIdx .wtsSeal)
  | 0x20 => some (.withIdx .envInit)
  | 0x21 => some (.withIdx .envSetp)
  | 0x22 => some (.withIdx .envProc)
  | 0x23 => some (.withIdx .envStat)
  | 0x30 => some (.withIdx .oscInit)
  | 0x31 => some (.withIdx .oscSetf)
  | 0x32 => some (.withIdx .oscSetm)
  | 0x33 => some (.withIdx .oscProc)
  | 0x40 => some (.withIdx .bqInit)
  | 0x41 => some (.withIdx .bqSetc)
  | 0x42 => some (.withIdx .bqLp)
  | 0x43 => some (.withIdx .bqAp)
  | 0x44 => some (.withIdx .bqProc)
  | 0x50 => some (.withIdx .dlInit)
  | 0x51 => some (.withIdx .dlSet)
  | 0x52 => some (.withIdx .dlProc)
  | 0x60 => some (.withIdx .rvbInit)
  | 0x61 => some (.withIdx .rvbUpd)
  | 0x62 => some (.withIdx .rvbProc)
  | 0x70 => some (.withIdx .drvInit)
  | 0x71 => some (.withIdx .drvProc)
  | 0x80 => some (.noIdx .spaInit)
  | 0x81 => some (.noIdx .spaProc)
  | _ => none

/-- The command a word spells, or why it spells none (R86 steps 2 and 3, R90). -/
def decode (c : Word) : Except Reject Instr :=
  match opRow (opField c) with
  | none => .error .badOp
  | some row =>
    if rsvField c ≠ 0 then .error .rsvNotZero
    else match row with
      | .noIdx i => if idxField c ≠ 0 then .error .idxNotZero else .ok i
      | .withIdx f => .ok (f (idxField c))

/-! The encoder. -/

/-- The opcode byte of a command (R82). -/
def Instr.op : Instr → Nat
  | .sysNop => 0x00
  | .sysReset => 0x01
  | .wtsBank => 0x10
  | .wtsWr => 0x11
  | .wtsSeal => 0x12
  | .envInit _ => 0x20
  | .envSetp _ => 0x21
  | .envProc _ => 0x22
  | .envStat _ => 0x23
  | .oscInit _ => 0x30
  | .oscSetf _ => 0x31
  | .oscSetm _ => 0x32
  | .oscProc _ => 0x33
  | .bqInit _ => 0x40
  | .bqSetc _ => 0x41
  | .bqLp _ => 0x42
  | .bqAp _ => 0x43
  | .bqProc _ => 0x44
  | .dlInit _ => 0x50
  | .dlSet _ => 0x51
  | .dlProc _ => 0x52
  | .rvbInit _ => 0x60
  | .rvbUpd _ => 0x61
  | .rvbProc _ => 0x62
  | .drvInit _ => 0x70
  | .drvProc _ => 0x71
  | .spaInit => 0x80
  | .spaProc => 0x81

/-- The instance index of a command, 0 for a command that takes none (R82). -/
def Instr.idx : Instr → Nat
  | .sysNop => 0
  | .sysReset => 0
  | .wtsBank => 0
  | .wtsWr => 0
  | .wtsSeal => 0
  | .envInit j => j
  | .envSetp j => j
  | .envProc j => j
  | .envStat j => j
  | .oscInit j => j
  | .oscSetf j => j
  | .oscSetm j => j
  | .oscProc j => j
  | .bqInit j => j
  | .bqSetc j => j
  | .bqLp j => j
  | .bqAp j => j
  | .bqProc j => j
  | .dlInit j => j
  | .dlSet j => j
  | .dlProc j => j
  | .rvbInit j => j
  | .rvbUpd j => j
  | .rvbProc j => j
  | .drvInit j => j
  | .drvProc j => j
  | .spaInit => 0
  | .spaProc => 0

/-- The word that spells a command: `OP << 24 | IDX` (R82). -/
def encode (i : Instr) : Word := BitVec.ofNat 32 (i.op * 2 ^ 24 + i.idx)

/-- The command the decoder reads from a table word of `nbits` bits: every row of
spec/opcode_table.json is one 32-bit command word. -/
def decodeTableWord (nbits w : Nat) : Option Instr :=
  if nbits ≤ 32 ∧ w < 2 ^ 32 then
    match decode (BitVec.ofNat 32 w) with
    | .ok i => some i
    | .error _ => none
  else none

end Sys2Proof
end

