-- ==== Sys2Proof/Machine/Binary32.lean ====
section
/-! DEFINITION. IEEE 754 binary32 on words, the part that makes no choice: classes, exact values,
comparisons (40_numerics.md R100, R102; layout of 20_memory.md R62), rounding to nearest even (R101) and
the conversions that cannot produce a NaN (R106, R107).

Every finite binary32 value is an integer multiple of 2^−149. `units w` is that integer, so exact sums,
products, quotients and remainders are integer arithmetic and one rounding function serves them all. -/

namespace Sys2Proof.Machine

/-- The sign bit, bit 31 (R62). -/
def signBit (w : Word) : Bool := w.getLsbD 31

/-- Bits [30:0]: exponent and fraction together, the magnitude's encoding (R62). -/
def magBits (w : Word) : Nat := w.toNat % 2 ^ 31

/-- The encoding of +infinity: exponent all ones, fraction zero. -/
def infBits : Nat := 0x7F800000

/-- A NaN: exponent all ones, fraction not zero (R100). -/
def isNaN (w : Word) : Bool := decide (infBits < magBits w)

/-- An infinity of either sign (R100). -/
def isInf (w : Word) : Bool := decide (magBits w = infBits)

/-- Neither a NaN nor an infinity (R100). -/
def isFinite (w : Word) : Bool := decide (magBits w < infBits)

/-- +0.0 or −0.0 (R100). -/
def isZero (w : Word) : Bool := decide (magBits w = 0)

/-- The value of a magnitude encoding in units of 2^−149. Below 2^24 the encoding is the value
(subnormals and the first binade); above, significand times a power of two (R100). -/
def magUnits (b : Nat) : Nat :=
  if b < 2 ^ 24 then b else (2 ^ 23 + b % 2 ^ 23) * 2 ^ (b / 2 ^ 23 - 1)

/-- The magnitude of a finite word in units of 2^−149. -/
def absUnits (w : Word) : Nat := magUnits (magBits w)

/-- The exact value of a finite word in units of 2^−149; both zeros give 0. -/
def units (w : Word) : Int := if signBit w then -(absUnits w : Int) else absUnits w

/-- An integer that orders the non-NaN words as their values; both zeros give 0 (R102). -/
def orderKey (w : Word) : Int := if signBit w then -(magBits w : Int) else magBits w

/-- `a < b`; false when an operand is a NaN (R102). `a > b` is `flt b a`. -/
def flt (a b : Word) : Bool := !isNaN a && !isNaN b && decide (orderKey a < orderKey b)

/-- `a ≤ b`; false when an operand is a NaN (R102). `a ≥ b` is `fle b a`. -/
def fle (a b : Word) : Bool := !isNaN a && !isNaN b && decide (orderKey a ≤ orderKey b)

/-- The word of a sign and a magnitude encoding. -/
def packSign (neg : Bool) (bits : Nat) : Word :=
  BitVec.ofNat 32 (if neg then 2 ^ 31 + bits else bits)

/-- Unary minus flips the sign bit and keeps the other 31 (R101). -/
def fneg (w : Word) : Word := packSign (!signBit w) (magBits w)

/-- The magnitude encoding nearest the non-negative rational `p / q` (in units of 2^−149), ties to the
even encoding, infinity when the rounded value reaches 2^128 (R101). With `n` the integer part, values of
24 significant bits near `p / q` are the multiples of `2^j`, `j = log2 n − 23` (0 in the subnormal range). -/
def roundBits (p q : Nat) : Nat :=
  let j := (p / q).log2 - 23
  let den := q * 2 ^ j
  let k := p / den
  let r := p % den
  let k' := if 2 * r > den ∨ (2 * r = den ∧ k % 2 = 1) then k + 1 else k
  min (j * 2 ^ 23 + k') infBits

/-- `i2f(n)`: the nearest binary32, ties to even (R107). -/
def i2f (n : Int) : Word := packSign (decide (n < 0)) (roundBits (n.natAbs * 2 ^ 149) 1)

/-- `f2i(v)`: the fraction discarded, saturating at the signed 32-bit limits, NaN gives 0 (R106). -/
def f2i (w : Word) : Int :=
  if isNaN w then 0
  else if signBit w then
    (if isInf w then -2 ^ 31 else max (-(absUnits w / 2 ^ 149 : Nat)) (-2 ^ 31))
  else
    (if isInf w then 2 ^ 31 - 1 else min ((absUnits w / 2 ^ 149 : Nat) : Int) (2 ^ 31 - 1))

/-- `emod(n, m)`: the Euclidean remainder in 0..m−1 of an integer by a positive integer (R111). -/
def emod (n : Int) (m : Nat) : Nat := (n % (m : Int)).toNat

/-- `sat32(n)`: an integer brought into the signed 32-bit range (R111, R226). -/
def sat32 (n : Int) : Int := max (-2 ^ 31) (min n (2 ^ 31 - 1))

/-- One more bit of the integer square root, from bit `k − 1` down to bit 0. -/
def isqrtBits (n : Nat) : Nat → Nat → Nat
  | 0, r => r
  | k + 1, r => isqrtBits n k (if (r + 2 ^ k) * (r + 2 ^ k) ≤ n then r + 2 ^ k else r)

/-- The integer square root of a number below 2^428, the range `fsqrt` needs. -/
def isqrt (n : Nat) : Nat := isqrtBits n 214 0

/-! Constants of the rules (R112). -/

/-- +0.0. -/
def fZero : Word := 0x00000000#32
/-- 0.5. -/
def fHalf : Word := 0x3F000000#32
/-- 1.0. -/
def fOne : Word := 0x3F800000#32
/-- 2.0. -/
def fTwo : Word := 0x40000000#32
/-- −2.0. -/
def fNegTwo : Word := 0xC0000000#32
/-- `TWO_PI`, the binary32 nearest 2π (R112). -/
def fTwoPi : Word := 0x40C90FDB#32

/-- −1.0. -/
def fNegOne : Word := 0xBF800000#32
/-- −0.0. -/
def fNegZero : Word := 0x80000000#32

/-! What a packed word is made of. -/

theorem signBit_packSign (neg : Bool) {b : Nat} (h : b < 2 ^ 31) : signBit (packSign neg b) = neg := by
  cases neg
  · simp only [signBit, packSign, Bool.false_eq_true, if_false, BitVec.getLsbD_ofNat]
    simp [Nat.testBit_lt_two_pow h]
  · have h1 : (2 ^ 31 + b).testBit 31 = true := by
      rw [Nat.testBit_two_pow_add_eq, Nat.testBit_lt_two_pow h]; rfl
    simp [signBit, packSign, BitVec.getLsbD_ofNat, -Nat.reducePow, h1]

theorem magBits_packSign (neg : Bool) {b : Nat} (h : b < 2 ^ 31) : magBits (packSign neg b) = b := by
  cases neg <;> simp only [magBits, packSign, if_true, Bool.false_eq_true, if_false,
    BitVec.toNat_ofNat] <;> omega

theorem magBits_lt (w : Word) : magBits w < 2 ^ 31 := Nat.mod_lt _ (by decide)

@[simp] theorem signBit_fneg (w : Word) : signBit (fneg w) = !signBit w := signBit_packSign _ (magBits_lt w)

@[simp] theorem magBits_fneg (w : Word) : magBits (fneg w) = magBits w := magBits_packSign _ (magBits_lt w)

end Sys2Proof.Machine
end

