-- ==== Sys2Proof/Config.lean ====
section
/-! DEFINITION. What an implementation of ST2 fixes when it is built (00_scope.md R5) and the free values
the spec leaves open: the parameter record `Config`, the elementary functions and the transform as one
opaque record with exactly the properties the spec names (40_numerics.md R108, R109; 47_spectrum.md R256),
and the free draw of a NaN's sign and payload (R101, 93_implementation_defined.md I13). -/

namespace Sys2Proof

/-- The two channels of the reverb network (10_state.md R35). -/
inductive Chan where
  | left
  | right
  deriving DecidableEq, Repr

/-- The three stages of a reverb channel (10_state.md R35). -/
inductive Stage where
  | s1
  | s2
  | s3
  deriving DecidableEq, Repr

/-- One value for each of the three stages. -/
structure PerStage (α : Type) where
  s1 : α
  s2 : α
  s3 : α
  deriving DecidableEq, Repr

/-- One value for each of the two channels. -/
structure Stereo (α : Type) where
  left : α
  right : α
  deriving DecidableEq, Repr

/-- The implementation parameters of R5, one field per row of its table, but for the function record
`num`, which is `Config.num`. No command changes one. `NBINS` is derived: `Config.nbins`. -/
structure Config where
  /-- `FS`, sample rate in hertz, binary32. -/
  fs : Word
  /-- `TABLE_LEN`, samples in one waveform table. -/
  tableLen : Nat
  /-- `N_BANKS`, wavetable banks. -/
  nBanks : Nat
  /-- `NT_MAX`, most tables a bank may hold. -/
  ntMax : Nat
  /-- `N_OSC`. -/
  nOsc : Nat
  /-- `N_ENV`. -/
  nEnv : Nat
  /-- `N_BQ`. -/
  nBq : Nat
  /-- `N_DL`. -/
  nDl : Nat
  /-- `N_RVB`. -/
  nRvb : Nat
  /-- `N_DRV`. -/
  nDrv : Nat
  /-- `DL_CAP`, capacity of a standalone delay line. -/
  dlCap : Nat
  /-- `RVB_DL_CAP`, capacity of each delay line inside a reverb network. -/
  rvbDlCap : Nat
  /-- `DRV_DELAY`, delay of the drive unit. -/
  drvDelay : Nat
  /-- `DRV_DL_CAP`, capacity of the drive unit's delay line. -/
  drvDlCap : Nat
  /-- `RVB_DD[1..3]`, signed delay offsets. -/
  rvbDd : PerStage Int
  /-- `RVB_DFREQ[1..3]`, frequency offsets, binary32. -/
  rvbDfreq : PerStage Word
  /-- `RVB_DFB[1..3]`, feedback offsets, binary32. -/
  rvbDfb : PerStage Word
  /-- `RVB_MAP[c][s]`, the delay line that stage s of channel c uses (R228). -/
  rvbMap : Stereo (PerStage (Chan × Stage))
  /-- `SPA_WIN`, analysis window length W. -/
  spaWin : Nat
  /-- `SPA_FFT`, transform length F. -/
  spaFft : Nat
  /-- `SPA_HOP`, samples between two transforms H. -/
  spaHop : Nat
  /-- `SPA_WINFN[0..W−1]`, window coefficients, binary32. -/
  spaWinFn : List Word
  /-- `SPA_BLK_MAX`, words in the analyzer's input buffer. -/
  spaBlkMax : Nat
  /-- `F_MIN`, least frequency a unit accepts, binary32. -/
  fMin : Word
  /-- `Q_MIN`, least Q a design accepts, binary32. -/
  qMin : Word
  deriving DecidableEq, Repr

/-- `NBINS = min(SPA_WIN, floor(SPA_FFT / 2) + 1)` (R5, R251). -/
def Config.nbins (c : Config) : Nat := min c.spaWin (c.spaFft / 2 + 1)

open Machine

/-- The real number a finite word encodes is `r` (the exact reading of a constant, R110). -/
def IsValue (w : Word) (r : ℝ) : Prop := r = (units w : ℝ) / 2 ^ 149

/-- `r` is the exact value of `mag[k]` for the history `hist` (R256): the discrete Fourier transform of the
windowed history followed by zeros, its magnitude times 1/F. -/
def IsExactMag (c : Config) (hist : List Word) (k : Nat) (r : ℝ) : Prop :=
  ∃ x : ℕ → ℝ,
    (∀ n, n < c.spaWin → ∃ h g : ℝ,
      IsValue (hist.getD n 0) h ∧ IsValue (c.spaWinFn.getD n 0) g ∧ x n = h * g) ∧
    (∀ n, c.spaWin ≤ n → x n = 0) ∧
    r = Real.sqrt
          ((∑ n ∈ Finset.range c.spaFft, x n * Real.cos (2 * Real.pi * k * n / c.spaFft)) ^ 2 +
           (∑ n ∈ Finset.range c.spaFft, x n * Real.sin (2 * Real.pi * k * n / c.spaFft)) ^ 2)
        * (1 / c.spaFft)

/-- `DFT_NAN` (R256): finite history and window and an exact magnitude below the largest finite binary32
give a finite bin. That the window is finite too is said here because the exact value has no meaning
otherwise (log 3). -/
def DftFinite (dftmag : Config → List Word → List Word) : Prop :=
  ∀ (c : Config) (hist : List Word) (k : Nat) (r : ℝ),
    hist.length = c.spaWin → k < c.nbins →
    (∀ w ∈ hist, isFinite w = true) → (∀ w ∈ c.spaWinFn, isFinite w = true) →
    IsExactMag c hist k r → r < (2 ^ 24 - 1) * 2 ^ 104 →
    isFinite ((dftmag c hist).getD k 0) = true

/-- The magnitude of a stand-in for `tanh` that has every named property of R108: NaN to a NaN, a zero to
itself, any other value to 1.0 with its sign. It only shows that such functions exist. -/
def Config.tanhExample (x : Word) : Word :=
  if isNaN x then 0x7FC00000#32
  else if isZero x then x
  else packSign (signBit x) 0x3F800000

/-- A stand-in for `sin` and `cos`: NaN for NaN and infinities, `v` for finite arguments. -/
def Config.trigExample (v : Word) (x : Word) : Word :=
  if isFinite x then v else 0x7FC00000#32

/-- A stand-in for the transform magnitude: every bin +0.0. -/
def Config.dftExample (c : Config) (_ : List Word) : List Word := List.replicate c.nbins 0#32

theorem Config.tanhExample_odd (x : Word) (hx : isNaN x = false) :
    Config.tanhExample (fneg x) = fneg (Config.tanhExample x) := by
  have h1 : isNaN (fneg x) = isNaN x := by simp [isNaN]
  have h2 : isZero (fneg x) = isZero x := by simp [isZero]
  have h3 : (0x3F800000 : Nat) < 2 ^ 31 := by decide
  unfold Config.tanhExample
  rw [h1, h2, hx]
  by_cases hz : isZero x = true <;>
    simp [hz, fneg, signBit_packSign _ h3, magBits_packSign _ h3, signBit_packSign _ (magBits_lt x)]

theorem Config.tanhExample_nan (x : Word) (hx : isNaN x = true) :
    isNaN (Config.tanhExample x) = true := by
  simp only [Config.tanhExample, hx, if_true]; decide

/-- The stand-in's value as an ordered integer: 0 for a zero, else the key of 1.0 with the sign. -/
theorem Config.orderKey_tanhExample (x : Word) (hx : isNaN x = false) :
    isNaN (Config.tanhExample x) = false ∧
    orderKey (Config.tanhExample x) =
      if isZero x then 0 else if signBit x then -0x3F800000 else 0x3F800000 := by
  have h3 : (0x3F800000 : Nat) < 2 ^ 31 := by decide
  unfold Config.tanhExample
  rw [hx]
  by_cases hz : isZero x = true
  · have : magBits x = 0 := by simpa [isZero] using hz
    simp [hx, hz, orderKey, this]
  · cases hs : signBit x <;>
      simp [hz, orderKey, isNaN, signBit_packSign _ h3, magBits_packSign _ h3, infBits]

theorem Config.tanhExample_bound (x : Word) (hx : isNaN x = false) :
    fle fNegOne (Config.tanhExample x) = true ∧ fle (Config.tanhExample x) fOne = true := by
  obtain ⟨hn, hk⟩ := Config.orderKey_tanhExample x hx
  have k1 : isNaN fNegOne = false ∧ orderKey fNegOne = -0x3F800000 := by decide
  have k2 : isNaN fOne = false ∧ orderKey fOne = 0x3F800000 := by decide
  simp only [fle, hn, hk, k1.1, k1.2, k2.1, k2.2]
  cases isZero x <;> cases signBit x <;> decide

theorem Config.tanhExample_mono (x y : Word) (h : fle x y = true) :
    fle (Config.tanhExample x) (Config.tanhExample y) = true := by
  simp only [fle, Bool.and_eq_true, Bool.not_eq_true', decide_eq_true_eq] at h
  obtain ⟨⟨hx, hy⟩, hxy⟩ := h
  obtain ⟨nx, kx⟩ := Config.orderKey_tanhExample x hx
  obtain ⟨ny, ky⟩ := Config.orderKey_tanhExample y hy
  simp only [fle, nx, ny, kx, ky]
  have zx : isZero x = decide (magBits x = 0) := rfl
  have zy : isZero y = decide (magBits y = 0) := rfl
  simp only [orderKey] at hxy
  rw [zx, zy]
  cases hsx : signBit x <;> cases hsy : signBit y <;>
    by_cases h0 : magBits x = 0 <;> by_cases h1 : magBits y = 0 <;>
    (simp [hsx, hsy, h0, h1] at hxy ⊢; try omega)

theorem Config.trigExample_bound (v x : Word) (hv : fle fNegOne v = true ∧ fle v fOne = true)
    (hx : isFinite x = true) :
    fle fNegOne (Config.trigExample v x) = true ∧ fle (Config.trigExample v x) fOne = true := by
  simpa [Config.trigExample, hx] using hv

theorem Config.trigExample_nan (v x : Word) (hx : isFinite x = false) :
    isNaN (Config.trigExample v x) = true := by
  have e : Config.trigExample v x = 0x7FC00000#32 := by simp [Config.trigExample, hx]
  rw [e]; decide

theorem Config.dftExample_finite : DftFinite Config.dftExample := by
  intro c hist k r _ hk _ _ _ _
  have : (Config.dftExample c hist).getD k 0 = 0#32 := by
    simp only [Config.dftExample, List.getD_eq_getElem?_getD, List.getElem?_replicate, hk, if_true,
      Option.getD_some]
  rw [this]; decide

/-- The function record `num` of R5: three elementary functions of one word (R108) and the transform
magnitude function of the analyzer (R109, R256), with the properties the spec names and no others. The
default of each field only shows that such a record exists; nothing reads it, because `Config.num` is
opaque. -/
structure Num where
  tanh : Word → Word := Config.tanhExample
  sin : Word → Word := Config.trigExample fZero
  cos : Word → Word := Config.trigExample fOne
  dftmag : Config → List Word → List Word := Config.dftExample
  /-- `TANH_ZERO`. -/
  tanh_zero : tanh fZero = fZero ∧ tanh fNegZero = fNegZero := by decide
  /-- `TANH_ODD`. -/
  tanh_odd : ∀ x, isNaN x = false → tanh (fneg x) = fneg (tanh x) := by
    exact Config.tanhExample_odd
  /-- `TANH_BOUND`, the interval. -/
  tanh_bound : ∀ x, isNaN x = false → fle fNegOne (tanh x) = true ∧ fle (tanh x) fOne = true := by
    exact Config.tanhExample_bound
  /-- `TANH_BOUND`, the value at +infinity. -/
  tanh_inf : tanh 0x7F800000#32 = fOne := by decide
  /-- `TANH_MONO`. -/
  tanh_mono : ∀ x y, fle x y = true → fle (tanh x) (tanh y) = true := by
    exact Config.tanhExample_mono
  /-- `TANH_NAN`. -/
  tanh_nan : ∀ x, isNaN x = true → isNaN (tanh x) = true := by
    exact Config.tanhExample_nan
  /-- `SIN_BOUND`. -/
  sin_bound : ∀ x, isFinite x = true → fle fNegOne (sin x) = true ∧ fle (sin x) fOne = true := by
    exact fun x h => Config.trigExample_bound fZero x (by decide) h
  /-- `COS_BOUND`. -/
  cos_bound : ∀ x, isFinite x = true → fle fNegOne (cos x) = true ∧ fle (cos x) fOne = true := by
    exact fun x h => Config.trigExample_bound fOne x (by decide) h
  /-- `SIN_ZERO`. -/
  sin_zero : sin fZero = fZero := by decide
  /-- `COS_ZERO`. -/
  cos_zero : cos fZero = fOne := by decide
  /-- `TRIG_NAN`. -/
  trig_nan : ∀ x, isFinite x = false → isNaN (sin x) = true ∧ isNaN (cos x) = true := by
    exact fun x h => ⟨Config.trigExample_nan fZero x h, Config.trigExample_nan fOne x h⟩
  /-- `DFT_ZERO`. -/
  dft_zero : ∀ (c : Config) (hist : List Word), hist.length = c.spaWin →
    (∀ w ∈ hist, isZero w = true) → ∀ m ∈ dftmag c hist, m = fZero := by
    exact fun _ _ _ _ _ h => (List.mem_replicate.mp h).2
  /-- `DFT_NONNEG`. -/
  dft_nonneg : ∀ (c : Config) (hist : List Word), hist.length = c.spaWin →
    ∀ m ∈ dftmag c hist, isNaN m = true ∨ signBit m = false := by
    exact fun _ _ _ _ h => Or.inr (by rw [(List.mem_replicate.mp h).2]; decide)
  /-- `DFT_NAN`. -/
  dft_finite : DftFinite dftmag := by exact Config.dftExample_finite
  /-- `DFT_LEN`. -/
  dft_len : ∀ (c : Config) (hist : List Word), hist.length = c.spaWin →
    (dftmag c hist).length = c.nbins := by exact fun _ _ _ => List.length_replicate
  deriving Inhabited

/-- The elementary functions and the transform of this implementation: unknown but for their named
properties (R108, R109, D3). A theorem about the model holds whatever they are. -/
opaque Config.num : Num

/-- The operations whose results can be a NaN that an operand did not bring (R101, R104, R105). -/
inductive FOp where
  | add
  | sub
  | mul
  | div
  | sqrt
  | rem
  deriving DecidableEq, Repr

/-- The free draw of a NaN's sign and payload (R101: "a model treats the payload as a free draw"): by the
number of the draw, the operation and its operands. Only the bits that leave the result a NaN are used
(`Machine.nanWord`). -/
opaque Config.nanBits : Nat → FOp → Word → Word → Word

end Sys2Proof
end

