-- ==== Sys2Proof/Machine/Float.lean ====
section
/-! DEFINITION. The binary32 operations of 40_numerics.md R101, R104, R105 on words. Each takes the number
`d` of the free draw: when the result is a NaN, its sign and payload are a free value (R101, I13). -/

namespace Sys2Proof.Machine

/-- The NaN of a draw: the exponent all ones, the fraction not zero, sign and payload from the draw. Every
NaN word is the NaN of some draw bits. -/
def nanWord (r : Word) : Word :=
  packSign (signBit r) (infBits + (if r.toNat % 2 ^ 23 = 0 then 1 else r.toNat % 2 ^ 23))

/-- The NaN that operation `op` on operands `a` and `b` yields in draw `d`. -/
def drawNaN (d : Nat) (op : FOp) (a b : Word) : Word := nanWord (Config.nanBits d op a b)

/-- Sum, `n` being the NaN to answer where the sum is none (R101). The sum of two finite words is exact
in `units` and rounded once; an exact zero sum is −0.0 only when both operands are −0.0. -/
def addOr (n a b : Word) : Word :=
  if isNaN a || isNaN b then n
  else if isInf a then (if isInf b && signBit a != signBit b then n else a)
  else if isInf b then b
  else if units a + units b = 0 then packSign (signBit a && signBit b) 0
  else packSign (decide (units a + units b < 0)) (roundBits (units a + units b).natAbs 1)

/-- `a + b` (R101). -/
def fadd (d : Nat) (a b : Word) : Word := addOr (drawNaN d .add a b) a b

/-- `a − b` is `a + (−b)` but for the NaN drawn (R101). -/
def fsub (d : Nat) (a b : Word) : Word := addOr (drawNaN d .sub a b) a (fneg b)

/-- `a · b` (R101). -/
def fmul (d : Nat) (a b : Word) : Word :=
  let s := signBit a != signBit b
  if isNaN a || isNaN b then drawNaN d .mul a b
  else if isInf a || isInf b then
    (if isZero a || isZero b then drawNaN d .mul a b else packSign s infBits)
  else packSign s (roundBits (absUnits a * absUnits b) (2 ^ 149))

/-- `a / b` (R101): x/0 is an infinity for finite non-zero x, 0/0 and inf/inf are NaN. -/
def fdiv (d : Nat) (a b : Word) : Word :=
  let s := signBit a != signBit b
  if isNaN a || isNaN b then drawNaN d .div a b
  else if isInf a then (if isInf b then drawNaN d .div a b else packSign s infBits)
  else if isInf b then packSign s 0
  else if isZero b then (if isZero a then drawNaN d .div a b else packSign s infBits)
  else packSign s (roundBits (absUnits a * 2 ^ 149) (absUnits b))

/-- `sqrt(a)` (R104), correctly rounded: in units of 2^−149 the root is the integer root of
`absUnits a · 2^149`, with half a unit added when it is not exact so that rounding sees which side it is. -/
def fsqrt (d : Nat) (a : Word) : Word :=
  if isNaN a then drawNaN d .sqrt a a
  else if isZero a then a
  else if signBit a then drawNaN d .sqrt a a
  else if isInf a then a
  else
    let n := absUnits a * 2 ^ 149
    let s := isqrt n
    packSign false (roundBits (2 * s + (if s * s = n then 0 else 1)) 2)

/-- `frem(a, b)`: the exact truncated remainder, sign of `a` (R105). -/
def frem (d : Nat) (a b : Word) : Word :=
  if isNaN a || isNaN b || isInf a || isZero b then drawNaN d .rem a b
  else if isInf b then a
  else packSign (signBit a) (roundBits (absUnits a % absUnits b) 1)

end Sys2Proof.Machine
end

