-- ==== Sys2Proof/Machine/Arith.lean ====
section
/-! DEFINITION. The arithmetic as one record (40_numerics.md R100: "a model should carry the arithmetic as
one record `num` ... so that the carrier can be exchanged"). The units' states and formulas are written over it;
`b32 d` is the block, the binary32 instance with NaN draw number `d`. -/

namespace Sys2Proof.Machine

/-- The operations of R101 to R109 over a carrier `F`. -/
structure Arith (F : Type) where
  /-- +0.0 -/
  zero : F
  /-- 0.5 -/
  half : F
  /-- 1.0 -/
  one : F
  /-- 2.0 -/
  two : F
  /-- −2.0 -/
  negTwo : F
  /-- `TWO_PI` (R112) -/
  twoPi : F
  add : F → F → F
  sub : F → F → F
  mul : F → F → F
  div : F → F → F
  sqrt : F → F
  /-- `frem` (R105) -/
  rem : F → F → F
  /-- `a < b`; `a > b` is `lt b a` (R102) -/
  lt : F → F → Bool
  /-- `a ≤ b`; `a ≥ b` is `le b a` (R102) -/
  le : F → F → Bool
  /-- `f2i` (R106) -/
  toInt : F → Int
  /-- `i2f` (R107) -/
  ofInt : Int → F
  tanh : F → F
  sin : F → F
  cos : F → F
  /-- `num.dftmag` (R109, R256), under a configuration's window, lengths and number of bins -/
  dftmag : Config → List F → List F
  /-- The carrier element of a binary32 constant of the configuration (R112) -/
  ofWord : Word → F

/-- Binary32 (R100 to R109): the arithmetic of the block, with NaN draw `d`. -/
def b32 (d : Nat) : Arith Word where
  zero := fZero
  half := fHalf
  one := fOne
  two := fTwo
  negTwo := fNegTwo
  twoPi := fTwoPi
  add := fadd d
  sub := fsub d
  mul := fmul d
  div := fdiv d
  sqrt := fsqrt d
  rem := frem d
  lt := flt
  le := fle
  toInt := f2i
  ofInt := i2f
  tanh := Config.num.tanh
  sin := Config.num.sin
  cos := Config.num.cos
  dftmag := Config.num.dftmag
  ofWord := fun w => w

end Sys2Proof.Machine
end

