-- ==== Sys2Proof/Machine/Memory.lean ====
section
/-! DEFINITION. Sparse element memories (20_memory.md R60; 00_scope.md R8 `MemRead`, `MemWrite`): the
wavetable store, the delay buffers and the analyzer's input buffer. ST2 has no byte access anywhere and no
byte order (R8, R62), so the unit of a memory is one 32-bit element (log 6).

A memory lists its elements with strictly rising keys and lists no element equal to what an unlisted one
reads as, its `blank`: `none` in the store, whose cells are `unwritten` after reset (R30), and +0.0 in the
buffers (R34, R38). So equal memories are equal lists. -/

namespace Sys2Proof.Machine

/-- A sparse memory: key and element, keys strictly rising. The elements of the block are words; a delay
line's buffer holds whatever the arithmetic's carrier is (R100). -/
abbrev Memory (V : Type) := List (Nat × V)

/-- What an unlisted cell of the wavetable store reads as: `unwritten` (R30). -/
def storeBlank : Option Word := none

/-- What an unlisted element of a buffer reads as: +0.0, the word 0 (R34, R38). -/
def zeroBlank : Option Word := some 0#32

/-- The element listed at a key. -/
def Memory.find {V : Type} (m : Memory V) (k : Nat) : Option V :=
  match m with
  | [] => none
  | (a, v) :: rest => if a = k then some v else Memory.find rest k

/-- Read one element (R8). -/
def Memory.read {V : Type} (blank : Option V) (m : Memory V) (k : Nat) : Option V :=
  match Memory.find m k with
  | some v => some v
  | none => blank

/-- List an element at a key, keeping the keys rising. -/
def Memory.put {V : Type} (m : Memory V) (k : Nat) (v : V) : Memory V :=
  match m with
  | [] => [(k, v)]
  | (a, x) :: rest =>
    if k < a then (k, v) :: (a, x) :: rest
    else if k = a then (k, v) :: rest
    else (a, x) :: Memory.put rest k v

/-- Take the element at a key out of the list. -/
def Memory.drop {V : Type} (m : Memory V) (k : Nat) : Memory V :=
  match m with
  | [] => []
  | (a, x) :: rest => if k = a then rest else (a, x) :: Memory.drop rest k

/-- Write one element (R8); writing the blank value takes the entry out. -/
def Memory.write {V : Type} [DecidableEq V] (blank : Option V) (m : Memory V) (k : Nat) (v : V) : Memory V :=
  if blank = some v then Memory.drop m k else Memory.put m k v

/-- Every key is above `lo` and the keys rise. -/
def Memory.risesFrom {V : Type} (lo : Nat) (m : Memory V) : Bool :=
  match m with
  | [] => true
  | (a, _) :: rest => decide (lo ≤ a) && Memory.risesFrom (a + 1) rest

/-- The canonical form: keys strictly rising, no entry equal to the blank value. -/
def Memory.wf {V : Type} [DecidableEq V] (blank : Option V) (m : Memory V) : Bool :=
  Memory.risesFrom 0 m && m.all (fun c => decide (blank ≠ some c.2))

/-- Every key is below `n`. -/
def Memory.below {V : Type} (n : Nat) (m : Memory V) : Bool := m.all (fun c => decide (c.1 < n))

/-- An element of a buffer filled with `zero`. -/
def Memory.elem {V : Type} (zero : V) (m : Memory V) (k : Nat) : V :=
  match Memory.read (some zero) m k with
  | some v => v
  | none => zero

/-- An element of a zero-filled buffer as a word. -/
def Memory.word (m : Memory Word) (k : Nat) : Word := Memory.elem 0#32 m k

end Sys2Proof.Machine
end

