-- ==== Sys2Proof/Machine/Params.lean ====
section
/-! DEFINITION. The constraints every implementation meets (00_scope.md R5, R6), the test configuration
`CFG_T` of 95_test_vectors.md, and what the rules derive from the parameters (40_numerics.md R112;
10_state.md R28, R30). -/

namespace Sys2Proof

open Machine

/-- A binary32 parameter that is finite and above 0 (`FS`, `F_MIN`, `Q_MIN` of R5). -/
def positiveFinite (w : Word) : Bool := isFinite w && flt fZero w

/-- R5's ranges and R6's constraints; a configuration that breaks one is not an ST2 and the model refuses
it. The upper bound 65536 of `NT_MAX` is D11's (log 12). That every `RVB_MAP[c][s]` names one of the six
delay lines holds by its type. -/
def Config.ok (c : Config) : Bool :=
  positiveFinite c.fs
  && decide (1 ≤ c.tableLen ∧ c.tableLen ≤ 2 ^ 24)
  && decide (1 ≤ c.nBanks ∧ c.nBanks ≤ 65536)
  && decide (2 ≤ c.ntMax ∧ c.ntMax ≤ 65536)
  && decide (c.nOsc ≤ 65536 ∧ c.nEnv ≤ 65536 ∧ c.nBq ≤ 65536)
  && decide (c.nDl ≤ 65536 ∧ c.nRvb ≤ 65536 ∧ c.nDrv ≤ 65536)
  && decide (1 ≤ c.dlCap ∧ c.dlCap < 2 ^ 31)
  && decide (1 ≤ c.rvbDlCap ∧ c.rvbDlCap < 2 ^ 31)
  && decide (1 ≤ c.drvDelay ∧ c.drvDelay ≤ c.drvDlCap ∧ c.drvDlCap < 2 ^ 31)
  && decide (1 ≤ c.spaWin ∧ c.spaWin ≤ c.spaFft)
  && decide (1 ≤ c.spaHop ∧ c.spaHop ≤ c.spaWin)
  && decide (c.spaWinFn.length = c.spaWin)
  && decide (1 ≤ c.spaBlkMax ∧ c.spaBlkMax ≤ 4096)
  && decide (c.nbins ≤ 4096)
  && positiveFinite c.fMin
  && positiveFinite c.qMin

/-- Reading A of the cross-feed map, the default (R5, R228). -/
def mapReadingA : Stereo (PerStage (Chan × Stage)) where
  left := { s1 := (.right, .s3), s2 := (.left, .s2), s3 := (.right, .s1) }
  right := { s1 := (.left, .s3), s2 := (.right, .s2), s3 := (.left, .s1) }

/-- Reading B of the cross-feed map (R228). -/
def mapReadingB : Stereo (PerStage (Chan × Stage)) where
  left := { s1 := (.right, .s3), s2 := (.left, .s2), s3 := (.left, .s3) }
  right := { s1 := (.left, .s3), s2 := (.right, .s2), s3 := (.right, .s3) }

/-- `CFG_T`, the one configuration spec/ fixes whole (95_test_vectors.md section 1). `State.reset` runs
under it (log 1); theorems quantify over every configuration. -/
def cfgT : Config where
  fs := 0x41800000#32
  tableLen := 8
  nBanks := 2
  ntMax := 3
  nOsc := 2
  nEnv := 2
  nBq := 2
  nDl := 2
  nRvb := 1
  nDrv := 1
  dlCap := 8
  rvbDlCap := 16
  drvDelay := 2
  drvDlCap := 4
  rvbDd := { s1 := 4, s2 := 0, s3 := -2 }
  rvbDfreq := { s1 := 0x00000000#32, s2 := 0x40800000#32, s3 := 0x00000000#32 }
  rvbDfb := { s1 := 0x00000000#32, s2 := 0xBE800000#32, s3 := 0x3E800000#32 }
  rvbMap := mapReadingA
  spaWin := 4
  spaFft := 8
  spaHop := 2
  spaWinFn := [0x3F800000#32, 0x3F800000#32, 0x3F800000#32, 0x3F800000#32]
  spaBlkMax := 8
  fMin := 0x3A800000#32
  qMin := 0x3A800000#32

/-- The key of the store cell `WT[b][t][i]` (R30): cells in the order bank, table, index. -/
def Config.cellKey (c : Config) (b t i : Nat) : Nat := (b * c.ntMax + t) * c.tableLen + i

/-- The capability registers of R28, in the order of the register map (R61). -/
def Config.capWord (c : Config) (k : Nat) : Word :=
  match k with
  | 0 => c.fs
  | 1 => BitVec.ofNat 32 c.tableLen
  | 2 => BitVec.ofNat 32 c.nBanks
  | 3 => BitVec.ofNat 32 c.ntMax
  | 4 => BitVec.ofNat 32 c.nOsc
  | 5 => BitVec.ofNat 32 c.nEnv
  | 6 => BitVec.ofNat 32 c.nBq
  | 7 => BitVec.ofNat 32 c.nDl
  | 8 => BitVec.ofNat 32 c.nRvb
  | 9 => BitVec.ofNat 32 c.nDrv
  | 10 => BitVec.ofNat 32 c.dlCap
  | 11 => BitVec.ofNat 32 c.rvbDlCap
  | 12 => BitVec.ofNat 32 c.spaWin
  | 13 => BitVec.ofNat 32 c.spaFft
  | 14 => BitVec.ofNat 32 c.spaBlkMax
  | 15 => BitVec.ofNat 32 c.nbins
  | _ => 0#32

end Sys2Proof
end

