-- ==== Sys2Proof/Machine/State.lean ====
section
/-! DEFINITION. The state of ST2 (10_state.md R20 to R40, the closed list) with the model's own fields
beside it, the ways a step can stop, and the state right after reset (70_reset_and_hazards.md R331). -/

namespace Sys2Proof.Machine

/-- `MODE` (R24, R300). Value 3 never occurs, so it has no constructor. -/
inductive Mode where
  /-- 0: the store is being loaded. -/
  | config
  /-- 1: the store is sealed. -/
  | run
  /-- 2: a fault has occurred; only reset leaves it. -/
  | faulted
  deriving DecidableEq, Repr

/-- The cause in `FAULT` bits [7:0] (R25, R301); other values never occur. -/
inductive Cause where
  /-- 0: no fault. -/
  | none
  /-- 1 -/
  | wtsRange
  /-- 2 -/
  | wtsIncomplete
  /-- 3 -/
  | wtsMissing
  /-- 4 -/
  | cfgBank
  deriving DecidableEq, Repr

/-- One wavetable oscillator (R31); `F` is the carrier of its binary32 fields. -/
structure Osc (F : Type) where
  valid : Bool
  bank : Nat
  tps : F
  spc : F
  scale : F
  morph : F
  deriving DecidableEq, Repr

/-- One envelope generator (R32). -/
structure Env (F : Type) where
  attack : F
  decay : F
  sustain : F
  release : F
  rsa : F
  finished : Bool
  deriving DecidableEq, Repr

/-- Five filter coefficients, already divided by a0 (R33). -/
structure Coefs (F : Type) where
  b0 : F
  b1 : F
  b2 : F
  a1 : F
  a2 : F
  deriving DecidableEq, Repr

/-- One biquad section: its coefficients and its two delay taps (R33). -/
structure Biquad (F : Type) where
  coefs : Coefs F
  s1 : F
  s2 : F
  deriving DecidableEq, Repr

/-- One delay line (R34): ring buffer, write index, requested delay (a signed 32-bit word) and feedback; `F` is
the carrier of the samples and the feedback. -/
structure DelayLine (F : Type) where
  buf : Memory F
  w : Nat
  delay : Word
  fb : F
  deriving DecidableEq, Repr

/-- One reverb network (R35): six delay lines and six allpass filters. -/
structure Reverb (F : Type) where
  dl : Stereo (PerStage (DelayLine F))
  ap : Stereo (PerStage (Biquad F))
  deriving DecidableEq, Repr

/-- One drive unit (R36). -/
structure Drive (F : Type) where
  dl : DelayLine F
  deriving DecidableEq, Repr

/-- The spectrum analyzer (R37): the last SPA_WIN samples, oldest first, and the hop counter. -/
structure Analyzer (F : Type) where
  hist : List F
  hcnt : Nat
  deriving DecidableEq, Repr

/-- What the reader's one operation returns: the pair (`SPASEQ`, `BINS`) (R320). -/
structure Snapshot where
  seq : Word
  bins : List Word
  deriving DecidableEq, Repr

/-- One input to the block: a host-port access (R61, R68), an operation of the reader (R320) or power-on
reset (R330). -/
inductive Event where
  /-- `RegRead(off)` -/
  | read (off : Nat)
  /-- `RegWrite(off, w)` -/
  | write (off : Nat) (w : Word)
  /-- `snapshot()` by the reader -/
  | snapshot
  /-- power-on reset -/
  | powerOn
  deriving DecidableEq, Repr

/-- Why the model stops with a fault. ST2's own faults are no stop: they are fault entry, a next state (R303). -/
inductive Fault where
  /-- Raised by `OSC.PROC` when the store cell it reads is `unwritten`. R30 says that never happens after a
  seal, so no run reaches it; in the states no run reaches, stopping is safe (log 8). -/
  | unwrittenCell
  deriving DecidableEq, Repr

/-- Why the model has no meaning for a step. -/
inductive Refusal where
  /-- An instruction without a meaning yet; raised by an arm of `exec` only. Safe. -/
  | notModelled (mnemonic : String)
  /-- Raised by a port access above 0x2FFF, which R65 says a model refuses. Safe (log 7). -/
  | outsideBlock (off : Nat)
  /-- Raised by every step under a configuration that breaks R5 or R6: it is not an ST2. Safe (log 12). -/
  | notAnST2
  deriving DecidableEq, Repr

/-- The whole state. The fields down to `bins` are the spec's (R20); those after it are the model's own. -/
structure State where
  /-- Operand registers (R21). -/
  a0 : Word
  a1 : Word
  a2 : Word
  a3 : Word
  a4 : Word
  /-- Result registers (R22). -/
  r0 : Word
  r1 : Word
  /-- `MODE` (R24). -/
  mode : Mode
  /-- `FAULT` (R25). -/
  fault : Cause
  /-- `FAULTINFO` (R25). -/
  faultInfo : Word
  /-- `DIAG` bits [8:0] (R26); bits [31:9] read 0 and ignore writes. -/
  diag : BitVec 9
  /-- `SPASEQ` (R29). -/
  spaSeq : Word
  /-- `NTAB[b]`, 0 meaning not declared (R30). -/
  ntab : List Nat
  /-- `WT[b][t][i]` by `Config.cellKey`, unlisted cells `unwritten` (R30). -/
  wt : Memory Word
  /-- `OSC[j]` (R31). -/
  osc : List (Osc Word)
  /-- `ENV[j]` (R32). -/
  env : List (Env Word)
  /-- `BQ[j]` (R33). -/
  bq : List (Biquad Word)
  /-- `DL[j]` (R34). -/
  dl : List (DelayLine Word)
  /-- `RVB[j]` (R35). -/
  rvb : List (Reverb Word)
  /-- `DRV[j]` (R36). -/
  drv : List (Drive Word)
  /-- `SPA` (R37). -/
  spa : Analyzer Word
  /-- `SPA_IN` (R38). -/
  spaIn : Memory Word
  /-- `BINS` (R39). -/
  bins : List Word
  /-- The configuration record (R5), a parameter of the step relation (R20); no step changes it. -/
  cfg : Config
  /-- Number of the next free draw of a NaN's sign and payload (R101). -/
  draw : Nat
  /-- The events still to come, oldest first (R322). -/
  port : List Event
  /-- Reader operations that fall right after each coming publish of an `SPA.PROC` (R320). -/
  midSnaps : List Nat
  /-- Words the host's reads returned, newest first. -/
  hostSaw : List Word
  /-- Pairs the reader's operations returned, newest first. -/
  readerSaw : List Snapshot
  deriving DecidableEq, Repr

/-! Reset values of the units (R331). -/

/-- Reset value of `OSC[j]` (R31). -/
def Osc.reset : Osc Word where
  valid := false
  bank := 0
  tps := 0#32
  spc := 0#32
  scale := 0#32
  morph := 0#32

/-- Reset value of `ENV[j]` (R32). -/
def Env.reset : Env Word where
  attack := 0#32
  decay := 0#32
  sustain := 0#32
  release := 0#32
  rsa := 0#32
  finished := false

/-- The identity coefficients, 1.0 and zeros (R33). -/
def Coefs.identity : Coefs Word where
  b0 := 0x3F800000#32
  b1 := 0#32
  b2 := 0#32
  a1 := 0#32
  a2 := 0#32

/-- Reset value of `BQ[j]` (R33). -/
def Biquad.reset : Biquad Word where
  coefs := Coefs.identity
  s1 := 0#32
  s2 := 0#32

/-- Reset value of a delay line (R34): silent, delay 0, feedback +0.0. -/
def DelayLine.reset : DelayLine Word where
  buf := []
  w := 0
  delay := 0#32
  fb := 0#32

/-- Reset value of `RVB[j]` (R35). -/
def Reverb.reset : Reverb Word where
  dl :=
    { left := { s1 := DelayLine.reset, s2 := DelayLine.reset, s3 := DelayLine.reset }
      right := { s1 := DelayLine.reset, s2 := DelayLine.reset, s3 := DelayLine.reset } }
  ap :=
    { left := { s1 := Biquad.reset, s2 := Biquad.reset, s3 := Biquad.reset }
      right := { s1 := Biquad.reset, s2 := Biquad.reset, s3 := Biquad.reset } }

/-- Reset value of `DRV[j]` (R36): delay `DRV_DELAY`. -/
def Drive.reset (c : Config) : Drive Word where
  dl := { DelayLine.reset with delay := BitVec.ofNat 32 c.drvDelay }

/-- Reset value of `SPA` (R37). -/
def Analyzer.reset (c : Config) : Analyzer Word where
  hist := List.replicate c.spaWin 0#32
  hcnt := 0

/-- The state right after reset under configuration `c` (R331), with the model's own fields at the values
of logs 2, 4 and 5. -/
def State.resetOf (c : Config) : State where
  a0 := 0#32
  a1 := 0#32
  a2 := 0#32
  a3 := 0#32
  a4 := 0#32
  r0 := 0#32
  r1 := 0#32
  mode := .config
  fault := .none
  faultInfo := 0#32
  diag := 0#9
  spaSeq := 0#32
  ntab := List.replicate c.nBanks 0
  wt := []
  osc := List.replicate c.nOsc Osc.reset
  env := List.replicate c.nEnv Env.reset
  bq := List.replicate c.nBq Biquad.reset
  dl := List.replicate c.nDl DelayLine.reset
  rvb := List.replicate c.nRvb Reverb.reset
  drv := List.replicate c.nDrv (Drive.reset c)
  spa := Analyzer.reset c
  spaIn := []
  bins := List.replicate c.nbins 0#32
  cfg := c
  draw := 0
  port := []
  midSnaps := []
  hostSaw := []
  readerSaw := []

/-- The machine right after reset, under the configuration `CFG_T` (log 1). -/
def State.reset : State := State.resetOf cfgT

end Sys2Proof.Machine
end

