-- ==== Sys2Proof/Machine/Flags.lean ====
section
/-! DEFINITION. The flags of ST2 (10_state.md R26, R27, R40): the nine sticky bits of `DIAG`, the `STATUS`
view, and the three guards that replace an operand and set a bit (40_numerics.md R113). A guard answers the
value and the mask of the bits it sets; bits are sticky, so masks of one command are or-ed together (R306). -/

namespace Sys2Proof.Machine

/-- The bits of `DIAG` (R26). -/
inductive DiagBit where
  /-- 0 -/
  | illegal
  /-- 1 -/
  | badIndex
  /-- 2 -/
  | notInit
  /-- 3: `SEALED` -/
  | sealed
  /-- 4 -/
  | freqClamped
  /-- 5 -/
  | qClamped
  /-- 6 -/
  | delayWrapped
  /-- 7 -/
  | morphClamped
  /-- 8 -/
  | spaClamped
  deriving DecidableEq, Repr

/-- The mask of one bit at its place in `DIAG` (R26). -/
def DiagBit.mask (b : DiagBit) : BitVec 9 :=
  match b with
  | .illegal => 0x001#9
  | .badIndex => 0x002#9
  | .notInit => 0x004#9
  | .sealed => 0x008#9
  | .freqClamped => 0x010#9
  | .qClamped => 0x020#9
  | .delayWrapped => 0x040#9
  | .morphClamped => 0x080#9
  | .spaClamped => 0x100#9

/-- The mask of a bit when its event happened, no bit when it did not. -/
def DiagBit.when (b : DiagBit) (happened : Bool) : BitVec 9 := if happened then b.mask else 0#9

/-- `MODE` as `STATUS[1:0]` shows it (R24). -/
def Mode.code (m : Mode) : Word :=
  match m with
  | .config => 0#32
  | .run => 1#32
  | .faulted => 2#32

/-- The cause code in `FAULT` (R25, R301). -/
def Cause.code (c : Cause) : Word :=
  match c with
  | .none => 0#32
  | .wtsRange => 1#32
  | .wtsIncomplete => 2#32
  | .wtsMissing => 3#32
  | .cfgBank => 4#32

/-- `STATUS` (R27): bits [1:0] the mode, bit 2 set while `DIAG` is not zero, the rest 0. -/
def State.status (s : State) : Word :=
  s.mode.code ||| (if s.diag = 0#9 then 0#32 else 4#32)

/-- `guard_freq` (R113): anything not at or above `F_MIN`, NaN included, becomes `F_MIN`. -/
def guardFreq {F : Type} (N : Arith F) (fMin f : F) : F × BitVec 9 :=
  if N.le fMin f then (f, 0#9) else (fMin, DiagBit.freqClamped.mask)

/-- `guard_q` (R113): anything not at or above `Q_MIN`, NaN included, becomes `Q_MIN`. -/
def guardQ {F : Type} (N : Arith F) (qMin q : F) : F × BitVec 9 :=
  if N.le qMin q then (q, 0#9) else (qMin, DiagBit.qClamped.mask)

/-- `clamp01` (R113): below 0 and NaN become +0.0, above 1 becomes 1.0. -/
def clamp01 {F : Type} (N : Arith F) (p : F) : F × BitVec 9 :=
  if N.le N.zero p then
    (if N.le p N.one then (p, 0#9) else (N.one, DiagBit.morphClamped.mask))
  else (N.zero, DiagBit.morphClamped.mask)

end Sys2Proof.Machine
end

