-- ==== Sys2Proof/Machine/Operands.lean ====
section
/-! DEFINITION. How a command reads its operands (30_encoding.md R81; 00_scope.md R7): operand k is the
operand register `A[k]`, read as `F`, `U` or `S`; the index `j` of IDX selects an instance of an array. -/

namespace Sys2Proof.Machine

/-- `A[k]` for k = 0..4 (R8, R21). There is no other operand register: any other k reads as `A4`. -/
def State.opA (s : State) (k : Nat) : Word :=
  match k with
  | 0 => s.a0
  | 1 => s.a1
  | 2 => s.a2
  | 3 => s.a3
  | _ => s.a4

/-- `asF(w)`: the word is the binary32 encoding itself (R7, R62). -/
def asF (w : Word) : Word := w

/-- `asU(w)`: an unsigned integer (R7). -/
def asU (w : Word) : Nat := w.toNat

/-- `asS(w)`: a two's-complement signed integer (R7). -/
def asS (w : Word) : Int := w.toInt

/-- `bitsU(n)` (R7). -/
def bitsU (n : Nat) : Word := BitVec.ofNat 32 n

/-- `bitsS(n)` (R7). -/
def bitsS (n : Int) : Word := BitVec.ofInt 32 n

/-- The word of a one-bit flag, 0 or 1 (R153, R158). -/
def bitsB (b : Bool) : Word := if b then 1#32 else 0#32

/-- `OSC[j]`. -/
def State.oscAt (s : State) (j : Nat) : Osc Word := s.osc.getD j Osc.reset

/-- `ENV[j]`. -/
def State.envAt (s : State) (j : Nat) : Env Word := s.env.getD j Env.reset

/-- `BQ[j]`. -/
def State.bqAt (s : State) (j : Nat) : Biquad Word := s.bq.getD j Biquad.reset

/-- `DL[j]`. -/
def State.dlAt (s : State) (j : Nat) : DelayLine Word := s.dl.getD j DelayLine.reset

/-- `RVB[j]`. -/
def State.rvbAt (s : State) (j : Nat) : Reverb Word := s.rvb.getD j Reverb.reset

/-- `DRV[j]`. -/
def State.drvAt (s : State) (j : Nat) : Drive Word := s.drv.getD j (Drive.reset s.cfg)

/-- `NTAB[b]`; a bank that does not exist is not declared (R30). -/
def State.ntabAt (s : State) (b : Nat) : Nat := s.ntab.getD b 0

/-- `WT[b][t][i]`, `none` for `unwritten` (R30). -/
def State.cell (s : State) (b t i : Nat) : Option Word :=
  Memory.read storeBlank s.wt (s.cfg.cellKey b t i)

/-- `SPA_IN[i]` (R38). -/
def State.spaInAt (s : State) (i : Nat) : Word := Memory.word s.spaIn i

/-- The value for one channel. -/
def Stereo.at {α : Type} (v : Stereo α) (c : Chan) : α :=
  match c with
  | .left => v.left
  | .right => v.right

/-- Replace the value for one channel. -/
def Stereo.put {α : Type} (v : Stereo α) (c : Chan) (x : α) : Stereo α :=
  match c with
  | .left => { v with left := x }
  | .right => { v with right := x }

/-- The value for one stage. -/
def PerStage.at {α : Type} (v : PerStage α) (g : Stage) : α :=
  match g with
  | .s1 => v.s1
  | .s2 => v.s2
  | .s3 => v.s3

/-- Replace the value for one stage. -/
def PerStage.put {α : Type} (v : PerStage α) (g : Stage) (x : α) : PerStage α :=
  match g with
  | .s1 => { v with s1 := x }
  | .s2 => { v with s2 := x }
  | .s3 => { v with s3 := x }

/-- `RVB[j].dl[c][s]` (R35). -/
def Reverb.line {F : Type} (v : Reverb F) (c : Chan) (g : Stage) : DelayLine F :=
  PerStage.at (Stereo.at v.dl c) g

/-- `RVB[j].ap[c][s]` (R35). -/
def Reverb.allpass {F : Type} (v : Reverb F) (c : Chan) (g : Stage) : Biquad F :=
  PerStage.at (Stereo.at v.ap c) g

/-- Replace `RVB[j].dl[c][s]`. -/
def Reverb.setLine {F : Type} (v : Reverb F) (c : Chan) (g : Stage) (x : DelayLine F) : Reverb F :=
  { v with dl := Stereo.put v.dl c (PerStage.put (Stereo.at v.dl c) g x) }

/-- Replace `RVB[j].ap[c][s]`. -/
def Reverb.setAllpass {F : Type} (v : Reverb F) (c : Chan) (g : Stage) (x : Biquad F) : Reverb F :=
  { v with ap := Stereo.put v.ap c (PerStage.put (Stereo.at v.ap c) g x) }

end Sys2Proof.Machine
end

