-- ==== Sys2Proof/Machine/Ops.lean ====
section
/-! DEFINITION. The operations the commands share: results, diagnostics, ignored commands
(60_exceptions.md R307, R308), fault entry (R303) and reset, the one way back (R305, R131), the tests that
come before a command's own rule (30_encoding.md R86), the store, the instance arrays, and the publish step
of the analyzer with the reader's operations (47_spectrum.md R257, 60_exceptions.md R320). -/

namespace Sys2Proof.Machine

/-- What a step or a command answers. -/
abbrev Result := Host.Outcome State Fault Refusal

/-! Results and diagnostics. -/

/-- `R[0] <- w` (R22). -/
def State.withR0 (s : State) (w : Word) : State := { s with r0 := w }

/-- `R[0] <- w; R[1] <- v` (R22). -/
def State.withR01 (s : State) (w v : Word) : State := { s with r0 := w, r1 := v }

/-- `diag(bit)` for every bit of a mask (R307): bits are set, none is cleared. -/
def State.raiseDiag (s : State) (mask : BitVec 9) : State := { s with diag := s.diag ||| mask }

/-- An ignored command (R308, R90, R133, R172): one diagnostic bit, zero results, nothing else. -/
def State.ignored (s : State) (b : DiagBit) : State :=
  { s with diag := s.diag ||| b.mask, r0 := 0#32, r1 := 0#32 }

/-! Fault entry and the way back. -/

/-- `raise Fault(cause)` by the command word `c` (R303): the mode, the cause, the command word and zero
results; nothing is saved elsewhere and control goes nowhere, for the block has no program counter. -/
def State.faultEntry (s : State) (cause : Cause) (c : Word) : State :=
  { s with mode := .faulted, fault := cause, faultInfo := c, r0 := 0#32, r1 := 0#32 }

/-- `Reset()` (R131, R330, R331): every piece of the block's state to its reset value. The configuration
and the model's own fields (inputs to come, observations made, the draw number) are not the block's. -/
def State.doReset (s : State) : State :=
  { State.resetOf s.cfg with
    draw := s.draw, port := s.port, midSnaps := s.midSnaps,
    hostSaw := s.hostSaw, readerSaw := s.readerSaw }

/-! The tests that come before a command's own rule (R86, R306). -/

/-- R86 step 1 for a command other than `SYS.RESET`: in FAULTED mode nothing changes. -/
def unlessFaulted (s : State) (k : Result) : Result :=
  match s.mode with
  | .faulted => .next s
  | .config => k
  | .run => k

/-- R86 step 4: an index at or above the instance count is ignored with `BAD_INDEX`. -/
def onIndex (s : State) (count j : Nat) (k : Result) : Result :=
  unlessFaulted s (if count ≤ j then .next (s.ignored .badIndex) else k)

/-- A `WTS` command acts in CONFIG mode only; in RUN it is ignored with `SEALED` (R132, R133). -/
def onOpenStore (s : State) (k : Result) : Result :=
  unlessFaulted s (if s.mode = .run then .next (s.ignored .sealed) else k)

/-- An `OSC` command other than `OSC.INIT` acts on a valid oscillator; on another it is ignored with
`NOT_INIT` (R172). -/
def onValidOsc (s : State) (j : Nat) (k : Result) : Result :=
  onIndex s s.cfg.nOsc j (if (s.oscAt j).valid then k else .next (s.ignored .notInit))

/-! The wavetable store. -/

/-- `NTAB[b] <- n`. -/
def State.setNtab (s : State) (b n : Nat) : State := { s with ntab := s.ntab.set b n }

/-- `MemWrite(WT[b][t], i, v)`. -/
def State.setCell (s : State) (b t i : Nat) (v : Word) : State :=
  { s with wt := Memory.write storeBlank s.wt (s.cfg.cellKey b t i) v }

/-- The first `n` cells of a table all hold a value. -/
def State.tableWritten (s : State) (b t : Nat) (n : Nat) : Bool :=
  match n with
  | 0 => true
  | n + 1 => (s.cell b t n).isSome && s.tableWritten b t n

/-- The first `m` tables of a bank are written whole. -/
def State.tablesWritten (s : State) (b : Nat) (m : Nat) : Bool :=
  match m with
  | 0 => true
  | m + 1 => s.tableWritten b m s.cfg.tableLen && s.tablesWritten b m

/-- The first `n` banks are declared and written whole (R136's test). -/
def State.banksComplete (s : State) (n : Nat) : Bool :=
  match n with
  | 0 => true
  | n + 1 =>
    decide (s.ntabAt n ≠ 0) && s.tablesWritten n (s.ntabAt n) && s.banksComplete n

/-- The store is complete: what `WTS.SEAL` tests (R136). -/
def State.storeComplete (s : State) : Bool := s.banksComplete s.cfg.nBanks

/-! Instances. -/

/-- `OSC[j] <- x`. -/
def State.setOsc (s : State) (j : Nat) (x : Osc Word) : State := { s with osc := s.osc.set j x }

/-- `ENV[j] <- x`. -/
def State.setEnv (s : State) (j : Nat) (x : Env Word) : State := { s with env := s.env.set j x }

/-- `BQ[j] <- x`. -/
def State.setBq (s : State) (j : Nat) (x : Biquad Word) : State := { s with bq := s.bq.set j x }

/-- `DL[j] <- x`. -/
def State.setDl (s : State) (j : Nat) (x : DelayLine Word) : State := { s with dl := s.dl.set j x }

/-- `RVB[j] <- x`. -/
def State.setRvb (s : State) (j : Nat) (x : Reverb Word) : State := { s with rvb := s.rvb.set j x }

/-- `DRV[j] <- x`. -/
def State.setDrv (s : State) (j : Nat) (x : Drive Word) : State := { s with drv := s.drv.set j x }

/-! The snapshot and its reader. -/

/-- `snapshot()` taken `n` times: the reader gets the pair as it stands and writes nothing (R320, R70). -/
def State.snapshots (s : State) (n : Nat) : State :=
  { s with readerSaw := List.replicate n { seq := s.spaSeq, bins := s.bins } ++ s.readerSaw }

/-- The reader's operations that fall right after a publish inside `SPA.PROC` (R320): the next number of
the schedule, none when the schedule is empty (log 5). -/
def State.midCommand (s : State) : State :=
  match s.midSnaps with
  | [] => s
  | n :: rest => { s.snapshots n with midSnaps := rest }

/-- `publish(mags)` (R257): all of `BINS` and the counter, modulo 2^32, in one step. -/
def State.publish (s : State) (mags : List Word) : State :=
  { s with bins := mags, spaSeq := s.spaSeq + 1#32 }

end Sys2Proof.Machine
end

