-- ==== Sys2Proof/Machine/Delay.lean ====
section
/-! DEFINITION. The delay line commands (45_delay_reverb.md section 1). -/

namespace Sys2Proof.Machine

/-- A requested delay outside 0..CAP−1 will not be the effective one (R212). -/
def delayOutside (cap : Nat) (d : Word) : Bool := decide (asS d < 0 ∨ (cap : Int) ≤ asS d)

/-- `dl_set(dl, d, g)` (R212): the length as requested and the feedback, with the mask of
`DELAY_WRAPPED`; buffer and write index stay. -/
def dlSet {F : Type} (cap : Nat) (L : DelayLine F) (d : Word) (g : F) : DelayLine F × BitVec 9 :=
  ({ L with delay := d, fb := g }, DiagBit.delayWrapped.when (delayOutside cap d))

/-- The read index of the next step: (write index − delay length) mod capacity (R216, R111). -/
def dlReadIndex {F : Type} (cap : Nat) (L : DelayLine F) : Nat :=
  emod ((L.w : Int) - emod (asS L.delay) cap) cap

/-- `dl_step(dl, x)` (R216): read the delayed sample, store the input plus the fed-back output, advance
the write index. -/
def dlStep {F : Type} [DecidableEq F] (N : Arith F) (cap : Nat) (L : DelayLine F) (x : F) :
    F × DelayLine F :=
  let out := Memory.elem N.zero L.buf (dlReadIndex cap L)
  (out, { L with
    buf := Memory.write (some N.zero) L.buf L.w (N.add x (N.mul L.fb out))
    w := emod (L.w + 1) cap })

/-- `DL.INIT j` (R213): a silent buffer, then the delay `A0` and feedback `A1`. -/
def execDlInit (j : Nat) (s : State) : Result :=
  onIndex s s.cfg.nDl j <|
    let r := dlSet s.cfg.dlCap { s.dlAt j with buf := [], w := 0 } (s.opA 0) (asF (s.opA 1))
    .next ((s.setDl j r.1).raiseDiag r.2)

/-- `DL.SET j` (R214): the delay `A0` and feedback `A1`; the contents stay. -/
def execDlSet (j : Nat) (s : State) : Result :=
  onIndex s s.cfg.nDl j <|
    let r := dlSet s.cfg.dlCap (s.dlAt j) (s.opA 0) (asF (s.opA 1))
    .next ((s.setDl j r.1).raiseDiag r.2)

/-- `DL.PROC j` (R215): one sample. -/
def execDlProc (j : Nat) (s : State) : Result :=
  onIndex s s.cfg.nDl j <|
    let r := dlStep (b32 s.draw) s.cfg.dlCap (s.dlAt j) (asF (s.opA 0))
    .next ((s.setDl j r.2).withR0 r.1)

end Sys2Proof.Machine
end

