-- ==== Sys2Proof/Machine/DriveUnit.lean ====
section
/-! DEFINITION. The drive commands (46_drive.md). -/

namespace Sys2Proof.Machine

/-- One sample of a drive unit (R242): the delay line steps, then `tanh(x · delayed(x))`. -/
def drvStep {F : Type} [DecidableEq F] (N : Arith F) (cap : Nat) (D : Drive F) (x : F) : F × Drive F :=
  let r := dlStep N cap D.dl x
  (N.tanh (N.mul x r.1), { dl := r.2 })

/-- `DRV.INIT j` (R241): silent buffer, delay `DRV_DELAY`, feedback +0.0. -/
def execDrvInit (j : Nat) (s : State) : Result :=
  onIndex s s.cfg.nDrv j (.next (s.setDrv j (Drive.reset s.cfg)))

/-- `DRV.PROC j` (R242): one sample. -/
def execDrvProc (j : Nat) (s : State) : Result :=
  onIndex s s.cfg.nDrv j <|
    let r := drvStep (b32 s.draw) s.cfg.drvDlCap (s.drvAt j) (asF (s.opA 0))
    .next ((s.setDrv j r.2).withR0 r.1)

end Sys2Proof.Machine
end

