-- ==== Sys2Proof/Machine/Envelope.lean ====
section
/-! DEFINITION. The envelope generator commands (42_env.md). -/

namespace Sys2Proof.Machine

/-- The held branch's amplitude (R153, R154): attack, then decay, then sustain; a phase whose duration is
not above 0 is skipped (R157). -/
def heldAmplitude {F : Type} (N : Arith F) (E : Env F) (t : F) : F :=
  if N.lt N.zero E.attack && N.lt t E.attack then N.div t E.attack
  else if N.lt N.zero E.decay && N.lt t (N.add E.attack E.decay) then
    N.sub N.one (N.div (N.mul (N.sub t E.attack) (N.sub N.one E.sustain)) E.decay)
  else E.sustain

/-- One evaluation of an envelope (R153): the amplitude and the envelope after it. Released when
`toff > 0` (R155), held otherwise. -/
def envStep {F : Type} (N : Arith F) (E : Env F) (t toff : F) : F × Env F :=
  if N.lt N.zero toff then
    let elapsed := N.sub t toff
    if N.lt N.zero E.release && N.lt elapsed E.release then
      (N.sub E.rsa (N.mul elapsed (N.div E.rsa E.release)), E)
    else (N.zero, { E with finished := true })
  else
    let amp := heldAmplitude N E t
    (amp, { E with rsa := amp })

/-- `ENV.INIT j` (R151): a fresh envelope. -/
def execEnvInit (j : Nat) (s : State) : Result :=
  onIndex s s.cfg.nEnv j (.next (s.setEnv j Env.reset))

/-- `ENV.SETP j` (R152): the four parameters as given; `rsa` and `finished` stay. -/
def execEnvSetp (j : Nat) (s : State) : Result :=
  onIndex s s.cfg.nEnv j <|
    .next (s.setEnv j { s.envAt j with
      attack := asF (s.opA 0), decay := asF (s.opA 1),
      sustain := asF (s.opA 2), release := asF (s.opA 3) })

/-- `ENV.PROC j` (R153): the amplitude in `R0`, the `finished` flag after the call in `R1`. -/
def execEnvProc (j : Nat) (s : State) : Result :=
  onIndex s s.cfg.nEnv j <|
    let r := envStep (b32 s.draw) (s.envAt j) (asF (s.opA 0)) (asF (s.opA 1))
    .next ((s.setEnv j r.2).withR01 r.1 (bitsB r.2.finished))

/-- `ENV.STAT j` (R158): `rsa` in `R0` and `finished` in `R1`. -/
def execEnvStat (j : Nat) (s : State) : Result :=
  onIndex s s.cfg.nEnv j <|
    .next (s.withR01 (s.envAt j).rsa (bitsB (s.envAt j).finished))

end Sys2Proof.Machine
end

