-- ==== Sys2Proof/Machine/Filter.lean ====
section
/-! DEFINITION. The biquad filter commands (44_biquad.md). -/

namespace Sys2Proof.Machine

/-- The intermediate quantities of a design (R193). -/
structure Prelude (F : Type) where
  cw : F
  alpha : F
  a0 : F

/-- `design_prelude(f0, q)` (R193), with the mask of the guards that acted. -/
def designPrelude {F : Type} (N : Arith F) (fs fMin qMin f0 q : F) : Prelude F × BitVec 9 :=
  let f := guardFreq N fMin f0
  let qq := guardQ N qMin q
  let w0 := N.div (N.mul N.twoPi f.1) fs
  let alpha := N.div (N.sin w0) (N.mul N.two qq.1)
  ({ cw := N.cos w0, alpha := alpha, a0 := N.add N.one alpha }, f.2 ||| qq.2)

/-- `bq_lowpass` (R194). -/
def bqLowpass {F : Type} (N : Arith F) (p : Prelude F) : Coefs F :=
  let b0 := N.div (N.div (N.sub N.one p.cw) N.two) p.a0
  { b0 := b0
    b1 := N.div (N.sub N.one p.cw) p.a0
    b2 := b0
    a1 := N.div (N.mul N.negTwo p.cw) p.a0
    a2 := N.div (N.sub N.one p.alpha) p.a0 }

/-- `bq_allpass` (R195). -/
def bqAllpass {F : Type} (N : Arith F) (p : Prelude F) : Coefs F :=
  let b0 := N.div (N.sub N.one p.alpha) p.a0
  let b1 := N.div (N.mul N.negTwo p.cw) p.a0
  { b0 := b0
    b1 := b1
    b2 := N.div (N.add N.one p.alpha) p.a0
    a1 := b1
    a2 := b0 }

/-- `bq_step` (R196): transposed direct form II; the taps use the new output and the old `s2`. -/
def bqStep {F : Type} (N : Arith F) (B : Biquad F) (x : F) : F × Biquad F :=
  let y := N.add (N.mul B.coefs.b0 x) B.s1
  (y, { B with
    s1 := N.add (N.sub (N.mul B.coefs.b1 x) (N.mul B.coefs.a1 y)) B.s2
    s2 := N.sub (N.mul B.coefs.b2 x) (N.mul B.coefs.a2 y) })

/-- `bq_set` (R194, R197): the coefficients; the taps stay. -/
def bqSet {F : Type} (B : Biquad F) (c : Coefs F) : Biquad F := { B with coefs := c }

/-- `BQ.INIT j` (R191): identity coefficients, zero taps. -/
def execBqInit (j : Nat) (s : State) : Result :=
  onIndex s s.cfg.nBq j (.next (s.setBq j Biquad.reset))

/-- `BQ.SETC j` (R192): five coefficients as given. -/
def execBqSetc (j : Nat) (s : State) : Result :=
  onIndex s s.cfg.nBq j <|
    .next (s.setBq j (bqSet (s.bqAt j)
      { b0 := asF (s.opA 0), b1 := asF (s.opA 1), b2 := asF (s.opA 2),
        a1 := asF (s.opA 3), a2 := asF (s.opA 4) }))

/-- `BQ.LP j` (R194): the lowpass design for cutoff `A0` and Q `A1`. -/
def execBqLp (j : Nat) (s : State) : Result :=
  onIndex s s.cfg.nBq j <|
    let N := b32 s.draw
    let p := designPrelude N s.cfg.fs s.cfg.fMin s.cfg.qMin (asF (s.opA 0)) (asF (s.opA 1))
    .next ((s.setBq j (bqSet (s.bqAt j) (bqLowpass N p.1))).raiseDiag p.2)

/-- `BQ.AP j` (R195): the allpass design for centre frequency `A0` and Q `A1`. -/
def execBqAp (j : Nat) (s : State) : Result :=
  onIndex s s.cfg.nBq j <|
    let N := b32 s.draw
    let p := designPrelude N s.cfg.fs s.cfg.fMin s.cfg.qMin (asF (s.opA 0)) (asF (s.opA 1))
    .next ((s.setBq j (bqSet (s.bqAt j) (bqAllpass N p.1))).raiseDiag p.2)

/-- `BQ.PROC j` (R196): one sample. -/
def execBqProc (j : Nat) (s : State) : Result :=
  onIndex s s.cfg.nBq j <|
    let r := bqStep (b32 s.draw) (s.bqAt j) (asF (s.opA 0))
    .next ((s.setBq j r.2).withR0 r.1)

end Sys2Proof.Machine
end

