-- ==== Sys2Proof/Machine/Oscillator.lean ====
section
/-! DEFINITION. The wavetable oscillator commands (43_osc.md). -/

namespace Sys2Proof.Machine

/-- `set_freq(O, f)` (R171): samples per cycle and table positions per sample. -/
def setFreq {F : Type} (N : Arith F) (fs tlen : F) (O : Osc F) (f : F) : Osc F :=
  { O with spc := N.div fs f, scale := N.div tlen (N.div fs f) }

/-- The phase in samples (R177): the time in samples modulo the samples per cycle, floored for negative
time. -/
def oscPhase {F : Type} (N : Arith F) (O : Osc F) (t : F) : F :=
  let n := N.div t O.tps
  let ph := N.rem n O.spc
  if N.lt ph N.zero then N.add ph O.spc else ph

/-- `table_index(O, t)` (R177, R178): the offset truncated, then kept inside the table. -/
def tableIndex {F : Type} (N : Arith F) (tableLen : Nat) (O : Osc F) (t : F) : Nat :=
  let i := N.toInt (N.mul (oscPhase N O t) O.scale)
  let i := if (tableLen : Int) - 1 < i then (tableLen : Int) - 1 else i
  let i := if i < 0 then 0 else i
  i.toNat

/-- `morph_pair(O)` (R179): the lower table of the segment and the position inside it, for a bank of
`n` tables. -/
def morphPair {F : Type} (N : Arith F) (n : Nat) (morph : F) : Nat × F :=
  let seg := N.mul morph (N.ofInt ((n : Int) - 1))
  let k := N.toInt seg
  let k := if (n : Int) - 2 < k then (n : Int) - 2 else k
  let k := if k < 0 then 0 else k
  (k.toNat, N.sub seg (N.ofInt k))

/-- The crossfade `a · (1.0 − f) + b · f` (R180). -/
def crossfade {F : Type} (N : Arith F) (a b f : F) : F :=
  N.add (N.mul a (N.sub N.one f)) (N.mul b f)

/-- `OSC.INIT j` (R173): the mode test, the bank test, then the construction. -/
def execOscInit (j : Nat) (s : State) : Result :=
  onIndex s s.cfg.nOsc j <|
    if s.mode = .config then .next (s.faultEntry .wtsMissing (encode (.oscInit j)))
    else
      let b := asU (s.opA 1)
      if s.cfg.nBanks ≤ b then .next (s.faultEntry .cfgBank (encode (.oscInit j)))
      else
        let N := b32 s.draw
        let g := guardFreq N s.cfg.fMin (asF (s.opA 0))
        let O : Osc Word :=
          { valid := true, bank := b, tps := N.div N.one s.cfg.fs,
            spc := N.zero, scale := N.zero, morph := N.zero }
        .next ((s.setOsc j (setFreq N s.cfg.fs (N.ofInt s.cfg.tableLen) O g.1)).raiseDiag g.2)

/-- `OSC.SETF j` (R174): `spc` and `scale` from the guarded frequency. -/
def execOscSetf (j : Nat) (s : State) : Result :=
  onValidOsc s j <|
    let N := b32 s.draw
    let g := guardFreq N s.cfg.fMin (asF (s.opA 0))
    .next ((s.setOsc j (setFreq N s.cfg.fs (N.ofInt s.cfg.tableLen) (s.oscAt j) g.1)).raiseDiag g.2)

/-- `OSC.SETM j` (R175): the morph position, clamped to [0, 1]. -/
def execOscSetm (j : Nat) (s : State) : Result :=
  onValidOsc s j <|
    let g := clamp01 (b32 s.draw) (asF (s.opA 0))
    .next ((s.setOsc j { s.oscAt j with morph := g.1 }).raiseDiag g.2)

/-- `OSC.PROC j` (R176): the sample at time `A0`. An unwritten cell, which no run reaches (R30), stops the
model (log 8). -/
def execOscProc (j : Nat) (s : State) : Result :=
  onValidOsc s j <|
    let N := b32 s.draw
    let O := s.oscAt j
    let i := tableIndex N s.cfg.tableLen O (asF (s.opA 0))
    let m := morphPair N (s.ntabAt O.bank) O.morph
    match s.cell O.bank m.1 i, s.cell O.bank (m.1 + 1) i with
    | some a, some b => .next (s.withR0 (crossfade N a b m.2))
    | _, _ => .fault .unwrittenCell

end Sys2Proof.Machine
end

