-- ==== Sys2Proof/Machine/Reverberation.lean ====
section
/-! DEFINITION. The reverb network commands (45_delay_reverb.md section 2). -/

namespace Sys2Proof.Machine

/-- One stage of `RVB.UPD` (R226): the offset parameters of stage `g` into both channels' delay lines and
allpass filters, with the mask of the guards that acted. -/
def rvbUpdateStage {F : Type} (N : Arith F) (c : Config) (d : Int) (fb fr q : F) (g : Stage)
    (V : Reverb F) : Reverb F × BitVec 9 :=
  let ds := bitsS (sat32 (d + PerStage.at c.rvbDd g))
  let gs := N.add fb (N.ofWord (PerStage.at c.rvbDfb g))
  let p := designPrelude N (N.ofWord c.fs) (N.ofWord c.fMin) (N.ofWord c.qMin)
    (N.add fr (N.ofWord (PerStage.at c.rvbDfreq g))) q
  let coefs := bqAllpass N p.1
  let l := dlSet c.rvbDlCap (V.line .left g) ds gs
  let r := dlSet c.rvbDlCap (V.line .right g) ds gs
  let V := V.setLine .left g l.1
  let V := V.setAllpass .left g (bqSet (V.allpass .left g) coefs)
  let V := V.setLine .right g r.1
  let V := V.setAllpass .right g (bqSet (V.allpass .right g) coefs)
  (V, p.2 ||| l.2 ||| r.2)

/-- The whole of `RVB.UPD` on one network (R226): stages 1, 2, 3 in order. -/
def rvbUpdate {F : Type} (N : Arith F) (c : Config) (d : Int) (fb fr q : F) (V : Reverb F) :
    Reverb F × BitVec 9 :=
  let u1 := rvbUpdateStage N c d fb fr q .s1 V
  let u2 := rvbUpdateStage N c d fb fr q .s2 u1.1
  let u3 := rvbUpdateStage N c d fb fr q .s3 u2.1
  (u3.1, u1.2 ||| u2.2 ||| u3.2)

/-- One stage of a chain (R227, R229): the delay line the map names, then half the allpass and half the
delayed sample. -/
def rvbStage {F : Type} [DecidableEq F] (N : Arith F) (c : Config) (ch : Chan) (g : Stage) (V : Reverb F) (v : F) :
    F × Reverb F :=
  let m := PerStage.at (Stereo.at c.rvbMap ch) g
  let d := dlStep N c.rvbDlCap (V.line m.1 m.2) v
  let V := V.setLine m.1 m.2 d.2
  let b := bqStep N (V.allpass ch g) d.1
  (N.add (N.mul N.half b.1) (N.mul N.half d.1), V.setAllpass ch g b.2)

/-- One channel's chain of stages 1, 2, 3 (R227). -/
def rvbChain {F : Type} [DecidableEq F] (N : Arith F) (c : Config) (ch : Chan) (V : Reverb F) (x : F) :
    F × Reverb F :=
  let r1 := rvbStage N c ch .s1 V x
  let r2 := rvbStage N c ch .s2 r1.2 r1.1
  rvbStage N c ch .s3 r2.2 r2.1

/-- `RVB.INIT j` (R225): the reset value. -/
def execRvbInit (j : Nat) (s : State) : Result :=
  onIndex s s.cfg.nRvb j (.next (s.setRvb j Reverb.reset))

/-- `RVB.UPD j` (R226): the six parameter sets from delay `A0`, feedback `A1`, frequency `A2`, Q `A3`. -/
def execRvbUpd (j : Nat) (s : State) : Result :=
  onIndex s s.cfg.nRvb j <|
    let r := rvbUpdate (b32 s.draw) s.cfg (asS (s.opA 0)) (asF (s.opA 1)) (asF (s.opA 2))
      (asF (s.opA 3)) (s.rvbAt j)
    .next ((s.setRvb j r.1).raiseDiag r.2)

/-- `RVB.PROC j` (R227): the left chain wholly, then the right chain, from the same input. -/
def execRvbProc (j : Nat) (s : State) : Result :=
  onIndex s s.cfg.nRvb j <|
    let N := b32 s.draw
    let l := rvbChain N s.cfg .left (s.rvbAt j) (asF (s.opA 0))
    let r := rvbChain N s.cfg .right l.2 (asF (s.opA 0))
    .next ((s.setRvb j r.2).withR01 l.1 r.1)

end Sys2Proof.Machine
end

