-- ==== Sys2Proof/Machine/Spectrum.lean ====
section
/-! DEFINITION. The spectrum analyzer commands (47_spectrum.md). -/

namespace Sys2Proof.Machine

/-- The history after one more sample: the oldest dropped, the newest last (R253, R255). So a NaN or infinite
sample leaves it after `SPA_WIN` further samples, as R258 says; R349 says that further samples do not clear
it, and no ruling of the spec settles the two. DESIGN CHOICE: R253, R255 and R258 are followed (log 21). -/
def shiftIn {F : Type} (hist : List F) (x : F) : List F := hist.drop 1 ++ [x]

/-- One sample into the analyzer (R253): into the history, and at every `SPA_HOP`th one the magnitudes to
publish. -/
def spaStep {F : Type} (N : Arith F) (c : Config) (A : Analyzer F) (x : F) : Analyzer F × Option (List F) :=
  let hist := shiftIn A.hist x
  if A.hcnt + 1 = c.spaHop then ({ hist := hist, hcnt := 0 }, some (N.dftmag c hist))
  else ({ hist := hist, hcnt := A.hcnt + 1 }, none)

/-- One sample of `SPA.PROC` (R253): the analyzer steps, and what it has to publish is published, after which
reader operations may fall (R257, R320). -/
def spaTake (s : State) (x : Word) : State :=
  let r := spaStep (b32 s.draw) s.cfg s.spa x
  match r.2 with
  | some mags => ({ s with spa := r.1 }.publish mags).midCommand
  | none => { s with spa := r.1 }

/-- The samples of a block one after the other (R253, R114). -/
def spaTakeAll (s : State) (xs : List Word) : State :=
  match xs with
  | [] => s
  | x :: rest => spaTakeAll (spaTake s x) rest

/-- The first `m` words of `SPA_IN` from index `i` on (R253). -/
def spaBlock (s : State) (i m : Nat) : List Word :=
  match m with
  | 0 => []
  | m + 1 => s.spaInAt i :: spaBlock s (i + 1) m

/-- The number of samples taken: at most `SPA_BLK_MAX` (R254). -/
def spaCount (s : State) : Nat := min (asU (s.opA 0)) s.cfg.spaBlkMax

/-- `SPA.INIT` (R252): the reset value of the analyzer, and the cleared pair as one publish step. -/
def execSpaInit (s : State) : Result :=
  unlessFaulted s <|
    .next { s with
      spa := Analyzer.reset s.cfg, bins := List.replicate s.cfg.nbins 0#32, spaSeq := 0#32 }

/-- `SPA.PROC` (R253): `A0` samples of `SPA_IN`, cut to `SPA_BLK_MAX` with `SPA_CLAMPED` (R254). -/
def execSpaProc (s : State) : Result :=
  unlessFaulted s <|
    .next (spaTakeAll
      (s.raiseDiag (DiagBit.spaClamped.when (decide (s.cfg.spaBlkMax < asU (s.opA 0)))))
      (spaBlock s 0 (spaCount s)))

/-! A permitted instance of the transform magnitude (R256). The block's own is `Config.num.dftmag`; no
implementation is required to match this one. -/

/-- One term of the direct sum for bin `k` (R256). -/
def dftTerm {F : Type} (N : Arith F) (fft k n : Nat) (h g : F) (acc : F × F) : F × F :=
  let xn := N.mul h g
  let ang := N.div (N.mul N.twoPi (N.ofInt (emod (k * n : Nat) fft))) (N.ofInt fft)
  (N.add acc.1 (N.mul xn (N.cos ang)), N.sub acc.2 (N.mul xn (N.sin ang)))

/-- The sums for bin `k` over the windowed history from sample `n` on (R256). -/
def dftSums {F : Type} (N : Arith F) (fft k n : Nat) (xs : List (F × F)) (acc : F × F) : F × F :=
  match xs with
  | [] => acc
  | (h, g) :: rest => dftSums N fft k (n + 1) rest (dftTerm N fft k n h g acc)

/-- `dftmag_direct(hist)` (R256), the direct sum. -/
def dftmagDirect {F : Type} (N : Arith F) (fft nbins : Nat) (win hist : List F) : List F :=
  (List.range nbins).map fun k =>
    let r := dftSums N fft k 0 (hist.zip win) (N.zero, N.zero)
    N.mul (N.sqrt (N.add (N.mul r.1 r.1) (N.mul r.2 r.2))) (N.div N.one (N.ofInt fft))

end Sys2Proof.Machine
end

