-- ==== Sys2Proof/Machine/Sys.lean ====
section
/-! DEFINITION. The system commands (41_sys_wts.md section 1). -/

namespace Sys2Proof.Machine

/-- `SYS.NOP` (R130): no effect in any mode. -/
def execSysNop (s : State) : Result := unlessFaulted s (.next s)

/-- `SYS.RESET` (R131): reset, in every mode; the only way out of FAULTED but power-on (R305). -/
def execSysReset (s : State) : Result := .next s.doReset

end Sys2Proof.Machine
end

