-- ==== Sys2Proof/Machine/Wts.lean ====
section
/-! DEFINITION. The wavetable store commands (41_sys_wts.md section 2). -/

namespace Sys2Proof.Machine

/-- `WTS.BANK` (R134): bank `A0` will hold `A1` tables; declared once, 2 to `NT_MAX` tables. -/
def execWtsBank (s : State) : Result :=
  onOpenStore s <|
    let b := asU (s.opA 0)
    let n := asU (s.opA 1)
    if s.cfg.nBanks ≤ b then .next (s.faultEntry .wtsRange (encode .wtsBank))
    else if n < 2 ∨ s.cfg.ntMax < n then .next (s.faultEntry .wtsRange (encode .wtsBank))
    else if s.ntabAt b ≠ 0 then .next (s.faultEntry .wtsRange (encode .wtsBank))
    else .next (s.setNtab b n)

/-- `WTS.WR` (R135): cell `A2` of table `A1` of bank `A0` gets the finite value `A3`. -/
def execWtsWr (s : State) : Result :=
  onOpenStore s <|
    let b := asU (s.opA 0)
    let t := asU (s.opA 1)
    let i := asU (s.opA 2)
    let v := asF (s.opA 3)
    if s.cfg.nBanks ≤ b ∨ s.ntabAt b = 0 then .next (s.faultEntry .wtsRange (encode .wtsWr))
    else if s.ntabAt b ≤ t then .next (s.faultEntry .wtsRange (encode .wtsWr))
    else if s.cfg.tableLen ≤ i then .next (s.faultEntry .wtsRange (encode .wtsWr))
    else if isFinite v = false then .next (s.faultEntry .wtsRange (encode .wtsWr))
    else .next (s.setCell b t i v)

/-- `WTS.SEAL` (R136): a complete store is sealed and the mode becomes RUN; an incomplete one faults. -/
def execWtsSeal (s : State) : Result :=
  onOpenStore s <|
    if s.storeComplete then .next { s with mode := .run }
    else .next (s.faultEntry .wtsIncomplete (encode .wtsSeal))

end Sys2Proof.Machine
end

