-- ==== Sys2Proof/Machine/Dispatch.lean ====
section
/-! DEFINITION. What each command does: one arm per constructor of Instr (30_encoding.md R86 step 5). -/

namespace Sys2Proof.Machine

def exec (i : Instr) (s : State) : Host.Outcome State Fault Refusal :=
  match i with
  | .sysNop => Sys2Proof.Machine.execSysNop s
  | .sysReset => Sys2Proof.Machine.execSysReset s
  | .wtsBank => Sys2Proof.Machine.execWtsBank s
  | .wtsWr => Sys2Proof.Machine.execWtsWr s
  | .wtsSeal => Sys2Proof.Machine.execWtsSeal s
  | .envInit j => Sys2Proof.Machine.execEnvInit j s
  | .envSetp j => Sys2Proof.Machine.execEnvSetp j s
  | .envProc j => Sys2Proof.Machine.execEnvProc j s
  | .envStat j => Sys2Proof.Machine.execEnvStat j s
  | .oscInit j => Sys2Proof.Machine.execOscInit j s
  | .oscSetf j => Sys2Proof.Machine.execOscSetf j s
  | .oscSetm j => Sys2Proof.Machine.execOscSetm j s
  | .oscProc j => Sys2Proof.Machine.execOscProc j s
  | .bqInit j => Sys2Proof.Machine.execBqInit j s
  | .bqSetc j => Sys2Proof.Machine.execBqSetc j s
  | .bqLp j => Sys2Proof.Machine.execBqLp j s
  | .bqAp j => Sys2Proof.Machine.execBqAp j s
  | .bqProc j => Sys2Proof.Machine.execBqProc j s
  | .dlInit j => Sys2Proof.Machine.execDlInit j s
  | .dlSet j => Sys2Proof.Machine.execDlSet j s
  | .dlProc j => Sys2Proof.Machine.execDlProc j s
  | .rvbInit j => Sys2Proof.Machine.execRvbInit j s
  | .rvbUpd j => Sys2Proof.Machine.execRvbUpd j s
  | .rvbProc j => Sys2Proof.Machine.execRvbProc j s
  | .drvInit j => Sys2Proof.Machine.execDrvInit j s
  | .drvProc j => Sys2Proof.Machine.execDrvProc j s
  | .spaInit => Sys2Proof.Machine.execSpaInit s
  | .spaProc => Sys2Proof.Machine.execSpaProc s

end Sys2Proof.Machine
end

