-- ==== Sys2Proof/Machine/Port.lean ====
section
/-! DEFINITION. The host port (20_memory.md R60 to R68): the register map, reads, writes, the handling of a
command word (30_encoding.md R86), the reader's operation (60_exceptions.md R320) and power-on reset
(70_reset_and_hazards.md R330). Everything `step` does beside taking the next event stands here. -/

namespace Sys2Proof.Machine

/-- What stands at a word offset (R61). -/
inductive PortReg where
  | cmd
  | status
  | fault
  | faultInfo
  | diag
  | spaSeq
  /-- `A0`..`A4` -/
  | a (k : Nat)
  /-- `R0`, `R1` -/
  | r (k : Nat)
  /-- capability register k of R28's sixteen -/
  | cap (k : Nat)
  /-- `SPA_IN[i]` (R63) -/
  | spaIn (i : Nat)
  /-- `BINS[k]` (R64) -/
  | bin (k : Nat)
  /-- a reserved offset inside 0x0000 to 0x2FFF (R65) -/
  | reserved
  /-- above 0x2FFF: outside the block (R65) -/
  | outside
  deriving DecidableEq, Repr

/-- The register map (R61); the windows are as long as the configuration says (R63, R64). -/
def portAt (c : Config) (off : Nat) : PortReg :=
  if off = 0x0000 then .cmd
  else if off = 0x0001 then .status
  else if off = 0x0002 then .fault
  else if off = 0x0003 then .faultInfo
  else if off = 0x0004 then .diag
  else if off = 0x0005 then .spaSeq
  else if 0x0008 ≤ off ∧ off ≤ 0x000C then .a (off - 0x0008)
  else if 0x0010 ≤ off ∧ off ≤ 0x0011 then .r (off - 0x0010)
  else if 0x0020 ≤ off ∧ off ≤ 0x002F then .cap (off - 0x0020)
  else if 0x1000 ≤ off ∧ off ≤ 0x1FFF then
    (if off - 0x1000 < c.spaBlkMax then .spaIn (off - 0x1000) else .reserved)
  else if 0x2000 ≤ off ∧ off ≤ 0x2FFF then
    (if off - 0x2000 < c.nbins then .bin (off - 0x2000) else .reserved)
  else if off ≤ 0x2FFF then .reserved
  else .outside

/-- `RegRead(off)`, with no side effect (R61, R67); `none` outside the block (R65). `CMD` and reserved
offsets read 0. -/
def regRead (s : State) (off : Nat) : Option Word :=
  match portAt s.cfg off with
  | .cmd => some 0#32
  | .status => some s.status
  | .fault => some s.fault.code
  | .faultInfo => some s.faultInfo
  | .diag => some (s.diag.setWidth 32)
  | .spaSeq => some s.spaSeq
  | .a k => some (s.opA k)
  | .r k => some (if k = 0 then s.r0 else s.r1)
  | .cap k => some (s.cfg.capWord k)
  | .spaIn i => some (s.spaInAt i)
  | .bin k => some (s.bins.getD k 0#32)
  | .reserved => some 0#32
  | .outside => none

/-- `A[k] <- w` by the host (R21). -/
def State.setA (s : State) (k : Nat) (w : Word) : State :=
  match k with
  | 0 => { s with a0 := w }
  | 1 => { s with a1 := w }
  | 2 => { s with a2 := w }
  | 3 => { s with a3 := w }
  | _ => { s with a4 := w }

/-- A write to `DIAG`: each bit written as 1 is cleared, the others are kept; bits [31:9] are ignored (R26). -/
def State.clearDiag (s : State) (w : Word) : State := { s with diag := s.diag &&& ~~~ (w.setWidth 9) }

/-- `MemWrite(SPA_IN, i, w)` by the host, in every mode (R63). -/
def State.setSpaIn (s : State) (i : Nat) (w : Word) : State :=
  { s with spaIn := Memory.write zeroBlank s.spaIn i w }

/-- A write of word `c` to `CMD` (R86): in FAULTED mode `SYS.RESET` alone acts; otherwise an illegal word
is ignored with `ILLEGAL` (R90) and a command runs. -/
def cmdWrite (s : State) (c : Word) : Result :=
  match s.mode with
  | .faulted => if c = 0x01000000#32 then exec .sysReset s else .next s
  | .config => match decode c with
    | .ok i => exec i s
    | .error _ => .next (s.ignored .illegal)
  | .run => match decode c with
    | .ok i => exec i s
    | .error _ => .next (s.ignored .illegal)

/-- `RegWrite(off, w)` (R61): the writable registers and the `SPA_IN` window take the word, `CMD` runs a
command, every other offset inside the block ignores it, an offset outside is refused (R65). -/
def regWrite (s : State) (off : Nat) (w : Word) : Result :=
  match portAt s.cfg off with
  | .cmd => cmdWrite { s with draw := s.draw + 1 } w
  | .diag => .next (s.clearDiag w)
  | .a k => .next (s.setA k w)
  | .spaIn i => .next (s.setSpaIn i w)
  | .status => .next s
  | .fault => .next s
  | .faultInfo => .next s
  | .spaSeq => .next s
  | .r _ => .next s
  | .cap _ => .next s
  | .bin _ => .next s
  | .reserved => .next s
  | .outside => .refused (.outsideBlock off)

/-- One event, performed to completion (R68): a read returns its word to the host, a write acts, the
reader's operation returns the pair as it stands, power-on resets. -/
def performEvent (e : Event) (s : State) : Result :=
  match e with
  | .read off =>
    match regRead s off with
    | some w => .next { s with hostSaw := w :: s.hostSaw }
    | none => .refused (.outsideBlock off)
  | .write off w => regWrite s off w
  | .snapshot => .next (s.snapshots 1)
  | .powerOn => .next s.doReset

/-- The next event of the port, under a configuration that is an ST2 (R6); with no event the block holds
its state and does nothing (R314, R322). -/
def takeEvent (s : State) : Result :=
  match s.port with
  | [] => if s.cfg.ok then .next s else .refused .notAnST2
  | e :: rest => if s.cfg.ok then performEvent e { s with port := rest } else .refused .notAnST2

/-- The command word `w` as the very next write to `CMD`. -/
def queueCommand (s : State) (w : Word) : State := { s with port := .write 0x0000 w :: s.port }

end Sys2Proof.Machine
end

