-- ==== Sys2Proof/Machine/Step.lean ====
section
/-! DEFINITION. One step of ST2: the next host-port access, reader operation or power-on reset, performed to
completion (20_memory.md R68). ST2 has no program counter and fetches nothing (10_state.md R23): a command
comes to run because the host writes its word to `CMD` (30_encoding.md R80). -/

namespace Sys2Proof.Machine

/-- One step. -/
def step (s : State) : Host.Outcome State Fault Refusal := takeEvent s

/-- `s` with the command word `w` as the next event, a write to `CMD`, so that the very next step runs it.
A word of more than 32 bits is no command word of ST2 and is cut to 32. -/
def State.withFetchWord (s : State) (_nbits w : Nat) : State := queueCommand s (BitVec.ofNat 32 w)

end Sys2Proof.Machine
end

