-- ==== Sys2Proof/Machine/Stream.lean ====
section
/-! DEFINITION. The command-stream notation (30_encoding.md R93) and its pseudo-instructions (R94) as data:
each line expands to the host-port accesses it stands for, in order. No line has an encoding of its own. -/

namespace Sys2Proof.Machine

/-- The registers and windows a line can name, by R61's names. -/
inductive RegName where
  | cmd
  | status
  | fault
  | faultInfo
  | diag
  | spaSeq
  | a (k : Nat)
  | r (k : Nat)
  | cap (k : Nat)
  | spaIn (i : Nat)
  | bins (k : Nat)
  deriving DecidableEq, Repr

/-- The word offset of a name (R61). -/
def RegName.offset (n : RegName) : Nat :=
  match n with
  | .cmd => 0x0000
  | .status => 0x0001
  | .fault => 0x0002
  | .faultInfo => 0x0003
  | .diag => 0x0004
  | .spaSeq => 0x0005
  | .a k => 0x0008 + k
  | .r k => 0x0010 + k
  | .cap k => 0x0020 + k
  | .spaIn i => 0x1000 + i
  | .bins k => 0x2000 + k

/-- A line of a command stream (R93, R94). -/
inductive Line where
  /-- `WR reg, value` -/
  | wr (reg : RegName) (w : Word)
  /-- `RD reg` -/
  | rd (reg : RegName)
  /-- `UNIT.FN j` -/
  | cmd (i : Instr)
  /-- `UNIT.FN j, v0, ..., vk` (k ≤ 4) -/
  | op (i : Instr) (vs : List Word)
  /-- `BQ.IDENT j` -/
  | bqIdent (j : Nat)
  /-- `DIAG.CLR` -/
  | diagClr
  /-- `WTS.TABLE b, t, v0, ...` -/
  | wtsTable (b t : Nat) (vs : List Word)
  deriving DecidableEq, Repr

/-- The operand writes of the operand form, from `A[k]` on (R94). -/
def operandWrites (k : Nat) (vs : List Word) : List Event :=
  match vs with
  | [] => []
  | v :: rest => .write (RegName.a k).offset v :: operandWrites (k + 1) rest

/-- The operand form: the operands in order, then the command word (R94). -/
def opLine (i : Instr) (vs : List Word) : List Event :=
  operandWrites 0 vs ++ [.write RegName.cmd.offset (encode i)]

/-- The cell writes of `WTS.TABLE` from index `i` on (R94). -/
def tableWrites (b t i : Nat) (vs : List Word) : List Event :=
  match vs with
  | [] => []
  | v :: rest => opLine .wtsWr [bitsU b, bitsU t, bitsU i, v] ++ tableWrites b t (i + 1) rest

/-- The accesses a line stands for (R93, R94). -/
def Line.events (l : Line) : List Event :=
  match l with
  | .wr reg w => [.write reg.offset w]
  | .rd reg => [.read reg.offset]
  | .cmd i => [.write RegName.cmd.offset (encode i)]
  | .op i vs => opLine i vs
  | .bqIdent j => opLine (.bqSetc j) [fOne, fZero, fZero, fZero, fZero]
  | .diagClr => [.write RegName.diag.offset 0xFFFFFFFF#32]
  | .wtsTable b t vs => tableWrites b t 0 vs

/-- The accesses of a command stream, run top to bottom (R93). -/
def streamEvents (ls : List Line) : List Event := ls.flatMap Line.events

end Sys2Proof.Machine
end

