-- ==== Sys2Proof/Safety.lean ====
section
/-! DEFINITION. What claims about runs are stated in terms of: the invariant of the state (the ranges and
relations 10_state.md and 40_numerics.md R111 give every field), and what a successful run is
(60_exceptions.md R322). -/

namespace Sys2Proof

open Machine

/-- A delay line of capacity `cap` in its ranges (R34, R111): canonical buffer inside the capacity, write
index below it. -/
def DelayLineOk (cap : Nat) (L : DelayLine Word) : Prop :=
  Memory.wf zeroBlank L.buf = true ∧ Memory.below cap L.buf = true ∧ L.w < cap

/-- A word in [0, 1] as a morph position is (R31). -/
def InUnit (w : Word) : Prop := fle fZero w = true ∧ fle w fOne = true

/-- The invariant of the block: every field in the range its rule gives it, and the relations the rules
keep between fields. States that no run reaches may break it. -/
structure BlockInv (s : State) : Prop where
  /-- The configuration is an ST2 (R6). -/
  cfg_ok : s.cfg.ok = true
  /-- One table count per bank, 0 or 2..NT_MAX (R30, R136). -/
  ntab_length : s.ntab.length = s.cfg.nBanks
  ntab_range : ∀ n ∈ s.ntab, n = 0 ∨ (2 ≤ n ∧ n ≤ s.cfg.ntMax)
  /-- The store is canonical and its values finite (R135, R136). -/
  store_wf : Memory.wf storeBlank s.wt = true
  store_finite : ∀ c ∈ s.wt, isFinite c.2 = true
  /-- The instance arrays have their counts (R20). -/
  osc_length : s.osc.length = s.cfg.nOsc
  env_length : s.env.length = s.cfg.nEnv
  bq_length : s.bq.length = s.cfg.nBq
  dl_length : s.dl.length = s.cfg.nDl
  rvb_length : s.rvb.length = s.cfg.nRvb
  drv_length : s.drv.length = s.cfg.nDrv
  /-- An oscillator names a bank, its morph position lies in [0, 1], and in CONFIG mode none is valid
  (R31, R173). -/
  osc_bank : ∀ o ∈ s.osc, o.bank < s.cfg.nBanks
  osc_morph : ∀ o ∈ s.osc, InUnit o.morph
  osc_config : s.mode = .config → ∀ o ∈ s.osc, o.valid = false
  /-- Delay lines in their ranges (R34, R35, R36). -/
  dl_ok : ∀ L ∈ s.dl, DelayLineOk s.cfg.dlCap L
  rvb_ok : ∀ V ∈ s.rvb, ∀ c g, DelayLineOk s.cfg.rvbDlCap (V.line c g)
  drv_ok : ∀ D ∈ s.drv, DelayLineOk s.cfg.drvDlCap D.dl
  /-- A drive's delay and feedback never change (R36). -/
  drv_fixed : ∀ D ∈ s.drv, D.dl.delay = BitVec.ofNat 32 s.cfg.drvDelay ∧ D.dl.fb = fZero
  /-- The analyzer in its ranges (R37, R38, R39). -/
  hist_length : s.spa.hist.length = s.cfg.spaWin
  hcnt_range : s.spa.hcnt < s.cfg.spaHop
  spaIn_wf : Memory.wf zeroBlank s.spaIn = true
  spaIn_below : Memory.below s.cfg.spaBlkMax s.spaIn = true
  bins_length : s.bins.length = s.cfg.nbins
  /-- `FAULT` tells FAULTED mode, and `FAULTINFO` is 0 outside it (R25, R322). -/
  fault_iff : s.mode = .faulted ↔ s.fault ≠ .none
  faultInfo_zero : s.mode ≠ .faulted → s.faultInfo = 0#32
  /-- In RUN mode the store is complete (R30, R136). -/
  sealed : s.mode = .run → s.storeComplete = true

/-- `t` follows from `s` in `n` steps that all answer a next state (R322). -/
inductive Reaches : Nat → State → State → Prop where
  | refl (s : State) : Reaches 0 s s
  | step {n : Nat} {s u t : State} : step s = .next u → Reaches n u t → Reaches (n + 1) s t

/-- A run that was meant to succeed did: no fault at its end (R322). -/
def Succeeded (t : State) : Prop := t.mode ≠ .faulted

/-- No command of the run was ignored and no operand replaced (R322). -/
def Unremarked (t : State) : Prop := t.diag = 0#9

/-! The words of the rules, in which claims are stated. -/

/-- The instance a command names and the number of instances its unit has (R83); `none` for the commands
that take no instance. -/
def instanceOf (c : Config) (i : Instr) : Option (Nat × Nat) :=
  match i with
  | .sysNop => none
  | .sysReset => none
  | .wtsBank => none
  | .wtsWr => none
  | .wtsSeal => none
  | .envInit j => some (j, c.nEnv)
  | .envSetp j => some (j, c.nEnv)
  | .envProc j => some (j, c.nEnv)
  | .envStat j => some (j, c.nEnv)
  | .oscInit j => some (j, c.nOsc)
  | .oscSetf j => some (j, c.nOsc)
  | .oscSetm j => some (j, c.nOsc)
  | .oscProc j => some (j, c.nOsc)
  | .bqInit j => some (j, c.nBq)
  | .bqSetc j => some (j, c.nBq)
  | .bqLp j => some (j, c.nBq)
  | .bqAp j => some (j, c.nBq)
  | .bqProc j => some (j, c.nBq)
  | .dlInit j => some (j, c.nDl)
  | .dlSet j => some (j, c.nDl)
  | .dlProc j => some (j, c.nDl)
  | .rvbInit j => some (j, c.nRvb)
  | .rvbUpd j => some (j, c.nRvb)
  | .rvbProc j => some (j, c.nRvb)
  | .drvInit j => some (j, c.nDrv)
  | .drvProc j => some (j, c.nDrv)
  | .spaInit => none
  | .spaProc => none

/-- A word to be written to `CMD` (R80), as the next event of the port. -/
def Commanded (s : State) (c : Word) (rest : List Event) : Prop :=
  s.cfg.ok = true ∧ s.port = Event.write 0x0000 c :: rest

/-- The state in which the command itself runs: the write taken from the port and the next NaN draw
(log 2). -/
def accepted (s : State) (rest : List Event) : State := { s with port := rest, draw := s.draw + 1 }

/-- A command runs: the block is not FAULTED (R86 step 1). -/
def Ready (s : State) : Prop := s.mode ≠ .faulted

/-- R301's table: the condition under which a command raises a fault of a cause. Indexes out of range are
met before it (R306). -/
def FaultCondition (s : State) (i : Instr) (cause : Cause) : Prop :=
  match cause with
  | .none => False
  | .wtsRange =>
    s.mode = .config ∧
    ((i = .wtsBank ∧
        (s.cfg.nBanks ≤ asU s.a0 ∨ asU s.a1 < 2 ∨ s.cfg.ntMax < asU s.a1 ∨ s.ntabAt (asU s.a0) ≠ 0)) ∨
     (i = .wtsWr ∧
        (s.cfg.nBanks ≤ asU s.a0 ∨ s.ntabAt (asU s.a0) = 0 ∨ s.ntabAt (asU s.a0) ≤ asU s.a1 ∨
         s.cfg.tableLen ≤ asU s.a2 ∨ isNaN s.a3 = true ∨ isInf s.a3 = true)))
  | .wtsIncomplete =>
    s.mode = .config ∧ i = .wtsSeal ∧
    ∃ b, b < s.cfg.nBanks ∧
      (s.ntabAt b = 0 ∨ ∃ t k, t < s.ntabAt b ∧ k < s.cfg.tableLen ∧ s.cell b t k = none)
  | .wtsMissing => s.mode = .config ∧ ∃ j, j < s.cfg.nOsc ∧ i = .oscInit j
  | .cfgBank => s.mode = .run ∧ ∃ j, j < s.cfg.nOsc ∧ i = .oscInit j ∧ s.cfg.nBanks ≤ asU s.a1

/-- `w` is the rational `p / q` (in units of 2^−149) rounded once to binary32, to nearest with ties to the
even encoding (R101), to an infinity from half a unit above the largest finite value on (IEEE 754's threshold,
log 19). -/
def Rounds (p : Int) (q : Nat) (w : Word) : Prop :=
  isNaN w = false ∧
  (isInf w = true ↔ ((2 ^ 25 - 1) * 2 ^ 252 * q : Nat) ≤ p.natAbs) ∧
  (p ≠ 0 → signBit w = decide (p < 0)) ∧
  (isFinite w = true → ∀ v : Word, isFinite v = true → units v ≠ units w →
    (units w * q - p).natAbs < (units v * q - p).natAbs ∨
    ((units w * q - p).natAbs = (units v * q - p).natAbs ∧ magBits w % 2 = 0))

/-- The host gives a one-operand command its inputs one after the other, each written to `A0` before the
command word (R94): the pairs (`R0`, `R1`) read after each, and the state at the end; `none` if the model
stops. -/
def feed (i : Instr) (xs : List Word) (s : State) : Option (List (Word × Word) × State) :=
  match xs with
  | [] => some ([], s)
  | x :: rest =>
    match performEvent (.write 0x0008 x) s with
    | .next u =>
      match performEvent (.write 0x0000 (encode i)) u with
      | .next t =>
        match feed i rest t with
        | some (ys, v) => some ((t.r0, t.r1) :: ys, v)
        | none => none
      | .fault _ => none
      | .refused _ => none
    | .fault _ => none
    | .refused _ => none

/-- The two channels of a reverb network hold equal states, stage by stage (R230). -/
def Mirrored (V : Reverb Word) : Prop :=
  ∀ g, V.line .left g = V.line .right g ∧ V.allpass .left g = V.allpass .right g

/-- The samples `SPA.PROC` is to take: the first `m` words of `SPA_IN` (R253). -/
def inputBlock (s : State) (m : Nat) : List Word := (List.range m).map s.spaInAt

/-- The last `n` elements of a list. -/
def lastOf (n : Nat) (xs : List Word) : List Word := xs.drop (xs.length - n)

/-- The events that reset the block: power-on and `SYS.RESET` (R330). -/
def isReset (e : Event) : Bool :=
  decide (e = .powerOn ∨ e = .write 0x0000 0x01000000#32)

/-! The exact reading (40_numerics.md R110), for claims only: every `F` value a real number, every operation
exact, tanh, sin and cos the mathematical functions, `f2i` truncation. It is the record of operations that
the units' formulas take, at the carrier ℝ; nothing in the machine uses it, and a claim in it says nothing of
binary32 results (log 16). -/

/-- The real number a finite word encodes. An infinite or NaN word has none; it is read as if its exponent were
that of a finite word (log 22, DESIGN CHOICE). -/
noncomputable def exactValue (w : Word) : ℝ := (units w : ℝ) / 2 ^ 149

/-- `mag[k]` of R256: the discrete Fourier transform of the windowed history followed by zeros, its magnitude
times 1/F. -/
noncomputable def exactMag (c : Config) (hist : List ℝ) (k : Nat) : ℝ :=
  let x : Nat → ℝ := fun n => if n < c.spaWin then hist.getD n 0 * exactValue (c.spaWinFn.getD n 0) else 0
  let angle : Nat → ℝ := fun n => 2 * Real.pi * k * n / c.spaFft
  Real.sqrt ((∑ n ∈ Finset.range c.spaFft, x n * Real.cos (angle n)) ^ 2 +
    (∑ n ∈ Finset.range c.spaFft, x n * Real.sin (angle n)) ^ 2) * (1 / c.spaFft)

open Classical in
/-- The exact reading (R110). R110 does not say what a quotient by zero, a remainder by zero or the root of a
negative number is in it. DESIGN CHOICE: `a/0` is 0, the remainder of `a` by 0 is `a` and the root of a
negative number is 0, the values Lean's total operations on ℝ take (log 22). -/
noncomputable def exactReading : Arith ℝ where
  zero := 0
  half := 1 / 2
  one := 1
  two := 2
  negTwo := -2
  twoPi := 2 * Real.pi
  add := (· + ·)
  sub := (· - ·)
  mul := (· * ·)
  div := (· / ·)
  sqrt := Real.sqrt
  rem := fun a b => a - b * (if 0 ≤ a / b then ⌊a / b⌋ else ⌈a / b⌉ : ℤ)
  lt := fun a b => decide (a < b)
  le := fun a b => decide (a ≤ b)
  toInt := fun a => if 0 ≤ a then ⌊a⌋ else ⌈a⌉
  ofInt := fun n => (n : ℝ)
  tanh := Real.tanh
  sin := Real.sin
  cos := Real.cos
  dftmag := fun c hist => (List.range c.nbins).map (exactMag c hist)
  ofWord := exactValue

end Sys2Proof
end

