-- ==== Sys2Proof/Certificates/Slice0/Obligations.lean ====
section
/-! DEFINITION. The statements about ST2, one definition each. They quantify over every configuration and
every state; where the rules keep a relation between fields that an arbitrary state may break, the invariant
`BlockInv` is a premise, and that every step keeps it is a statement of its own. Where a statement says
`accepted`, the command runs with the model's draw counter one higher (log 2); `port`, `hostSaw`, `midSnaps`
and `readerSaw` are the model's own fields (logs 4 and 5). -/

section

open Sys2Proof Sys2Proof.Machine

/-! Encoding and the port. -/

/-- R80, R82, R83: a word decodes to a command exactly when the command is well-formed and the word is its
encoding, so no bit is dropped and no two words spell one command. -/
def Obligations.DecodeInvertsEncode : Prop :=
  ∀ (c : Word) (i : Instr), decode c = .ok i ↔ (i.wellFormed = true ∧ encode i = c)

/-- R82: words written out from the opcode map, at least one for each unit. -/
def Obligations.OpcodeMapWords : Prop :=
  decode 0x00000000#32 = .ok .sysNop ∧ decode 0x01000000#32 = .ok .sysReset ∧
  decode 0x11000000#32 = .ok .wtsWr ∧ decode 0x12000000#32 = .ok .wtsSeal ∧
  decode 0x22000001#32 = .ok (.envProc 1) ∧ decode 0x2300FFFF#32 = .ok (.envStat 65535) ∧
  decode 0x33000003#32 = .ok (.oscProc 3) ∧ decode 0x43000100#32 = .ok (.bqAp 256) ∧
  decode 0x51000000#32 = .ok (.dlSet 0) ∧ decode 0x61000002#32 = .ok (.rvbUpd 2) ∧
  decode 0x71000000#32 = .ok (.drvProc 0) ∧ decode 0x81000000#32 = .ok .spaProc

/-- R90: the illegal words are exactly the words with an opcode outside the map, a non-zero RSV, or a
non-zero IDX on a command without instances; outside FAULTED mode such a word sets `ILLEGAL`, zeroes the
results and does nothing else. -/
def Obligations.IllegalWordsIgnored : Prop :=
  ∀ (s : State) (c : Word) (rest : List Event), Commanded s c rest → Ready s →
    (c.toNat / 2 ^ 24 ∉ [0x00, 0x01, 0x10, 0x11, 0x12, 0x20, 0x21, 0x22, 0x23, 0x30, 0x31, 0x32, 0x33,
        0x40, 0x41, 0x42, 0x43, 0x44, 0x50, 0x51, 0x52, 0x60, 0x61, 0x62, 0x70, 0x71, 0x80, 0x81] ∨
      c.toNat / 2 ^ 16 % 2 ^ 8 ≠ 0 ∨
      (c.toNat / 2 ^ 24 ∈ [0x00, 0x01, 0x10, 0x11, 0x12, 0x80, 0x81] ∧ c.toNat % 2 ^ 16 ≠ 0)) →
    step s = .next { accepted s rest with diag := s.diag ||| 0x001#9, r0 := 0#32, r1 := 0#32 }

/-- R86: a step whose next event writes a legal command word to `CMD` is that command's execution, on the
state from which the write has been taken and with the next NaN draw (log 2); `withFetchWord` places such
a write. In FAULTED mode it holds of `SYS.RESET` alone. -/
def Obligations.StepRunsDecodedCommand : Prop :=
  (∀ (s : State) (c : Word) (rest : List Event) (i : Instr), Commanded s c rest → decode c = .ok i →
    Ready s ∨ i = .sysReset → step s = exec i (accepted s rest)) ∧
  (∀ (s : State) (w : Nat) (i : Instr), s.cfg.ok = true → w < 2 ^ 32 →
    decodeTableWord 32 w = some i → Ready s ∨ i = .sysReset →
    step (s.withFetchWord 32 w) = exec i { s with draw := s.draw + 1 })

/-- R86 step 1, R304: in FAULTED mode every word written to `CMD` but `SYS.RESET` changes no state of the
block. -/
def Obligations.FaultedModeDiscards : Prop :=
  ∀ (s : State) (c : Word) (rest : List Event), Commanded s c rest → s.mode = .faulted →
    c ≠ 0x01000000#32 → step s = .next (accepted s rest)

/-- R308, R309: the four class (b) violations, each ignored with its own bit, zero results and nothing
else. -/
def Obligations.ViolationsIgnored : Prop :=
  ∀ (s : State), Ready s →
    (∀ c rest r, Commanded s c rest → decode c = .error r →
      step s = .next { accepted s rest with diag := s.diag ||| 0x001#9, r0 := 0#32, r1 := 0#32 }) ∧
    (∀ i j n, instanceOf s.cfg i = some (j, n) → n ≤ j →
      exec i s = .next { s with diag := s.diag ||| 0x002#9, r0 := 0#32, r1 := 0#32 }) ∧
    (∀ i j, i = .oscSetf j ∨ i = .oscSetm j ∨ i = .oscProc j → j < s.cfg.nOsc →
      (s.oscAt j).valid = false →
      exec i s = .next { s with diag := s.diag ||| 0x004#9, r0 := 0#32, r1 := 0#32 }) ∧
    (∀ i, i = .wtsBank ∨ i = .wtsWr ∨ i = .wtsSeal → s.mode = .run →
      exec i s = .next { s with diag := s.diag ||| 0x008#9, r0 := 0#32, r1 := 0#32 })

/-- R61, R27, R28, R64, R65, R67: what a read of each offset returns, with no side effect on the block. R28
does not say what a parameter of 2^32 or above shows (R5 bounds `SPA_WIN` and `SPA_FFT` only below): that the
word is the parameter modulo 2^32 (`bitsU`) is the model's choice (log 13). -/
def Obligations.RegisterMapReads : Prop :=
  ∀ (s : State) (rest : List Event) (off : Nat) (w : Word), s.cfg.ok = true →
    s.port = .read off :: rest →
    ((off = 0x0000 ∧ w = 0#32) ∨
     (off = 0x0001 ∧ w = s.mode.code + (if s.diag = 0#9 then 0#32 else 4#32)) ∨
     (off = 0x0002 ∧ w = s.fault.code) ∨ (off = 0x0003 ∧ w = s.faultInfo) ∨
     (off = 0x0004 ∧ w = s.diag.setWidth 32) ∨ (off = 0x0005 ∧ w = s.spaSeq) ∨
     (off = 0x0008 ∧ w = s.a0) ∨ (off = 0x0009 ∧ w = s.a1) ∨ (off = 0x000A ∧ w = s.a2) ∨
     (off = 0x000B ∧ w = s.a3) ∨ (off = 0x000C ∧ w = s.a4) ∨
     (off = 0x0010 ∧ w = s.r0) ∨ (off = 0x0011 ∧ w = s.r1) ∨
     (off = 0x0020 ∧ w = s.cfg.fs) ∨ (off = 0x0021 ∧ w = bitsU s.cfg.tableLen) ∨
     (off = 0x0022 ∧ w = bitsU s.cfg.nBanks) ∨ (off = 0x0023 ∧ w = bitsU s.cfg.ntMax) ∨
     (off = 0x0024 ∧ w = bitsU s.cfg.nOsc) ∨ (off = 0x0025 ∧ w = bitsU s.cfg.nEnv) ∨
     (off = 0x0026 ∧ w = bitsU s.cfg.nBq) ∨ (off = 0x0027 ∧ w = bitsU s.cfg.nDl) ∨
     (off = 0x0028 ∧ w = bitsU s.cfg.nRvb) ∨ (off = 0x0029 ∧ w = bitsU s.cfg.nDrv) ∨
     (off = 0x002A ∧ w = bitsU s.cfg.dlCap) ∨ (off = 0x002B ∧ w = bitsU s.cfg.rvbDlCap) ∨
     (off = 0x002C ∧ w = bitsU s.cfg.spaWin) ∨ (off = 0x002D ∧ w = bitsU s.cfg.spaFft) ∨
     (off = 0x002E ∧ w = bitsU s.cfg.spaBlkMax) ∨ (off = 0x002F ∧ w = bitsU s.cfg.nbins) ∨
     (∃ i, i < s.cfg.spaBlkMax ∧ off = 0x1000 + i ∧ w = s.spaInAt i) ∨
     (∃ k, k < s.cfg.nbins ∧ off = 0x2000 + k ∧ w = s.bins.getD k 0#32) ∨
     ((off = 0x0006 ∨ off = 0x0007 ∨ (0x000D ≤ off ∧ off ≤ 0x000F) ∨ (0x0012 ≤ off ∧ off ≤ 0x001F) ∨
        (0x0030 ≤ off ∧ off ≤ 0x0FFF) ∨ (0x1000 + s.cfg.spaBlkMax ≤ off ∧ off ≤ 0x1FFF) ∨
        (0x2000 + s.cfg.nbins ≤ off ∧ off ≤ 0x2FFF)) ∧ w = 0#32)) →
    step s = .next { s with port := rest, hostSaw := w :: s.hostSaw }

/-- R21, R61, R65: a write to an operand register stores the word and nothing else, in every mode; a write
to a read-only or reserved offset is ignored; an access above 0x2FFF is refused. -/
def Obligations.RegisterMapWrites : Prop :=
  ∀ (s : State) (rest : List Event) (off : Nat) (w : Word), s.cfg.ok = true →
    (s.port = .write off w :: rest →
      (off = 0x0008 → step s = .next { s with port := rest, a0 := w }) ∧
      (off = 0x0009 → step s = .next { s with port := rest, a1 := w }) ∧
      (off = 0x000A → step s = .next { s with port := rest, a2 := w }) ∧
      (off = 0x000B → step s = .next { s with port := rest, a3 := w }) ∧
      (off = 0x000C → step s = .next { s with port := rest, a4 := w }) ∧
      (off = 0x0001 ∨ off = 0x0002 ∨ off = 0x0003 ∨ (0x0005 ≤ off ∧ off ≤ 0x0007) ∨
        (0x000D ≤ off ∧ off ≤ 0x0FFF) ∨ (0x1000 + s.cfg.spaBlkMax ≤ off ∧ off ≤ 0x2FFF) →
        step s = .next { s with port := rest })) ∧
    (0x3000 ≤ off → s.port = .write off w :: rest ∨ s.port = .read off :: rest →
      step s = .refused (.outsideBlock off))

/-- R26: a write to `DIAG` clears the bits written as 1, keeps the bits written as 0 and touches nothing
else; no bit is set by it. -/
def Obligations.DiagWriteOneToClear : Prop :=
  ∀ (s : State) (rest : List Event) (w : Word), s.cfg.ok = true → s.port = .write 0x0004 w :: rest →
    ∃ t, step s = .next t ∧ t = { s with port := rest, diag := t.diag } ∧
      ∀ k, k < 9 → t.diag.getLsbD k = (s.diag.getLsbD k && !w.getLsbD k)

/-- R63: the `SPA_IN` window, in every mode: a write stores the word in its place and in no other, a read
returns what is stored, and an offset of the window past the buffer is reserved. -/
def Obligations.SpaInWindow : Prop :=
  ∀ (s : State) (rest : List Event) (i : Nat) (w : Word), s.cfg.ok = true →
    Memory.wf zeroBlank s.spaIn = true → i ≤ 0xFFF →
    (i < s.cfg.spaBlkMax → s.port = .write (0x1000 + i) w :: rest →
      ∃ t, step s = .next t ∧ t = { s with port := rest, spaIn := t.spaIn } ∧
        ∀ k, t.spaInAt k = if k = i then w else s.spaInAt k) ∧
    (i < s.cfg.spaBlkMax → s.port = .read (0x1000 + i) :: rest →
      step s = .next { s with port := rest, hostSaw := s.spaInAt i :: s.hostSaw }) ∧
    (s.cfg.spaBlkMax ≤ i → s.port = .write (0x1000 + i) w :: rest →
      step s = .next { s with port := rest }) ∧
    (s.cfg.spaBlkMax ≤ i → s.port = .read (0x1000 + i) :: rest →
      step s = .next { s with port := rest, hostSaw := 0#32 :: s.hostSaw })

/-! Modes, faults, diagnostics, frames. -/

/-- R303: a command that enters FAULTED mode writes the mode, the cause, its own word and zero results, and
nothing else. -/
def Obligations.FaultEntryIsPrecise : Prop :=
  ∀ (s t : State) (c : Word) (rest : List Event), Commanded s c rest → Ready s → step s = .next t →
    t.mode = .faulted →
    ∃ cause, cause ≠ .none ∧
      t = { accepted s rest with
        mode := .faulted, fault := cause, faultInfo := c, r0 := 0#32, r1 := 0#32 }

/-- R301: each cause is raised by the commands and under the conditions of its table and by no other command
and under no other condition, and the value recorded with it is the command word. -/
def Obligations.FaultsExactlyAsTabled : Prop :=
  ∀ (s : State) (i : Instr) (cause : Cause), Ready s →
    (FaultCondition s i cause → ∃ t, exec i s = .next t) ∧
    (∀ t, exec i s = .next t →
      ((t.mode = .faulted ∧ t.fault = cause) ↔ FaultCondition s i cause) ∧
      (t.mode = .faulted → t.faultInfo = encode i))

/-- R300: the transitions between the modes, and that there are no others. -/
def Obligations.ModeTransitions : Prop :=
  ∀ s t : State, step s = .next t →
    t.mode = s.mode ∨
    (t.mode = .config ∧ ∃ e rest, s.port = e :: rest ∧ isReset e = true) ∨
    (s.mode = .config ∧ t.mode = .run ∧ (∃ rest, s.port = .write 0x0000 0x12000000#32 :: rest) ∧
      ∀ b, b < s.cfg.nBanks → s.ntabAt b ≠ 0 ∧
        ∀ k i, k < s.ntabAt b → i < s.cfg.tableLen → s.cell b k i ≠ none) ∨
    (s.mode = .config ∧ t.mode = .faulted ∧
      (t.fault = .wtsRange ∨ t.fault = .wtsIncomplete ∨ t.fault = .wtsMissing)) ∨
    (s.mode = .run ∧ t.mode = .faulted ∧ t.fault = .cfgBank)

/-- R307: no command but reset clears a diagnostic bit. -/
def Obligations.DiagBitsSticky : Prop :=
  ∀ (i : Instr) (s t : State), i ≠ .sysReset → exec i s = .next t →
    ∀ k, s.diag.getLsbD k = true → t.diag.getLsbD k = true

/-- R307, R26: no command reads `DIAG`: with another value of it the same command does the same to
everything else, and sets the same bits. -/
def Obligations.DiagNeverRead : Prop :=
  ∀ (i : Instr) (s t : State) (d : BitVec 9), exec i s = .next t →
    ∃ t', exec i { s with diag := d } = .next t' ∧ t = { t' with diag := t.diag } ∧
      ∀ k, k < 9 → t.diag.getLsbD k = true → s.diag.getLsbD k = true ∨ t'.diag.getLsbD k = true

/-- R21, R22, R38, R81: no command but reset writes an operand register, `SPA_IN` or the configuration;
a command writes `R0`, `R1` only where its rule names them, is ignored or faults. -/
def Obligations.CommandsKeepOperands : Prop :=
  ∀ (i : Instr) (s t : State), i ≠ .sysReset → exec i s = .next t →
    (t.a0 = s.a0 ∧ t.a1 = s.a1 ∧ t.a2 = s.a2 ∧ t.a3 = s.a3 ∧ t.a4 = s.a4) ∧
    t.spaIn = s.spaIn ∧ t.cfg = s.cfg ∧ t.port = s.port ∧ t.hostSaw = s.hostSaw ∧
    ((t.r0 = s.r0 ∧ t.r1 = s.r1) ∨ (∃ b, t = s.ignored b) ∨
      (s.mode ≠ .faulted ∧ t.mode = .faulted ∧ t.r0 = 0#32 ∧ t.r1 = 0#32) ∨
      (∃ j, i = .envProc j ∨ i = .envStat j ∨ i = .rvbProc j) ∨
      ((∃ j, i = .oscProc j ∨ i = .bqProc j ∨ i = .dlProc j ∨ i = .drvProc j) ∧ t.r1 = s.r1))

/-- R60: a command changes the private state of its own unit only; the unit is bits [31:28] of its word
(R80). -/
def Obligations.UnitsArePrivate : Prop :=
  ∀ (i : Instr) (s t : State), i ≠ .sysReset → exec i s = .next t →
    (i.op / 16 ≠ 1 → t.ntab = s.ntab ∧ t.wt = s.wt) ∧
    (i.op / 16 ≠ 2 → t.env = s.env) ∧ (i.op / 16 ≠ 3 → t.osc = s.osc) ∧
    (i.op / 16 ≠ 4 → t.bq = s.bq) ∧ (i.op / 16 ≠ 5 → t.dl = s.dl) ∧
    (i.op / 16 ≠ 6 → t.rvb = s.rvb) ∧ (i.op / 16 ≠ 7 → t.drv = s.drv) ∧
    (i.op / 16 ≠ 8 → t.spa = s.spa ∧ t.bins = s.bins ∧ t.spaSeq = s.spaSeq ∧
      t.readerSaw = s.readerSaw)

/-- R30, R71, R133: once the store is sealed (or a fault has stopped the block), no run without a reset
changes a table count or a cell. -/
def Obligations.SealedStoreImmutable : Prop :=
  ∀ (n : Nat) (s t : State), Reaches n s t → s.mode ≠ .config →
    (∀ e ∈ s.port.take n, isReset e = false) →
    t.ntab = s.ntab ∧ t.wt = s.wt ∧ t.mode ≠ .config

/-! System. -/

/-- R130: `SYS.NOP` is the word 0 and changes nothing, `R0` and `R1` included, in any mode. -/
def Obligations.NopChangesNothing : Prop :=
  encode .sysNop = 0x00000000#32 ∧ ∀ s : State, exec .sysNop s = .next s

/-- R131, R330: `SYS.RESET` and power-on leave the reset state in every mode, FAULTED included; the
configuration, the events to come and what was observed are not the block's state. -/
def Obligations.ResetRestoresEverything : Prop :=
  ∀ (s : State),
    exec .sysReset s = .next { State.resetOf s.cfg with
      draw := s.draw, port := s.port, midSnaps := s.midSnaps,
      hostSaw := s.hostSaw, readerSaw := s.readerSaw } ∧
    (∀ rest, Commanded s 0x01000000#32 rest →
      step s = .next { State.resetOf s.cfg with
        draw := s.draw + 1, port := rest, midSnaps := s.midSnaps,
        hostSaw := s.hostSaw, readerSaw := s.readerSaw }) ∧
    (∀ rest, s.cfg.ok = true → s.port = .powerOn :: rest →
      step s = .next { State.resetOf s.cfg with
        draw := s.draw, port := rest, midSnaps := s.midSnaps,
        hostSaw := s.hostSaw, readerSaw := s.readerSaw })

/-- R331: the reset value of every piece of state. -/
def Obligations.ResetValues : Prop :=
  ∀ c : Config,
    let s := State.resetOf c
    let line : DelayLine Word := { buf := [], w := 0, delay := 0#32, fb := 0#32 }
    let biquad : Biquad Word :=
      { coefs := { b0 := 0x3F800000#32, b1 := 0#32, b2 := 0#32, a1 := 0#32, a2 := 0#32 }
        s1 := 0#32, s2 := 0#32 }
    s.cfg = c ∧
    (s.a0 = 0#32 ∧ s.a1 = 0#32 ∧ s.a2 = 0#32 ∧ s.a3 = 0#32 ∧ s.a4 = 0#32 ∧ s.r0 = 0#32 ∧ s.r1 = 0#32) ∧
    (s.mode = .config ∧ s.fault = .none ∧ s.faultInfo = 0#32 ∧ s.diag = 0#9 ∧ s.spaSeq = 0#32 ∧
      s.status = 0#32) ∧
    (∀ b, s.ntabAt b = 0) ∧ (∀ b t i, s.cell b t i = none) ∧
    (s.osc.length = c.nOsc ∧ s.env.length = c.nEnv ∧ s.bq.length = c.nBq ∧ s.dl.length = c.nDl ∧
      s.rvb.length = c.nRvb ∧ s.drv.length = c.nDrv) ∧
    (∀ o ∈ s.osc, o =
      { valid := false, bank := 0, tps := 0#32, spc := 0#32, scale := 0#32, morph := 0#32 }) ∧
    (∀ e ∈ s.env, e =
      { attack := 0#32, decay := 0#32, sustain := 0#32, release := 0#32, rsa := 0#32,
        finished := false }) ∧
    (∀ b ∈ s.bq, b = biquad) ∧ (∀ L ∈ s.dl, L = line) ∧
    (∀ V ∈ s.rvb, ∀ ch g, V.line ch g = line ∧ V.allpass ch g = biquad) ∧
    (∀ D ∈ s.drv, D.dl = { line with delay := bitsU c.drvDelay }) ∧
    (∀ k, Memory.word line.buf k = 0#32) ∧
    s.spa.hist = List.replicate c.spaWin 0#32 ∧ s.spa.hcnt = 0 ∧ (∀ i, s.spaInAt i = 0#32) ∧
    s.bins = List.replicate c.nbins 0#32

/-- R333: the operand-free INIT commands, and `DL.INIT` with delay 0 and feedback +0.0, complete and give
exactly the reset value of their instance; every other state is kept. -/
def Obligations.InitGivesResetValue : Prop :=
  ∀ (s : State) (j : Nat), Ready s →
    let line : DelayLine Word := { buf := [], w := 0, delay := 0#32, fb := 0#32 }
    let biquad : Biquad Word :=
      { coefs := { b0 := 0x3F800000#32, b1 := 0#32, b2 := 0#32, a1 := 0#32, a2 := 0#32 }
        s1 := 0#32, s2 := 0#32 }
    let lines : PerStage (DelayLine Word) := { s1 := line, s2 := line, s3 := line }
    let biquads : PerStage (Biquad Word) := { s1 := biquad, s2 := biquad, s3 := biquad }
    (j < s.cfg.nEnv → exec (.envInit j) s = .next { s with
        env := s.env.set j
          { attack := 0#32, decay := 0#32, sustain := 0#32, release := 0#32
            rsa := 0#32, finished := false } }) ∧
    (j < s.cfg.nBq → exec (.bqInit j) s = .next { s with bq := s.bq.set j biquad }) ∧
    (j < s.cfg.nRvb → exec (.rvbInit j) s = .next { s with
        rvb := s.rvb.set j
          { dl := { left := lines, right := lines }, ap := { left := biquads, right := biquads } } }) ∧
    (j < s.cfg.nDrv → exec (.drvInit j) s = .next { s with
        drv := s.drv.set j
          { dl := { line with delay := bitsU s.cfg.drvDelay } } }) ∧
    (j < s.cfg.nDl → 1 ≤ s.cfg.dlCap → s.a0 = 0#32 → s.a1 = fZero →
      exec (.dlInit j) s = .next { s with dl := s.dl.set j line }) ∧
    exec .spaInit s = .next { s with
      spa := { hist := List.replicate s.cfg.spaWin 0#32, hcnt := 0 },
      bins := List.replicate s.cfg.nbins 0#32, spaSeq := 0#32 }

/-! The wavetable store. -/

/-- R134: `WTS.BANK` in CONFIG mode on an undeclared bank in range with 2 to `NT_MAX` tables declares it and
changes nothing else. -/
def Obligations.BankDeclared : Prop :=
  ∀ (s : State), s.mode = .config → s.ntab.length = s.cfg.nBanks →
    s.a0.toNat < s.cfg.nBanks → 2 ≤ s.a1.toNat → s.a1.toNat ≤ s.cfg.ntMax → s.ntabAt s.a0.toNat = 0 →
    ∃ t, exec .wtsBank s = .next t ∧ t = { s with ntab := t.ntab } ∧
      t.ntab.length = s.cfg.nBanks ∧
      ∀ b, t.ntabAt b = if b = s.a0.toNat then s.a1.toNat else s.ntabAt b

/-- R135: `WTS.WR` in CONFIG mode on a cell of a declared table, with a finite value, stores the value in
that cell; every other word of the store and everything else is kept. -/
def Obligations.CellWritten : Prop :=
  ∀ (s : State), s.mode = .config → Memory.wf storeBlank s.wt = true →
    s.a0.toNat < s.cfg.nBanks → s.ntabAt s.a0.toNat ≠ 0 → s.a1.toNat < s.ntabAt s.a0.toNat →
    s.a2.toNat < s.cfg.tableLen → isFinite s.a3 = true →
    ∃ t, exec .wtsWr s = .next t ∧ t = { s with wt := t.wt } ∧
      Memory.wf storeBlank t.wt = true ∧
      (∀ k, k ≠ s.cfg.cellKey s.a0.toNat s.a1.toNat s.a2.toNat →
        Memory.read storeBlank t.wt k = Memory.read storeBlank s.wt k) ∧
      t.cell s.a0.toNat s.a1.toNat s.a2.toNat = some s.a3 ∧
      (s.ntabAt s.a0.toNat ≤ s.cfg.ntMax →
        ∀ b k i, k < s.cfg.ntMax → i < s.cfg.tableLen →
          (b, k, i) ≠ (s.a0.toNat, s.a1.toNat, s.a2.toNat) → t.cell b k i = s.cell b k i)

/-- R136: `WTS.SEAL` in CONFIG mode seals a store whose banks are all declared and whose declared tables
are all written, and changes the mode only; on any other store it faults with cause 2. -/
def Obligations.SealDecides : Prop :=
  ∀ (s : State), s.mode = .config →
    ((∀ b, b < s.cfg.nBanks → s.ntabAt b ≠ 0 ∧
        ∀ t i, t < s.ntabAt b → i < s.cfg.tableLen → s.cell b t i ≠ none) →
      exec .wtsSeal s = .next { s with mode := .run }) ∧
    ((∃ b, b < s.cfg.nBanks ∧ (s.ntabAt b = 0 ∨
        ∃ t i, t < s.ntabAt b ∧ i < s.cfg.tableLen ∧ s.cell b t i = none)) →
      exec .wtsSeal s = .next { s with
        mode := .faulted, fault := .wtsIncomplete, faultInfo := 0x12000000#32,
        r0 := 0#32, r1 := 0#32 })

/-- R30, R136: in RUN mode every bank has 2 to `NT_MAX` tables and every cell of them holds a finite
value. -/
def Obligations.SealedStoreIsWhole : Prop :=
  ∀ (s : State), BlockInv s → s.mode = .run → ∀ b, b < s.cfg.nBanks →
    2 ≤ s.ntabAt b ∧ s.ntabAt b ≤ s.cfg.ntMax ∧
    ∀ t i, t < s.ntabAt b → i < s.cfg.tableLen → ∃ v, s.cell b t i = some v ∧ isFinite v = true

/-! Envelope generators. -/

/-- R152, R158: `ENV.SETP` stores the four parameters as given and keeps `rsa` and `finished`; `ENV.STAT`
returns `rsa` and `finished` and changes no state of the envelope. -/
def Obligations.EnvelopeParameters : Prop :=
  ∀ (s : State) (j : Nat), Ready s → j < s.cfg.nEnv →
    encode (.envSetp j) = BitVec.ofNat 32 (0x21000000 + j) ∧
    encode (.envStat j) = BitVec.ofNat 32 (0x23000000 + j) ∧
    exec (.envSetp j) s = .next { s with
        env := s.env.set j
          { attack := s.a0, decay := s.a1, sustain := s.a2, release := s.a3
            rsa := (s.envAt j).rsa, finished := (s.envAt j).finished } } ∧
    exec (.envStat j) s = .next { s with
      r0 := (s.envAt j).rsa, r1 := if (s.envAt j).finished then 1#32 else 0#32 }

/-- R153: `ENV.PROC`, branch by branch, in the order of operations of the rule. -/
def Obligations.EnvelopeAmplitude : Prop :=
  ∀ (s : State) (j : Nat), Ready s → j < s.cfg.nEnv →
    let E := s.envAt j
    let t := s.a0
    let toff := s.a1
    let d := s.draw
    let elapsed := fsub d t toff
    let ramp := flt fZero E.release && flt elapsed E.release
    let held :=
      if flt fZero E.attack && flt t E.attack then fdiv d t E.attack
      else if flt fZero E.decay && flt t (fadd d E.attack E.decay) then
        fsub d fOne (fdiv d (fmul d (fsub d t E.attack) (fsub d fOne E.sustain)) E.decay)
      else E.sustain
    encode (.envProc j) = BitVec.ofNat 32 (0x22000000 + j) ∧
    (flt fZero toff = true → ramp = true →
      exec (.envProc j) s = .next { s with
        env := s.env.set j E,
        r0 := fsub d E.rsa (fmul d elapsed (fdiv d E.rsa E.release)),
        r1 := if E.finished then 1#32 else 0#32 }) ∧
    (flt fZero toff = true → ramp = false →
      exec (.envProc j) s = .next { s with
        env := s.env.set j { E with finished := true }, r0 := fZero, r1 := 1#32 }) ∧
    (flt fZero toff = false →
      exec (.envProc j) s = .next { s with
        env := s.env.set j { E with rsa := held }, r0 := held,
        r1 := if E.finished then 1#32 else 0#32 })

/-- R156: `finished` is set exactly when the released branch is taken and its ramp test fails, and once set
every command but `ENV.INIT j` and reset keeps it. -/
def Obligations.FinishedFlag : Prop :=
  (∀ (s t : State) (j : Nat), Ready s → j < s.cfg.nEnv → j < s.env.length →
    exec (.envProc j) s = .next t →
    (t.envAt j).finished =
      ((s.envAt j).finished ||
        (flt fZero s.a1 &&
          !(flt fZero (s.envAt j).release && flt (fsub s.draw s.a0 s.a1) (s.envAt j).release))) ∧
    t.r1 = if (t.envAt j).finished then 1#32 else 0#32) ∧
  (∀ (i : Instr) (s t : State) (j : Nat), exec i s = .next t → i ≠ .envInit j → i ≠ .sysReset →
    (s.envAt j).finished = true → (t.envAt j).finished = true)

/-- R159: in the exact reading the held attack is `t/a`, monotone, and at `t = a` the amplitude is 1 when
`decay > 0` and `sustain` when `decay = 0`; in binary32 the attack is the correctly rounded quotient, also
monotone. -/
def Obligations.AttackIsLinear : Prop :=
  (∀ E : Env ℝ, 0 < E.attack →
    (∀ t, 0 ≤ t → t < E.attack → (envStep exactReading E t 0).1 = t / E.attack) ∧
    (∀ t u, 0 ≤ t → t ≤ u → u < E.attack →
      (envStep exactReading E t 0).1 ≤ (envStep exactReading E u 0).1) ∧
    (0 < E.decay → (envStep exactReading E E.attack 0).1 = 1) ∧
    (E.decay = 0 → (envStep exactReading E E.attack 0).1 = E.sustain)) ∧
  (∀ (d : Nat) (E : Env Word) (t u : Word), isFinite E.attack = true → flt fZero E.attack = true →
    fle fZero t = true → fle t u = true → flt u E.attack = true →
    Rounds (units t * 2 ^ 149) (absUnits E.attack) (envStep (b32 d) E t fZero).1 ∧
    fle (envStep (b32 d) E t fZero).1 (envStep (b32 d) E u fZero).1 = true)

/-! Oscillators. -/

/-- R173, R171: `OSC.INIT` in RUN mode with a bank in range constructs the oscillator. -/
def Obligations.OscillatorConstructed : Prop :=
  ∀ (s : State) (j : Nat), s.mode = .run → j < s.cfg.nOsc → s.a1.toNat < s.cfg.nBanks →
    let d := s.draw
    let f := if fle s.cfg.fMin s.a0 then s.a0 else s.cfg.fMin
    let spc := fdiv d s.cfg.fs f
    exec (.oscInit j) s = .next { s with
      osc := s.osc.set j
        { valid := true, bank := s.a1.toNat, tps := fdiv d fOne s.cfg.fs, spc := spc,
          scale := fdiv d (i2f s.cfg.tableLen) spc, morph := 0x00000000#32 },
      diag := s.diag ||| (if fle s.cfg.fMin s.a0 then 0x000#9 else 0x010#9) }

/-- R174, R175: `OSC.SETF` and `OSC.SETM` on a valid oscillator. -/
def Obligations.OscillatorSettings : Prop :=
  ∀ (s : State) (j : Nat), Ready s → j < s.cfg.nOsc → (s.oscAt j).valid = true →
    let d := s.draw
    let f := if fle s.cfg.fMin s.a0 then s.a0 else s.cfg.fMin
    let spc := fdiv d s.cfg.fs f
    let inside := fle fZero s.a0 && fle s.a0 fOne
    let p := if inside then s.a0 else if fle fZero s.a0 then fOne else fZero
    encode (.oscSetf j) = BitVec.ofNat 32 (0x31000000 + j) ∧
    encode (.oscSetm j) = BitVec.ofNat 32 (0x32000000 + j) ∧
    exec (.oscSetf j) s = .next { s with
      osc := s.osc.set j { s.oscAt j with spc := spc, scale := fdiv d (i2f s.cfg.tableLen) spc },
      diag := s.diag ||| (if fle s.cfg.fMin s.a0 then 0x000#9 else 0x010#9) } ∧
    exec (.oscSetm j) s = .next { s with
      osc := s.osc.set j { s.oscAt j with morph := p },
      diag := s.diag ||| (if inside then 0x000#9 else 0x080#9) }

/-- R176 to R180: `OSC.PROC` on a valid oscillator reads two written cells, crossfades them and changes
`R0` only. -/
def Obligations.OscillatorSample : Prop :=
  ∀ (s : State) (j : Nat), BlockInv s → s.mode = .run → j < s.cfg.nOsc → (s.oscAt j).valid = true →
    let d := s.draw
    let O := s.oscAt j
    let n := (s.ntabAt O.bank : Int)
    let r := frem d (fdiv d s.a0 O.tps) O.spc
    let ph := if flt r fZero then fadd d r O.spc else r
    let i := max 0 (min (f2i (fmul d ph O.scale)) ((s.cfg.tableLen : Int) - 1))
    let seg := fmul d O.morph (i2f (n - 1))
    let k := max 0 (min (f2i seg) (n - 2))
    let f := fsub d seg (i2f k)
    encode (.oscProc j) = BitVec.ofNat 32 (0x33000000 + j) ∧
    ∃ a b, s.cell O.bank k.toNat i.toNat = some a ∧ s.cell O.bank (k.toNat + 1) i.toNat = some b ∧
      exec (.oscProc j) s =
        .next { s with r0 := fadd d (fmul d a (fsub d fOne f)) (fmul d b f) }

/-- R66: every index a rule computes is in range: the table index, the morph pair, the delay read index and
the sample count, for any arithmetic and any state. -/
def Obligations.EveryIndexInRange : Prop :=
  (∀ (F : Type) (N : Arith F) (len : Nat) (O : Osc F) (t : F), 0 < len → tableIndex N len O t < len) ∧
  (∀ (F : Type) (N : Arith F) (n : Nat) (m : F), 2 ≤ n → (morphPair N n m).1 + 1 < n) ∧
  (∀ (F : Type) (cap : Nat) (L : DelayLine F), 0 < cap → dlReadIndex cap L < cap) ∧
  (∀ s : State, spaCount s ≤ s.cfg.spaBlkMax) ∧
  (∀ (n : Int) (m : Nat), 0 < m → emod n m < m ∧ ∃ k : Int, n - emod n m = k * m)

/-- R181: where `morph · (N − 1)` is exactly an integer `m`, `OSC.PROC` returns the cell of table `m` bit
for bit, but for a cell −0.0, which may come back as +0.0. -/
def Obligations.MorphBoundary : Prop :=
  ∀ (s : State) (j m : Nat), BlockInv s → s.mode = .run → j < s.cfg.nOsc → (s.oscAt j).valid = true →
    let O := s.oscAt j
    let N := s.ntabAt O.bank
    let seg := fmul s.draw O.morph (i2f ((N : Int) - 1))
    m ≤ N - 1 → isFinite seg = true → units seg = (m : Int) * 2 ^ 149 →
    ∃ c r, s.cell O.bank m (tableIndex (b32 s.draw) s.cfg.tableLen O s.a0) = some c ∧
      exec (.oscProc j) s = .next { s with r0 := r } ∧ (r = c ∨ (c = fNegZero ∧ r = fZero))

/-! Biquad filters. -/

/-- R192 to R195, R197: `BQ.SETC`, `BQ.LP` and `BQ.AP` write the five coefficients as their rules say, with
the guards' bits, and keep the taps. -/
def Obligations.BiquadCoefficients : Prop :=
  ∀ (s : State) (j : Nat), Ready s → j < s.cfg.nBq →
    let d := s.draw
    let f := if fle s.cfg.fMin s.a0 then s.a0 else s.cfg.fMin
    let q := if fle s.cfg.qMin s.a1 then s.a1 else s.cfg.qMin
    let w0 := fdiv d (fmul d 0x40C90FDB#32 f) s.cfg.fs
    let cw := Config.num.cos w0
    let alpha := fdiv d (Config.num.sin w0) (fmul d fTwo q)
    let aa := fadd d fOne alpha
    let bits := s.diag ||| ((if fle s.cfg.fMin s.a0 then 0x000#9 else 0x010#9) |||
      (if fle s.cfg.qMin s.a1 then 0x000#9 else 0x020#9))
    encode (.bqSetc j) = BitVec.ofNat 32 (0x41000000 + j) ∧
    encode (.bqLp j) = BitVec.ofNat 32 (0x42000000 + j) ∧
    encode (.bqAp j) = BitVec.ofNat 32 (0x43000000 + j) ∧
    exec (.bqSetc j) s = .next { s with bq := s.bq.set j { s.bqAt j with
      coefs := { b0 := s.a0, b1 := s.a1, b2 := s.a2, a1 := s.a3, a2 := s.a4 } } } ∧
    exec (.bqLp j) s = .next { s with diag := bits, bq := s.bq.set j { s.bqAt j with
      coefs :=
        { b0 := fdiv d (fdiv d (fsub d fOne cw) fTwo) aa, b1 := fdiv d (fsub d fOne cw) aa
          b2 := fdiv d (fdiv d (fsub d fOne cw) fTwo) aa, a1 := fdiv d (fmul d fNegTwo cw) aa
          a2 := fdiv d (fsub d fOne alpha) aa } } } ∧
    exec (.bqAp j) s = .next { s with diag := bits, bq := s.bq.set j { s.bqAt j with
      coefs :=
        { b0 := fdiv d (fsub d fOne alpha) aa, b1 := fdiv d (fmul d fNegTwo cw) aa
          b2 := fdiv d (fadd d fOne alpha) aa, a1 := fdiv d (fmul d fNegTwo cw) aa
          a2 := fdiv d (fsub d fOne alpha) aa } } }

/-- R196: `BQ.PROC`, the transposed direct form II with the new output and the old second tap. -/
def Obligations.BiquadSample : Prop :=
  ∀ (s : State) (j : Nat), Ready s → j < s.cfg.nBq →
    let d := s.draw
    let B := s.bqAt j
    let C := B.coefs
    let x := s.a0
    let y := fadd d (fmul d C.b0 x) B.s1
    encode (.bqProc j) = BitVec.ofNat 32 (0x44000000 + j) ∧
    exec (.bqProc j) s = .next { s with
      r0 := y,
      bq := s.bq.set j
        { coefs := C
          s1 := fadd d (fsub d (fmul d C.b1 x) (fmul d C.a1 y)) B.s2
          s2 := fsub d (fmul d C.b2 x) (fmul d C.a2 y) } }

/-- R191: with the coefficients and taps of `BQ.INIT`, `BQ.PROC` returns every finite input but −0.0 bit for
bit and leaves the filter as it was, so a whole stream passes through. (−0.0 comes back as +0.0.) -/
def Obligations.IdentityPassesThrough : Prop :=
  ∀ (s : State) (j : Nat) (xs : List Word), s.cfg.ok = true → Ready s → j < s.cfg.nBq →
    j < s.bq.length → (∀ x ∈ xs, isFinite x = true ∧ x ≠ fNegZero) →
    ∃ u, exec (.bqInit j) s = .next u ∧
    ∃ ys t, feed (.bqProc j) xs u = some (ys, t) ∧ ys.map (·.1) = xs ∧ t.bqAt j = u.bqAt j

/-! Delay lines. -/

/-- R212 to R214: `DL.INIT` and `DL.SET` store the delay as requested and the feedback, with
`DELAY_WRAPPED` for a delay outside 0 to capacity − 1; `DL.SET` keeps buffer and write index, `DL.INIT`
clears them. -/
def Obligations.DelaySettings : Prop :=
  ∀ (s : State) (j : Nat), Ready s → j < s.cfg.nDl →
    let bits := s.diag |||
      (if s.a0.toInt < 0 ∨ (s.cfg.dlCap : Int) ≤ s.a0.toInt then 0x040#9 else 0x000#9)
    encode (.dlInit j) = BitVec.ofNat 32 (0x50000000 + j) ∧
    encode (.dlSet j) = BitVec.ofNat 32 (0x51000000 + j) ∧
    exec (.dlInit j) s = .next { s with
        diag := bits
        dl := s.dl.set j
          { buf := [], w := 0, delay := s.a0, fb := s.a1 } } ∧
    exec (.dlSet j) s = .next { s with
        diag := bits
        dl := s.dl.set j
          { s.dlAt j with delay := s.a0, fb := s.a1 } }

/-- R215, R216: `DL.PROC` reads the delayed sample, stores the input plus the fed-back output at the write
index and in no other place, and advances the index. -/
def Obligations.DelayStep : Prop :=
  ∀ (s : State) (j : Nat), Ready s → j < s.cfg.nDl → j < s.dl.length →
    Memory.wf zeroBlank (s.dlAt j).buf = true →
    let L := s.dlAt j
    let out := Memory.word L.buf (emod ((L.w : Int) - emod L.delay.toInt s.cfg.dlCap) s.cfg.dlCap)
    encode (.dlProc j) = BitVec.ofNat 32 (0x52000000 + j) ∧
    ∃ t, exec (.dlProc j) s = .next t ∧
      t = { s with r0 := out, dl := s.dl.set j (t.dlAt j) } ∧
      (t.dlAt j).w = emod ((L.w : Int) + 1) s.cfg.dlCap ∧
      (t.dlAt j).delay = L.delay ∧ (t.dlAt j).fb = L.fb ∧
      ∀ k, Memory.word (t.dlAt j).buf k =
        if k = L.w then fadd s.draw s.a0 (fmul s.draw L.fb out) else Memory.word L.buf k

/-- R217: after `DL.INIT` with feedback +0.0 and a delay of 1 to capacity − 1, a stream of finite inputs
comes back exactly `delay` steps later, and +0.0 before that; an input −0.0 may come back as +0.0. -/
def Obligations.DelayReproducesInput : Prop :=
  ∀ (s : State) (j : Nat) (xs : List Word), s.cfg.ok = true → Ready s → j < s.cfg.nDl →
    j < s.dl.length → 1 ≤ s.a0.toInt → s.a0.toInt ≤ (s.cfg.dlCap : Int) - 1 → s.a1 = fZero →
    (∀ x ∈ xs, isFinite x = true) →
    ∃ u, exec (.dlInit j) s = .next u ∧
    ∃ ys t, feed (.dlProc j) xs u = some (ys, t) ∧ ys.length = xs.length ∧
      ∀ n x y, xs[n]? = some x → (ys.map (·.1))[n]? = some y →
        (n < s.a0.toNat → y = fZero) ∧
        (s.a0.toNat ≤ n → ∃ x', xs[n - s.a0.toNat]? = some x' ∧
          (y = x' ∨ (x' = fNegZero ∧ y = fZero)))

/-! Reverb networks. -/

/-- R226: `RVB.UPD` gives each stage of both channels the saturated delay sum, the feedback sum and the
allpass design for the frequency sum, keeps buffers, write indexes and taps, and sets the guards' bits. -/
def Obligations.ReverbUpdated : Prop :=
  ∀ (s : State) (j : Nat), Ready s → j < s.cfg.nRvb → j < s.rvb.length →
    let c := s.cfg
    let d := s.draw
    let freq := fun g : Stage => fadd d s.a2 (PerStage.at c.rvbDfreq g)
    let len := fun g : Stage => max (-2 ^ 31) (min (s.a0.toInt + PerStage.at c.rvbDd g) (2 ^ 31 - 1))
    encode (.rvbUpd j) = BitVec.ofNat 32 (0x61000000 + j) ∧
    ∃ t, exec (.rvbUpd j) s = .next t ∧
      t = { s with rvb := s.rvb.set j (t.rvbAt j), diag := t.diag } ∧
      (∀ ch g,
        let w0 := fdiv d (fmul d 0x40C90FDB#32 (if fle c.fMin (freq g) then freq g else c.fMin)) c.fs
        let cw := Config.num.cos w0
        let alpha := fdiv d (Config.num.sin w0)
          (fmul d fTwo (if fle c.qMin s.a3 then s.a3 else c.qMin))
        let aa := fadd d fOne alpha
        (t.rvbAt j).line ch g = { (s.rvbAt j).line ch g with
          delay := BitVec.ofInt 32 (len g), fb := fadd d s.a1 (PerStage.at c.rvbDfb g) } ∧
        (t.rvbAt j).allpass ch g = { (s.rvbAt j).allpass ch g with
          coefs :=
            { b0 := fdiv d (fsub d fOne alpha) aa, b1 := fdiv d (fmul d fNegTwo cw) aa
              b2 := fdiv d (fadd d fOne alpha) aa, a1 := fdiv d (fmul d fNegTwo cw) aa
              a2 := fdiv d (fsub d fOne alpha) aa } }) ∧
      (t.diag.getLsbD 4 = true ↔ s.diag.getLsbD 4 = true ∨ ∃ g, fle c.fMin (freq g) = false) ∧
      (t.diag.getLsbD 5 = true ↔ s.diag.getLsbD 5 = true ∨ fle c.qMin s.a3 = false) ∧
      (t.diag.getLsbD 6 = true ↔
        s.diag.getLsbD 6 = true ∨ ∃ g, len g < 0 ∨ (c.rvbDlCap : Int) ≤ len g) ∧
      ∀ k, k ≠ 4 → k ≠ 5 → k ≠ 6 → t.diag.getLsbD k = s.diag.getLsbD k

/-- R227, R229: `RVB.PROC` runs the left chain wholly, then the right chain, from the same input; each stage
steps the delay line the map names and answers half the allpass and half the delayed sample. -/
def Obligations.ReverbSample : Prop :=
  ∀ (s : State) (j : Nat), Ready s → j < s.cfg.nRvb →
    let d := s.draw
    let stage := fun (ch : Chan) (g : Stage) (p : Word × Reverb Word) =>
      let m := PerStage.at (Stereo.at s.cfg.rvbMap ch) g
      let delayed := dlStep (b32 d) s.cfg.rvbDlCap (p.2.line m.1 m.2) p.1
      let V := p.2.setLine m.1 m.2 delayed.2
      let filtered := bqStep (b32 d) (V.allpass ch g) delayed.1
      (fadd d (fmul d 0x3F000000#32 filtered.1) (fmul d 0x3F000000#32 delayed.1),
        V.setAllpass ch g filtered.2)
    let left := stage .left .s3 (stage .left .s2 (stage .left .s1 (s.a0, s.rvbAt j)))
    let right := stage .right .s3 (stage .right .s2 (stage .right .s1 (s.a0, left.2)))
    encode (.rvbProc j) = BitVec.ofNat 32 (0x62000000 + j) ∧
    exec (.rvbProc j) s = .next { s with
      r0 := left.1, r1 := right.1, rvb := s.rvb.set j right.2 }

/-- R230, under reading A of the map, its premise: `RVB.INIT` leaves the two channels equal, `RVB.UPD` keeps
them equal, and every stream gives `R0 = R1` at every step, bit for bit. For NaN results the equality rests
on log 2: equal operations on equal operands within one command draw one NaN. -/
def Obligations.ReverbChannelsEqual : Prop :=
  ∀ (s : State) (j : Nat), s.cfg.ok = true → s.cfg.rvbMap = mapReadingA → Ready s → j < s.cfg.nRvb →
    j < s.rvb.length →
    (∃ t, exec (.rvbInit j) s = .next t ∧ Mirrored (t.rvbAt j)) ∧
    (Mirrored (s.rvbAt j) → ∃ t, exec (.rvbUpd j) s = .next t ∧ Mirrored (t.rvbAt j)) ∧
    (∀ xs, Mirrored (s.rvbAt j) →
      ∃ ys t, feed (.rvbProc j) xs s = some (ys, t) ∧ ys.length = xs.length ∧
        (∀ y ∈ ys, y.1 = y.2) ∧ Mirrored (t.rvbAt j))

/-! Drives. -/

/-- R242: `DRV.PROC` steps the delay line and returns `tanh` of input times delayed input. -/
def Obligations.DriveSample : Prop :=
  ∀ (s : State) (j : Nat), Ready s → j < s.cfg.nDrv → j < s.drv.length →
    Memory.wf zeroBlank (s.drvAt j).dl.buf = true →
    let L := (s.drvAt j).dl
    let cap := s.cfg.drvDlCap
    let out := Memory.word L.buf (emod ((L.w : Int) - emod L.delay.toInt cap) cap)
    encode (.drvProc j) = BitVec.ofNat 32 (0x71000000 + j) ∧
    ∃ t, exec (.drvProc j) s = .next t ∧
      t = { s with r0 := Config.num.tanh (fmul s.draw s.a0 out), drv := s.drv.set j (t.drvAt j) } ∧
      (t.drvAt j).dl.w = emod ((L.w : Int) + 1) cap ∧
      (t.drvAt j).dl.delay = L.delay ∧ (t.drvAt j).dl.fb = L.fb ∧
      ∀ k, Memory.word (t.drvAt j).dl.buf k =
        if k = L.w then fadd s.draw s.a0 (fmul s.draw L.fb out) else Memory.word L.buf k

/-- R243, rows 1 and 2: after `DRV.INIT` the first `DRV_DELAY` finite inputs give zeros, and wherever the
product is no NaN the output lies in [−1, 1]. -/
def Obligations.DriveIsSilentAndBounded : Prop :=
  (∀ (s : State) (j : Nat) (xs : List Word), s.cfg.ok = true → Ready s → j < s.cfg.nDrv →
    j < s.drv.length → xs.length ≤ s.cfg.drvDelay → (∀ x ∈ xs, isFinite x = true) →
    ∃ u, exec (.drvInit j) s = .next u ∧
    ∃ ys t, feed (.drvProc j) xs u = some (ys, t) ∧ ys.length = xs.length ∧
      ∀ y ∈ ys, isZero y.1 = true) ∧
  (∀ (s : State) (j : Nat), Ready s → j < s.cfg.nDrv →
    let L := (s.drvAt j).dl
    isNaN (fmul s.draw s.a0 (Memory.word L.buf (dlReadIndex s.cfg.drvDlCap L))) = false →
    ∃ t, exec (.drvProc j) s = .next t ∧ fle fNegOne t.r0 = true ∧ fle t.r0 fOne = true)

/-! The spectrum analyzer. -/

/-- R253, R254, R255, R258: `SPA.PROC` takes min(A0, SPA_BLK_MAX) samples: the history is the newest `W`
samples, the hop counter and the publish count are the remainder and the quotient by `H`, and `BINS` is the
transform of the history at the last publish, or as before where there is none. (That a non-finite sample
leaves the history like any other, against R349's words, is the model's choice, log 21.) -/
def Obligations.AnalyzerCounts : Prop :=
  ∀ (s : State), BlockInv s → Ready s →
    let c := s.cfg
    let m := min s.a0.toNat c.spaBlkMax
    let all := s.spa.hist ++ inputBlock s m
    let p := (s.spa.hcnt + m) / c.spaHop
    let left := (s.spa.hcnt + m) % c.spaHop
    ∃ t, exec .spaProc s = .next t ∧
      t = { s with
        spa := t.spa, bins := t.bins, spaSeq := t.spaSeq, diag := t.diag, midSnaps := t.midSnaps,
        readerSaw := t.readerSaw } ∧
      t.diag = s.diag ||| (if c.spaBlkMax < s.a0.toNat then 0x100#9 else 0x000#9) ∧
      t.spa.hist = lastOf c.spaWin all ∧ t.spa.hcnt = left ∧
      t.spaSeq = s.spaSeq + BitVec.ofNat 32 p ∧
      t.bins = if p = 0 then s.bins
        else Config.num.dftmag c (lastOf c.spaWin (all.take (all.length - left)))

/-- R254: a block given in two `SPA.PROC` commands gives the same analyzer, snapshot and observations as one
long command. -/
def Obligations.AnalyzerBlocksSplit : Prop :=
  ∀ (s t u : State) (m n : Nat) (second : Memory Word), BlockInv s → Ready s → m + n ≤ s.cfg.spaBlkMax →
    (∀ i, i < n → Memory.word second i = s.spaInAt (m + i)) →
    exec .spaProc { s with a0 := bitsU m } = .next t →
    exec .spaProc { t with a0 := bitsU n, spaIn := second } = .next u →
    ∃ v, exec .spaProc { s with a0 := bitsU (m + n) } = .next v ∧
      v.spa = u.spa ∧ v.bins = u.bins ∧ v.spaSeq = u.spaSeq ∧ v.readerSaw = u.readerSaw

/-- R70, R257, R320: the reader gets whole pairs in publish order: outside a command the pair as it stands,
inside `SPA.PROC` the pair some one publish left. Publish k of the command (the counter reaches `H` for the
kth time) leaves the count before plus k with the transform of the newest `W` samples at that moment; there
are floor((hcnt + m) / H) of them, none in FAULTED mode. Never a mixture, and never an older pair after a
newer. When the reader looks is the model's schedule (log 5). That the transformed history is the newest `W`
samples (R253, R255, R258) also where one of them was non-finite, against R349's words, is the model's choice
(log 21, DESIGN CHOICE). -/
def Obligations.ReaderSeesWholePairs : Prop :=
  (∀ (s : State) (rest : List Event), s.cfg.ok = true → s.port = .snapshot :: rest →
    step s = .next { s with
      port := rest, readerSaw := { seq := s.spaSeq, bins := s.bins } :: s.readerSaw }) ∧
  (∀ (s : State), BlockInv s →
    let c := s.cfg
    let m := min s.a0.toNat c.spaBlkMax
    let all := s.spa.hist ++ inputBlock s m
    let n := if s.mode = .faulted then 0 else (s.spa.hcnt + m) / c.spaHop
    let pair : Nat → Snapshot := fun k =>
      { seq := s.spaSeq + BitVec.ofNat 32 k
        bins := if k = 0 then s.bins
          else Config.num.dftmag c
            (lastOf c.spaWin (all.take (c.spaWin + k * c.spaHop - s.spa.hcnt))) }
    ∃ (t : State) (seen : List Nat), exec .spaProc s = .next t ∧
      { seq := t.spaSeq, bins := t.bins } = pair n ∧
      t.readerSaw = seen.map pair ++ s.readerSaw ∧
      (∀ k ∈ seen, 1 ≤ k ∧ k ≤ n) ∧ seen.Pairwise (fun a b => b ≤ a))

/-! Numerics. -/

/-- R101, addition, subtraction and unary minus: finite operands give the exact sum rounded once; an exact
zero sum is −0.0 only from two −0.0; `inf − inf` and a NaN operand give a NaN. The sign of an exact zero sum,
where a sum overflows, and an infinity plus a finite value or plus itself are taken from IEEE 754: the model's
choice (log 19, PRESUMED), not words of R101. -/
def Obligations.SumsRoundedOnce : Prop :=
  ∀ (d : Nat) (a b : Word),
    (isFinite a = true → isFinite b = true →
      Rounds (units a + units b) 1 (fadd d a b) ∧ Rounds (units a - units b) 1 (fsub d a b)) ∧
    (isFinite a = true → isFinite b = true → units a + units b = 0 →
      fadd d a b = if signBit a && signBit b then fNegZero else fZero) ∧
    (isInf a = true → isFinite b = true → fadd d a b = a ∧ fsub d a b = a) ∧
    (isInf a = true → isNaN (fsub d a a) = true ∧ fadd d a a = a) ∧
    (isNaN a = true ∨ isNaN b = true → isNaN (fadd d a b) = true ∧ isNaN (fsub d a b) = true) ∧
    fneg a = a ^^^ 0x80000000#32

/-- R101, multiplication and division: finite operands give the exact product and quotient rounded once;
`x/0` is an infinity, `0/0`, `0·inf` and a NaN operand give a NaN. That zero and infinite products and
quotients carry the combined sign, and where a result overflows, is taken from IEEE 754: the model's choice
(log 19, PRESUMED), not words of R101. -/
def Obligations.ProductsRoundedOnce : Prop :=
  ∀ (d : Nat) (a b : Word),
    (isFinite a = true → isFinite b = true →
      Rounds (units a * units b) (2 ^ 149) (fmul d a b) ∧
      signBit (fmul d a b) = (signBit a != signBit b)) ∧
    (isFinite a = true → isFinite b = true → isZero b = false →
      Rounds (units a * 2 ^ 149 * (if signBit b then -1 else 1)) (absUnits b) (fdiv d a b) ∧
      signBit (fdiv d a b) = (signBit a != signBit b)) ∧
    (isFinite a = true → isZero a = false → isZero b = true →
      isInf (fdiv d a b) = true ∧ signBit (fdiv d a b) = (signBit a != signBit b)) ∧
    (isZero a = true → isZero b = true → isNaN (fdiv d a b) = true) ∧
    (isZero a = true → isInf b = true → isNaN (fmul d a b) = true ∧ isNaN (fmul d b a) = true) ∧
    (isNaN a = true ∨ isNaN b = true → isNaN (fmul d a b) = true ∧ isNaN (fdiv d a b) = true)

/-- R105: `frem` is the exact truncated remainder with the sign of its first operand, never rounded. -/
def Obligations.RemainderExact : Prop :=
  ∀ (d : Nat) (a b : Word),
    (isFinite a = true → isFinite b = true → isZero b = false →
      isFinite (frem d a b) = true ∧ units (frem d a b) = Int.tmod (units a) (units b) ∧
      signBit (frem d a b) = signBit a ∧ absUnits (frem d a b) < absUnits b) ∧
    (isInf a = true ∨ isNaN a = true ∨ isZero b = true ∨ isNaN b = true →
      isNaN (frem d a b) = true) ∧
    (isFinite a = true → isInf b = true → frem d a b = a)

/-- R113: the three guards, what each replaces and the bit it sets; what they let through is in range. -/
def Obligations.GuardsReplace : Prop :=
  ∀ (d : Nat) (least f p : Word), positiveFinite least = true →
    (fle least f = true → guardFreq (b32 d) least f = (f, 0x000#9) ∧
      guardQ (b32 d) least f = (f, 0x000#9)) ∧
    (fle least f = false → guardFreq (b32 d) least f = (least, 0x010#9) ∧
      guardQ (b32 d) least f = (least, 0x020#9)) ∧
    (isNaN f = true ∨ isZero f = true ∨ signBit f = true → fle least f = false) ∧
    fle least 0x7F800000#32 = true ∧
    fle least (guardFreq (b32 d) least f).1 = true ∧ flt fZero (guardFreq (b32 d) least f).1 = true ∧
    (fle fZero p = true → fle p fOne = true → clamp01 (b32 d) p = (p, 0x000#9)) ∧
    (flt fOne p = true → clamp01 (b32 d) p = (fOne, 0x080#9)) ∧
    (isNaN p = true ∨ flt p fZero = true → clamp01 (b32 d) p = (fZero, 0x080#9)) ∧
    clamp01 (b32 d) fNegZero = (fNegZero, 0x000#9) ∧ InUnit (clamp01 (b32 d) p).1

/-- R106, R107: `f2i` truncates and saturates, 0 for a NaN; `i2f` rounds to nearest even and is exact up to
2^24. That an integer from half a unit above the largest finite value on becomes an infinity is taken from
IEEE 754: the model's choice (log 19, PRESUMED), not words of R107. -/
def Obligations.ConversionsRoundRight : Prop :=
  (∀ w : Word,
    (isNaN w = true → f2i w = 0) ∧
    (isInf w = true → f2i w = if signBit w then -2 ^ 31 else 2 ^ 31 - 1) ∧
    (isFinite w = true →
      f2i w = max (-2 ^ 31) (min (Int.tdiv (units w) (2 ^ 149)) (2 ^ 31 - 1)))) ∧
  (∀ n : Int, Rounds (n * 2 ^ 149) 1 (i2f n) ∧ (n.natAbs ≤ 2 ^ 24 → units (i2f n) = n * 2 ^ 149))

/-! The invariant and whole-machine statements. -/

/-- The reset state of every configuration that is an ST2 meets the invariant, and so does the model's, whose
configuration is the model's choice (log 1). -/
def Obligations.ResetMeetsInvariant : Prop :=
  (∀ c : Config, c.ok = true → BlockInv (State.resetOf c)) ∧ BlockInv State.reset

/-- Every step keeps the invariant: ranges of every field, canonical memories, a whole and finite store
behind RUN mode, no valid oscillator in CONFIG mode, `FAULT` telling FAULTED mode. -/
def Obligations.StepKeepsInvariant : Prop :=
  ∀ s t : State, BlockInv s → step s = .next t → BlockInv t

/-- R66, R322, R323: from a state that meets the invariant, every event inside the block's offsets is
performed: no step stops, whatever the word, the operands or the mode. -/
def Obligations.NoStepStops : Prop :=
  ∀ s : State, BlockInv s →
    (∀ off rest, s.port = .read off :: rest → off ≤ 0x2FFF) →
    (∀ off w rest, s.port = .write off w :: rest → off ≤ 0x2FFF) →
    ∃ t, step s = .next t

/-- R294, R353: an instance's results depend on its own state and the operands alone (an oscillator's on the
store too): with every other instance replaced, each command that returns a result, `ENV.PROC`, `ENV.STAT`,
`OSC.PROC`, `BQ.PROC`, `DL.PROC`, `RVB.PROC`, `DRV.PROC`, returns the same and leaves the same own state, and
it leaves every other instance of its kind as it was. -/
def Obligations.InstancesIsolated : Prop :=
  ∀ (s u t v : State) (j : Nat), Ready s → Ready u → s.cfg = u.cfg → s.draw = u.draw →
    s.a0 = u.a0 → s.a1 = u.a1 →
    (∀ i, i = .envProc j ∨ i = .envStat j → exec i s = .next t → exec i u = .next v → j < s.cfg.nEnv →
      j < s.env.length → j < u.env.length → s.envAt j = u.envAt j →
      t.r0 = v.r0 ∧ t.r1 = v.r1 ∧ t.envAt j = v.envAt j ∧ ∀ k, k ≠ j → t.envAt k = s.envAt k) ∧
    (exec (.oscProc j) s = .next t → exec (.oscProc j) u = .next v → j < s.cfg.nOsc →
      s.oscAt j = u.oscAt j → s.ntab = u.ntab → s.wt = u.wt →
      (s.oscAt j).valid = true → t.r0 = v.r0 ∧ t.osc = s.osc) ∧
    (exec (.bqProc j) s = .next t → exec (.bqProc j) u = .next v → j < s.cfg.nBq →
      j < s.bq.length → j < u.bq.length → s.bqAt j = u.bqAt j →
      t.r0 = v.r0 ∧ t.bqAt j = v.bqAt j ∧ ∀ k, k ≠ j → t.bqAt k = s.bqAt k) ∧
    (exec (.dlProc j) s = .next t → exec (.dlProc j) u = .next v → j < s.cfg.nDl →
      j < s.dl.length → j < u.dl.length → s.dlAt j = u.dlAt j →
      t.r0 = v.r0 ∧ t.dlAt j = v.dlAt j ∧ ∀ k, k ≠ j → t.dlAt k = s.dlAt k) ∧
    (exec (.rvbProc j) s = .next t → exec (.rvbProc j) u = .next v → j < s.cfg.nRvb →
      j < s.rvb.length → j < u.rvb.length → s.rvbAt j = u.rvbAt j →
      t.r0 = v.r0 ∧ t.r1 = v.r1 ∧ t.rvbAt j = v.rvbAt j ∧ ∀ k, k ≠ j → t.rvbAt k = s.rvbAt k) ∧
    (exec (.drvProc j) s = .next t → exec (.drvProc j) u = .next v → j < s.cfg.nDrv →
      j < s.drv.length → j < u.drv.length → s.drvAt j = u.drvAt j →
      t.r0 = v.r0 ∧ t.drvAt j = v.drvAt j ∧ ∀ k, k ≠ j → t.drvAt k = s.drvAt k)

end
end

