-- ==== Sys2Proof/Laws/Memory.lean ====
section
/-! SUPPORT. The laws of the sparse memories: a read after a write, the canonical form and its keeping, and
that equal contents are equal lists. -/

namespace Sys2Proof.Machine

variable {V : Type}

theorem Memory.find_put (m : Memory V) (k j : Nat) (v : V) :
    Memory.find (Memory.put m k v) j = if j = k then some v else Memory.find m j := by
  induction m with
  | nil => simp [Memory.put, Memory.find, eq_comm]
  | cons c rest ih =>
    obtain ⟨a, x⟩ := c
    simp only [Memory.put]
    split
    · simp [Memory.find, eq_comm]
    · split
      · subst_vars; by_cases h : j = a <;> simp [Memory.find, h, eq_comm]
      · rename_i h1 h2
        simp only [Memory.find, ih]
        by_cases h : a = j
        · subst h; simp [Ne.symm h2]
        · simp [h]

/-- Below a rising list nothing is listed. -/
theorem Memory.find_lt {lo : Nat} {m : Memory V} (h : Memory.risesFrom lo m = true) {k : Nat}
    (hk : k < lo) : Memory.find m k = none := by
  induction m generalizing lo with
  | nil => rfl
  | cons c rest ih =>
    obtain ⟨a, x⟩ := c
    simp only [Memory.risesFrom, Bool.and_eq_true, decide_eq_true_eq] at h
    simp only [Memory.find]
    rw [if_neg (by omega)]
    exact ih h.2 (by omega)

theorem Memory.find_drop {lo : Nat} {m : Memory V} (h : Memory.risesFrom lo m = true) (k j : Nat) :
    Memory.find (Memory.drop m k) j = if j = k then none else Memory.find m j := by
  induction m generalizing lo with
  | nil => simp [Memory.drop, Memory.find]
  | cons c rest ih =>
    obtain ⟨a, x⟩ := c
    simp only [Memory.risesFrom, Bool.and_eq_true, decide_eq_true_eq] at h
    simp only [Memory.drop]
    split
    · subst_vars
      by_cases hj : j = a
      · subst hj; simpa using Memory.find_lt h.2 (Nat.lt_succ_self j)
      · simp [Memory.find, hj, Ne.symm hj]
    · rename_i hk
      simp only [Memory.find, ih h.2]
      by_cases hj : a = j
      · subst hj; simp [Ne.symm hk]
      · simp [hj]

theorem Memory.risesFrom_mono {lo lo' : Nat} {m : Memory V} (hlo : lo' ≤ lo)
    (h : Memory.risesFrom lo m = true) : Memory.risesFrom lo' m = true := by
  cases m with
  | nil => rfl
  | cons c rest =>
    simp only [Memory.risesFrom, Bool.and_eq_true, decide_eq_true_eq] at h ⊢
    exact ⟨by omega, h.2⟩

theorem Memory.risesFrom_put {lo : Nat} {m : Memory V} (h : Memory.risesFrom lo m = true) {k : Nat}
    (hk : lo ≤ k) (v : V) : Memory.risesFrom lo (Memory.put m k v) = true := by
  induction m generalizing lo with
  | nil => simp [Memory.put, Memory.risesFrom, hk]
  | cons c rest ih =>
    obtain ⟨a, x⟩ := c
    simp only [Memory.risesFrom, Bool.and_eq_true, decide_eq_true_eq] at h
    simp only [Memory.put]
    split
    · simp only [Memory.risesFrom, Bool.and_eq_true, decide_eq_true_eq]
      exact ⟨hk, by omega, h.2⟩
    · split
      · subst_vars
        simp only [Memory.risesFrom, Bool.and_eq_true, decide_eq_true_eq]
        exact h
      · simp only [Memory.risesFrom, Bool.and_eq_true, decide_eq_true_eq]
        exact ⟨h.1, ih h.2 (by omega)⟩

theorem Memory.risesFrom_drop {lo : Nat} {m : Memory V} (h : Memory.risesFrom lo m = true) (k : Nat) :
    Memory.risesFrom lo (Memory.drop m k) = true := by
  induction m generalizing lo with
  | nil => rfl
  | cons c rest ih =>
    obtain ⟨a, x⟩ := c
    simp only [Memory.risesFrom, Bool.and_eq_true, decide_eq_true_eq] at h
    simp only [Memory.drop]
    split
    · exact Memory.risesFrom_mono (by omega) h.2
    · simp only [Memory.risesFrom, Bool.and_eq_true, decide_eq_true_eq]
      exact ⟨h.1, ih h.2⟩

theorem Memory.mem_put {m : Memory V} {k : Nat} {v : V} {c : Nat × V}
    (h : c ∈ Memory.put m k v) : c = (k, v) ∨ c ∈ m := by
  induction m with
  | nil => simpa [Memory.put] using h
  | cons d rest ih =>
    obtain ⟨a, x⟩ := d
    simp only [Memory.put] at h
    split at h
    · simpa using h
    · split at h
      · rcases List.mem_cons.mp h with h | h
        · exact Or.inl h
        · exact Or.inr (List.mem_cons_of_mem _ h)
      · rcases List.mem_cons.mp h with h | h
        · exact Or.inr (by simp [h])
        · exact (ih h).imp_right (List.mem_cons_of_mem _)

theorem Memory.mem_drop {m : Memory V} {k : Nat} {c : Nat × V} (h : c ∈ Memory.drop m k) :
    c ∈ m := by
  induction m with
  | nil => exact h
  | cons d rest ih =>
    obtain ⟨a, x⟩ := d
    simp only [Memory.drop] at h
    split at h
    · exact List.mem_cons_of_mem _ h
    · rcases List.mem_cons.mp h with h | h
      · simp [h]
      · exact List.mem_cons_of_mem _ (ih h)

/-- Everything a write can put into a list: the written entry, or what was there. -/
theorem Memory.mem_write [DecidableEq V] {blank : Option V} {m : Memory V} {k : Nat} {v : V} {c : Nat × V}
    (h : c ∈ Memory.write blank m k v) : (c = (k, v) ∧ blank ≠ some v) ∨ c ∈ m := by
  unfold Memory.write at h
  split at h
  · exact Or.inr (Memory.mem_drop h)
  · exact (Memory.mem_put h).imp_left fun e => ⟨e, ‹_›⟩

/-- The canonical form, apart. -/
theorem Memory.wf_iff [DecidableEq V] {blank : Option V} {m : Memory V} :
    Memory.wf blank m = true ↔
      Memory.risesFrom 0 m = true ∧ ∀ c ∈ m, blank ≠ some c.2 := by
  simp [Memory.wf, List.all_eq_true]

/-- A write keeps the canonical form. -/
theorem Memory.wf_write [DecidableEq V] {blank : Option V} {m : Memory V} (h : Memory.wf blank m = true) (k : Nat)
    (v : V) : Memory.wf blank (Memory.write blank m k v) = true := by
  obtain ⟨hr, hb⟩ := Memory.wf_iff.mp h
  refine Memory.wf_iff.mpr ⟨?_, fun c hc => ?_⟩
  · unfold Memory.write
    split
    · exact Memory.risesFrom_drop hr k
    · exact Memory.risesFrom_put hr (Nat.zero_le k) v
  · rcases Memory.mem_write hc with ⟨rfl, hv⟩ | hc
    · exact hv
    · exact hb c hc

/-- A read after a write: the written value at the key, what was there elsewhere. -/
theorem Memory.read_write [DecidableEq V] {blank : Option V} {m : Memory V} (h : Memory.wf blank m = true)
    (k j : Nat) (v : V) :
    Memory.read blank (Memory.write blank m k v) j = if j = k then some v else Memory.read blank m j := by
  unfold Memory.write Memory.read
  by_cases hv : blank = some v
  · rw [if_pos hv, Memory.find_drop (Memory.wf_iff.mp h).1]
    by_cases hj : j = k <;> simp [hj, hv]
  · rw [if_neg hv, Memory.find_put]
    by_cases hj : j = k <;> simp [hj]

@[simp] theorem Memory.wf_nil [DecidableEq V] (blank : Option V) : Memory.wf blank [] = true := rfl

@[simp] theorem Memory.read_nil (blank : Option V) (k : Nat) : Memory.read blank [] k = blank := rfl

@[simp] theorem Memory.word_nil (k : Nat) : Memory.word [] k = 0#32 := rfl

/-- A read after a write in a filled buffer. -/
theorem Memory.elem_write [DecidableEq V] {zero : V} {m : Memory V}
    (h : Memory.wf (some zero) m = true) (k j : Nat) (v : V) :
    Memory.elem zero (Memory.write (some zero) m k v) j = if j = k then v else Memory.elem zero m j := by
  unfold Memory.elem
  rw [Memory.read_write h]
  by_cases hj : j = k <;> simp [hj]

/-- A read after a write in a zero-filled buffer. -/
theorem Memory.word_write {m : Memory Word} (h : Memory.wf zeroBlank m = true) (k j : Nat) (v : Word) :
    Memory.word (Memory.write zeroBlank m k v) j = if j = k then v else Memory.word m j :=
  Memory.elem_write h k j v

/-- A write inside the range keeps every key inside it. -/
theorem Memory.below_write [DecidableEq V] {blank : Option V} {n : Nat} {m : Memory V}
    (h : Memory.below n m = true) {k : Nat} (hk : k < n) (v : V) :
    Memory.below n (Memory.write blank m k v) = true := by
  simp only [Memory.below, List.all_eq_true, decide_eq_true_eq] at h ⊢
  intro c hc
  rcases Memory.mem_write hc with ⟨rfl, -⟩ | hc
  · exact hk
  · exact h c hc

/-- In a rising list an entry is what its key finds. -/
theorem Memory.find_of_mem {lo : Nat} {m : Memory V} (h : Memory.risesFrom lo m = true)
    {c : Nat × V} (hc : c ∈ m) : Memory.find m c.1 = some c.2 := by
  induction m generalizing lo with
  | nil => simp at hc
  | cons d rest ih =>
    obtain ⟨a, x⟩ := d
    simp only [Memory.risesFrom, Bool.and_eq_true, decide_eq_true_eq] at h
    rcases List.mem_cons.mp hc with rfl | hc
    · simp [Memory.find]
    · have := ih h.2 hc
      simp only [Memory.find]
      split
      · rename_i e
        have h3 := Memory.find_lt h.2 (show c.1 < a + 1 by omega)
        rw [h3] at this; simp at this
      · exact this

/-- Rising lists that find the same are the same list. -/
theorem Memory.eq_of_find {lo : Nat} {m m' : Memory V} (h : Memory.risesFrom lo m = true)
    (h' : Memory.risesFrom lo m' = true) (e : ∀ k, Memory.find m k = Memory.find m' k) : m = m' := by
  induction m generalizing lo m' with
  | nil =>
    cases m' with
    | nil => rfl
    | cons c rest => have := e c.1; simp [Memory.find] at this
  | cons c rest ih =>
    obtain ⟨a, x⟩ := c
    cases m' with
    | nil => have := e a; simp [Memory.find] at this
    | cons c' rest' =>
      obtain ⟨a', x'⟩ := c'
      simp only [Memory.risesFrom, Bool.and_eq_true, decide_eq_true_eq] at h h'
      have haa : a = a' := by
        rcases Nat.lt_trichotomy a a' with hlt | heq | hgt
        · have := e a
          simp only [Memory.find, if_pos, if_neg (show ¬ a' = a by omega)] at this
          rw [Memory.find_lt h'.2 (by omega)] at this; simp at this
        · exact heq
        · have := e a'
          simp only [Memory.find, if_pos, if_neg (show ¬ a = a' by omega)] at this
          rw [Memory.find_lt h.2 (by omega)] at this; simp at this
      subst haa
      have hx : x = x' := by simpa [Memory.find] using e a
      subst hx
      congr 1
      refine ih h.2 h'.2 fun k => ?_
      by_cases hk : a = k
      · subst hk
        rw [Memory.find_lt h.2 (Nat.lt_succ_self a), Memory.find_lt h'.2 (Nat.lt_succ_self a)]
      · simpa [Memory.find, hk] using e k

/-- The form is canonical: memories of one blank that read the same everywhere are the same list. -/
theorem Memory.ext_of_read [DecidableEq V] {blank : Option V} {m m' : Memory V} (h : Memory.wf blank m = true)
    (h' : Memory.wf blank m' = true)
    (e : ∀ k, Memory.read blank m k = Memory.read blank m' k) : m = m' := by
  obtain ⟨hr, hb⟩ := Memory.wf_iff.mp h
  obtain ⟨hr', hb'⟩ := Memory.wf_iff.mp h'
  refine Memory.eq_of_find hr hr' fun k => ?_
  have ne : ∀ {n : Memory V} (_ : ∀ c ∈ n, blank ≠ some c.2) {v : V},
      Memory.find n k = some v → blank ≠ some v := by
    intro n hn v hv
    induction n with
    | nil => simp [Memory.find] at hv
    | cons d rest ih =>
      simp only [Memory.find] at hv
      split at hv
      · obtain rfl : d.2 = v := by simpa using hv
        exact hn d (by simp)
      · exact ih (fun c hc => hn c (List.mem_cons_of_mem _ hc)) hv
  have ek := e k
  unfold Memory.read at ek
  cases h1 : Memory.find m k <;> cases h2 : Memory.find m' k <;> rw [h1, h2] at ek <;>
    simp only [] at ek
  · exact absurd ek (ne hb' h2)
  · exact absurd ek.symm (ne hb h1)
  · exact ek

end Sys2Proof.Machine
end

