-- ==== Sys2Proof/Laws/State.lean ====
section
/-! SUPPORT. One lemma per field per named update of the state, true by unfolding it once, so that no proof
unfolds a record update. -/

namespace Sys2Proof.Machine

/-! `State.withR0`. -/

@[simp] theorem State.withR0_a0 (s : State) (w : Word) : (s.withR0 w).a0 = s.a0 := rfl
@[simp] theorem State.withR0_a1 (s : State) (w : Word) : (s.withR0 w).a1 = s.a1 := rfl
@[simp] theorem State.withR0_a2 (s : State) (w : Word) : (s.withR0 w).a2 = s.a2 := rfl
@[simp] theorem State.withR0_a3 (s : State) (w : Word) : (s.withR0 w).a3 = s.a3 := rfl
@[simp] theorem State.withR0_a4 (s : State) (w : Word) : (s.withR0 w).a4 = s.a4 := rfl
@[simp] theorem State.withR0_r0 (s : State) (w : Word) : (s.withR0 w).r0 = w := rfl
@[simp] theorem State.withR0_r1 (s : State) (w : Word) : (s.withR0 w).r1 = s.r1 := rfl
@[simp] theorem State.withR0_mode (s : State) (w : Word) : (s.withR0 w).mode = s.mode := rfl
@[simp] theorem State.withR0_fault (s : State) (w : Word) : (s.withR0 w).fault = s.fault := rfl
@[simp] theorem State.withR0_faultInfo (s : State) (w : Word) : (s.withR0 w).faultInfo = s.faultInfo := rfl
@[simp] theorem State.withR0_diag (s : State) (w : Word) : (s.withR0 w).diag = s.diag := rfl
@[simp] theorem State.withR0_spaSeq (s : State) (w : Word) : (s.withR0 w).spaSeq = s.spaSeq := rfl
@[simp] theorem State.withR0_ntab (s : State) (w : Word) : (s.withR0 w).ntab = s.ntab := rfl
@[simp] theorem State.withR0_wt (s : State) (w : Word) : (s.withR0 w).wt = s.wt := rfl
@[simp] theorem State.withR0_osc (s : State) (w : Word) : (s.withR0 w).osc = s.osc := rfl
@[simp] theorem State.withR0_env (s : State) (w : Word) : (s.withR0 w).env = s.env := rfl
@[simp] theorem State.withR0_bq (s : State) (w : Word) : (s.withR0 w).bq = s.bq := rfl
@[simp] theorem State.withR0_dl (s : State) (w : Word) : (s.withR0 w).dl = s.dl := rfl
@[simp] theorem State.withR0_rvb (s : State) (w : Word) : (s.withR0 w).rvb = s.rvb := rfl
@[simp] theorem State.withR0_drv (s : State) (w : Word) : (s.withR0 w).drv = s.drv := rfl
@[simp] theorem State.withR0_spa (s : State) (w : Word) : (s.withR0 w).spa = s.spa := rfl
@[simp] theorem State.withR0_spaIn (s : State) (w : Word) : (s.withR0 w).spaIn = s.spaIn := rfl
@[simp] theorem State.withR0_bins (s : State) (w : Word) : (s.withR0 w).bins = s.bins := rfl
@[simp] theorem State.withR0_cfg (s : State) (w : Word) : (s.withR0 w).cfg = s.cfg := rfl
@[simp] theorem State.withR0_draw (s : State) (w : Word) : (s.withR0 w).draw = s.draw := rfl
@[simp] theorem State.withR0_port (s : State) (w : Word) : (s.withR0 w).port = s.port := rfl
@[simp] theorem State.withR0_midSnaps (s : State) (w : Word) : (s.withR0 w).midSnaps = s.midSnaps := rfl
@[simp] theorem State.withR0_hostSaw (s : State) (w : Word) : (s.withR0 w).hostSaw = s.hostSaw := rfl
@[simp] theorem State.withR0_readerSaw (s : State) (w : Word) : (s.withR0 w).readerSaw = s.readerSaw := rfl

/-! `State.withR01`. -/

@[simp] theorem State.withR01_a0 (s : State) (w v : Word) : (s.withR01 w v).a0 = s.a0 := rfl
@[simp] theorem State.withR01_a1 (s : State) (w v : Word) : (s.withR01 w v).a1 = s.a1 := rfl
@[simp] theorem State.withR01_a2 (s : State) (w v : Word) : (s.withR01 w v).a2 = s.a2 := rfl
@[simp] theorem State.withR01_a3 (s : State) (w v : Word) : (s.withR01 w v).a3 = s.a3 := rfl
@[simp] theorem State.withR01_a4 (s : State) (w v : Word) : (s.withR01 w v).a4 = s.a4 := rfl
@[simp] theorem State.withR01_r0 (s : State) (w v : Word) : (s.withR01 w v).r0 = w := rfl
@[simp] theorem State.withR01_r1 (s : State) (w v : Word) : (s.withR01 w v).r1 = v := rfl
@[simp] theorem State.withR01_mode (s : State) (w v : Word) : (s.withR01 w v).mode = s.mode := rfl
@[simp] theorem State.withR01_fault (s : State) (w v : Word) : (s.withR01 w v).fault = s.fault := rfl
@[simp] theorem State.withR01_faultInfo (s : State) (w v : Word) : (s.withR01 w v).faultInfo = s.faultInfo := rfl
@[simp] theorem State.withR01_diag (s : State) (w v : Word) : (s.withR01 w v).diag = s.diag := rfl
@[simp] theorem State.withR01_spaSeq (s : State) (w v : Word) : (s.withR01 w v).spaSeq = s.spaSeq := rfl
@[simp] theorem State.withR01_ntab (s : State) (w v : Word) : (s.withR01 w v).ntab = s.ntab := rfl
@[simp] theorem State.withR01_wt (s : State) (w v : Word) : (s.withR01 w v).wt = s.wt := rfl
@[simp] theorem State.withR01_osc (s : State) (w v : Word) : (s.withR01 w v).osc = s.osc := rfl
@[simp] theorem State.withR01_env (s : State) (w v : Word) : (s.withR01 w v).env = s.env := rfl
@[simp] theorem State.withR01_bq (s : State) (w v : Word) : (s.withR01 w v).bq = s.bq := rfl
@[simp] theorem State.withR01_dl (s : State) (w v : Word) : (s.withR01 w v).dl = s.dl := rfl
@[simp] theorem State.withR01_rvb (s : State) (w v : Word) : (s.withR01 w v).rvb = s.rvb := rfl
@[simp] theorem State.withR01_drv (s : State) (w v : Word) : (s.withR01 w v).drv = s.drv := rfl
@[simp] theorem State.withR01_spa (s : State) (w v : Word) : (s.withR01 w v).spa = s.spa := rfl
@[simp] theorem State.withR01_spaIn (s : State) (w v : Word) : (s.withR01 w v).spaIn = s.spaIn := rfl
@[simp] theorem State.withR01_bins (s : State) (w v : Word) : (s.withR01 w v).bins = s.bins := rfl
@[simp] theorem State.withR01_cfg (s : State) (w v : Word) : (s.withR01 w v).cfg = s.cfg := rfl
@[simp] theorem State.withR01_draw (s : State) (w v : Word) : (s.withR01 w v).draw = s.draw := rfl
@[simp] theorem State.withR01_port (s : State) (w v : Word) : (s.withR01 w v).port = s.port := rfl
@[simp] theorem State.withR01_midSnaps (s : State) (w v : Word) : (s.withR01 w v).midSnaps = s.midSnaps := rfl
@[simp] theorem State.withR01_hostSaw (s : State) (w v : Word) : (s.withR01 w v).hostSaw = s.hostSaw := rfl
@[simp] theorem State.withR01_readerSaw (s : State) (w v : Word) : (s.withR01 w v).readerSaw = s.readerSaw := rfl

/-! `State.raiseDiag`. -/

@[simp] theorem State.raiseDiag_a0 (s : State) (m : BitVec 9) : (s.raiseDiag m).a0 = s.a0 := rfl
@[simp] theorem State.raiseDiag_a1 (s : State) (m : BitVec 9) : (s.raiseDiag m).a1 = s.a1 := rfl
@[simp] theorem State.raiseDiag_a2 (s : State) (m : BitVec 9) : (s.raiseDiag m).a2 = s.a2 := rfl
@[simp] theorem State.raiseDiag_a3 (s : State) (m : BitVec 9) : (s.raiseDiag m).a3 = s.a3 := rfl
@[simp] theorem State.raiseDiag_a4 (s : State) (m : BitVec 9) : (s.raiseDiag m).a4 = s.a4 := rfl
@[simp] theorem State.raiseDiag_r0 (s : State) (m : BitVec 9) : (s.raiseDiag m).r0 = s.r0 := rfl
@[simp] theorem State.raiseDiag_r1 (s : State) (m : BitVec 9) : (s.raiseDiag m).r1 = s.r1 := rfl
@[simp] theorem State.raiseDiag_mode (s : State) (m : BitVec 9) : (s.raiseDiag m).mode = s.mode := rfl
@[simp] theorem State.raiseDiag_fault (s : State) (m : BitVec 9) : (s.raiseDiag m).fault = s.fault := rfl
@[simp] theorem State.raiseDiag_faultInfo (s : State) (m : BitVec 9) : (s.raiseDiag m).faultInfo = s.faultInfo := rfl
@[simp] theorem State.raiseDiag_diag (s : State) (m : BitVec 9) : (s.raiseDiag m).diag = s.diag ||| m := rfl
@[simp] theorem State.raiseDiag_spaSeq (s : State) (m : BitVec 9) : (s.raiseDiag m).spaSeq = s.spaSeq := rfl
@[simp] theorem State.raiseDiag_ntab (s : State) (m : BitVec 9) : (s.raiseDiag m).ntab = s.ntab := rfl
@[simp] theorem State.raiseDiag_wt (s : State) (m : BitVec 9) : (s.raiseDiag m).wt = s.wt := rfl
@[simp] theorem State.raiseDiag_osc (s : State) (m : BitVec 9) : (s.raiseDiag m).osc = s.osc := rfl
@[simp] theorem State.raiseDiag_env (s : State) (m : BitVec 9) : (s.raiseDiag m).env = s.env := rfl
@[simp] theorem State.raiseDiag_bq (s : State) (m : BitVec 9) : (s.raiseDiag m).bq = s.bq := rfl
@[simp] theorem State.raiseDiag_dl (s : State) (m : BitVec 9) : (s.raiseDiag m).dl = s.dl := rfl
@[simp] theorem State.raiseDiag_rvb (s : State) (m : BitVec 9) : (s.raiseDiag m).rvb = s.rvb := rfl
@[simp] theorem State.raiseDiag_drv (s : State) (m : BitVec 9) : (s.raiseDiag m).drv = s.drv := rfl
@[simp] theorem State.raiseDiag_spa (s : State) (m : BitVec 9) : (s.raiseDiag m).spa = s.spa := rfl
@[simp] theorem State.raiseDiag_spaIn (s : State) (m : BitVec 9) : (s.raiseDiag m).spaIn = s.spaIn := rfl
@[simp] theorem State.raiseDiag_bins (s : State) (m : BitVec 9) : (s.raiseDiag m).bins = s.bins := rfl
@[simp] theorem State.raiseDiag_cfg (s : State) (m : BitVec 9) : (s.raiseDiag m).cfg = s.cfg := rfl
@[simp] theorem State.raiseDiag_draw (s : State) (m : BitVec 9) : (s.raiseDiag m).draw = s.draw := rfl
@[simp] theorem State.raiseDiag_port (s : State) (m : BitVec 9) : (s.raiseDiag m).port = s.port := rfl
@[simp] theorem State.raiseDiag_midSnaps (s : State) (m : BitVec 9) : (s.raiseDiag m).midSnaps = s.midSnaps := rfl
@[simp] theorem State.raiseDiag_hostSaw (s : State) (m : BitVec 9) : (s.raiseDiag m).hostSaw = s.hostSaw := rfl
@[simp] theorem State.raiseDiag_readerSaw (s : State) (m : BitVec 9) : (s.raiseDiag m).readerSaw = s.readerSaw := rfl

/-! `State.ignored`. -/

@[simp] theorem State.ignored_a0 (s : State) (b : DiagBit) : (s.ignored b).a0 = s.a0 := rfl
@[simp] theorem State.ignored_a1 (s : State) (b : DiagBit) : (s.ignored b).a1 = s.a1 := rfl
@[simp] theorem State.ignored_a2 (s : State) (b : DiagBit) : (s.ignored b).a2 = s.a2 := rfl
@[simp] theorem State.ignored_a3 (s : State) (b : DiagBit) : (s.ignored b).a3 = s.a3 := rfl
@[simp] theorem State.ignored_a4 (s : State) (b : DiagBit) : (s.ignored b).a4 = s.a4 := rfl
@[simp] theorem State.ignored_r0 (s : State) (b : DiagBit) : (s.ignored b).r0 = 0#32 := rfl
@[simp] theorem State.ignored_r1 (s : State) (b : DiagBit) : (s.ignored b).r1 = 0#32 := rfl
@[simp] theorem State.ignored_mode (s : State) (b : DiagBit) : (s.ignored b).mode = s.mode := rfl
@[simp] theorem State.ignored_fault (s : State) (b : DiagBit) : (s.ignored b).fault = s.fault := rfl
@[simp] theorem State.ignored_faultInfo (s : State) (b : DiagBit) : (s.ignored b).faultInfo = s.faultInfo := rfl
@[simp] theorem State.ignored_diag (s : State) (b : DiagBit) : (s.ignored b).diag = s.diag ||| b.mask := rfl
@[simp] theorem State.ignored_spaSeq (s : State) (b : DiagBit) : (s.ignored b).spaSeq = s.spaSeq := rfl
@[simp] theorem State.ignored_ntab (s : State) (b : DiagBit) : (s.ignored b).ntab = s.ntab := rfl
@[simp] theorem State.ignored_wt (s : State) (b : DiagBit) : (s.ignored b).wt = s.wt := rfl
@[simp] theorem State.ignored_osc (s : State) (b : DiagBit) : (s.ignored b).osc = s.osc := rfl
@[simp] theorem State.ignored_env (s : State) (b : DiagBit) : (s.ignored b).env = s.env := rfl
@[simp] theorem State.ignored_bq (s : State) (b : DiagBit) : (s.ignored b).bq = s.bq := rfl
@[simp] theorem State.ignored_dl (s : State) (b : DiagBit) : (s.ignored b).dl = s.dl := rfl
@[simp] theorem State.ignored_rvb (s : State) (b : DiagBit) : (s.ignored b).rvb = s.rvb := rfl
@[simp] theorem State.ignored_drv (s : State) (b : DiagBit) : (s.ignored b).drv = s.drv := rfl
@[simp] theorem State.ignored_spa (s : State) (b : DiagBit) : (s.ignored b).spa = s.spa := rfl
@[simp] theorem State.ignored_spaIn (s : State) (b : DiagBit) : (s.ignored b).spaIn = s.spaIn := rfl
@[simp] theorem State.ignored_bins (s : State) (b : DiagBit) : (s.ignored b).bins = s.bins := rfl
@[simp] theorem State.ignored_cfg (s : State) (b : DiagBit) : (s.ignored b).cfg = s.cfg := rfl
@[simp] theorem State.ignored_draw (s : State) (b : DiagBit) : (s.ignored b).draw = s.draw := rfl
@[simp] theorem State.ignored_port (s : State) (b : DiagBit) : (s.ignored b).port = s.port := rfl
@[simp] theorem State.ignored_midSnaps (s : State) (b : DiagBit) : (s.ignored b).midSnaps = s.midSnaps := rfl
@[simp] theorem State.ignored_hostSaw (s : State) (b : DiagBit) : (s.ignored b).hostSaw = s.hostSaw := rfl
@[simp] theorem State.ignored_readerSaw (s : State) (b : DiagBit) : (s.ignored b).readerSaw = s.readerSaw := rfl

/-! `State.faultEntry`. -/

@[simp] theorem State.faultEntry_a0 (s : State) (q : Cause) (c : Word) : (s.faultEntry q c).a0 = s.a0 := rfl
@[simp] theorem State.faultEntry_a1 (s : State) (q : Cause) (c : Word) : (s.faultEntry q c).a1 = s.a1 := rfl
@[simp] theorem State.faultEntry_a2 (s : State) (q : Cause) (c : Word) : (s.faultEntry q c).a2 = s.a2 := rfl
@[simp] theorem State.faultEntry_a3 (s : State) (q : Cause) (c : Word) : (s.faultEntry q c).a3 = s.a3 := rfl
@[simp] theorem State.faultEntry_a4 (s : State) (q : Cause) (c : Word) : (s.faultEntry q c).a4 = s.a4 := rfl
@[simp] theorem State.faultEntry_r0 (s : State) (q : Cause) (c : Word) : (s.faultEntry q c).r0 = 0#32 := rfl
@[simp] theorem State.faultEntry_r1 (s : State) (q : Cause) (c : Word) : (s.faultEntry q c).r1 = 0#32 := rfl
@[simp] theorem State.faultEntry_mode (s : State) (q : Cause) (c : Word) : (s.faultEntry q c).mode = .faulted := rfl
@[simp] theorem State.faultEntry_fault (s : State) (q : Cause) (c : Word) : (s.faultEntry q c).fault = q := rfl
@[simp] theorem State.faultEntry_faultInfo (s : State) (q : Cause) (c : Word) : (s.faultEntry q c).faultInfo = c := rfl
@[simp] theorem State.faultEntry_diag (s : State) (q : Cause) (c : Word) : (s.faultEntry q c).diag = s.diag := rfl
@[simp] theorem State.faultEntry_spaSeq (s : State) (q : Cause) (c : Word) : (s.faultEntry q c).spaSeq = s.spaSeq := rfl
@[simp] theorem State.faultEntry_ntab (s : State) (q : Cause) (c : Word) : (s.faultEntry q c).ntab = s.ntab := rfl
@[simp] theorem State.faultEntry_wt (s : State) (q : Cause) (c : Word) : (s.faultEntry q c).wt = s.wt := rfl
@[simp] theorem State.faultEntry_osc (s : State) (q : Cause) (c : Word) : (s.faultEntry q c).osc = s.osc := rfl
@[simp] theorem State.faultEntry_env (s : State) (q : Cause) (c : Word) : (s.faultEntry q c).env = s.env := rfl
@[simp] theorem State.faultEntry_bq (s : State) (q : Cause) (c : Word) : (s.faultEntry q c).bq = s.bq := rfl
@[simp] theorem State.faultEntry_dl (s : State) (q : Cause) (c : Word) : (s.faultEntry q c).dl = s.dl := rfl
@[simp] theorem State.faultEntry_rvb (s : State) (q : Cause) (c : Word) : (s.faultEntry q c).rvb = s.rvb := rfl
@[simp] theorem State.faultEntry_drv (s : State) (q : Cause) (c : Word) : (s.faultEntry q c).drv = s.drv := rfl
@[simp] theorem State.faultEntry_spa (s : State) (q : Cause) (c : Word) : (s.faultEntry q c).spa = s.spa := rfl
@[simp] theorem State.faultEntry_spaIn (s : State) (q : Cause) (c : Word) : (s.faultEntry q c).spaIn = s.spaIn := rfl
@[simp] theorem State.faultEntry_bins (s : State) (q : Cause) (c : Word) : (s.faultEntry q c).bins = s.bins := rfl
@[simp] theorem State.faultEntry_cfg (s : State) (q : Cause) (c : Word) : (s.faultEntry q c).cfg = s.cfg := rfl
@[simp] theorem State.faultEntry_draw (s : State) (q : Cause) (c : Word) : (s.faultEntry q c).draw = s.draw := rfl
@[simp] theorem State.faultEntry_port (s : State) (q : Cause) (c : Word) : (s.faultEntry q c).port = s.port := rfl
@[simp] theorem State.faultEntry_midSnaps (s : State) (q : Cause) (c : Word) : (s.faultEntry q c).midSnaps = s.midSnaps := rfl
@[simp] theorem State.faultEntry_hostSaw (s : State) (q : Cause) (c : Word) : (s.faultEntry q c).hostSaw = s.hostSaw := rfl
@[simp] theorem State.faultEntry_readerSaw (s : State) (q : Cause) (c : Word) : (s.faultEntry q c).readerSaw = s.readerSaw := rfl

/-! `State.setNtab`. -/

@[simp] theorem State.setNtab_a0 (s : State) (b n : Nat) : (s.setNtab b n).a0 = s.a0 := rfl
@[simp] theorem State.setNtab_a1 (s : State) (b n : Nat) : (s.setNtab b n).a1 = s.a1 := rfl
@[simp] theorem State.setNtab_a2 (s : State) (b n : Nat) : (s.setNtab b n).a2 = s.a2 := rfl
@[simp] theorem State.setNtab_a3 (s : State) (b n : Nat) : (s.setNtab b n).a3 = s.a3 := rfl
@[simp] theorem State.setNtab_a4 (s : State) (b n : Nat) : (s.setNtab b n).a4 = s.a4 := rfl
@[simp] theorem State.setNtab_r0 (s : State) (b n : Nat) : (s.setNtab b n).r0 = s.r0 := rfl
@[simp] theorem State.setNtab_r1 (s : State) (b n : Nat) : (s.setNtab b n).r1 = s.r1 := rfl
@[simp] theorem State.setNtab_mode (s : State) (b n : Nat) : (s.setNtab b n).mode = s.mode := rfl
@[simp] theorem State.setNtab_fault (s : State) (b n : Nat) : (s.setNtab b n).fault = s.fault := rfl
@[simp] theorem State.setNtab_faultInfo (s : State) (b n : Nat) : (s.setNtab b n).faultInfo = s.faultInfo := rfl
@[simp] theorem State.setNtab_diag (s : State) (b n : Nat) : (s.setNtab b n).diag = s.diag := rfl
@[simp] theorem State.setNtab_spaSeq (s : State) (b n : Nat) : (s.setNtab b n).spaSeq = s.spaSeq := rfl
@[simp] theorem State.setNtab_ntab (s : State) (b n : Nat) : (s.setNtab b n).ntab = s.ntab.set b n := rfl
@[simp] theorem State.setNtab_wt (s : State) (b n : Nat) : (s.setNtab b n).wt = s.wt := rfl
@[simp] theorem State.setNtab_osc (s : State) (b n : Nat) : (s.setNtab b n).osc = s.osc := rfl
@[simp] theorem State.setNtab_env (s : State) (b n : Nat) : (s.setNtab b n).env = s.env := rfl
@[simp] theorem State.setNtab_bq (s : State) (b n : Nat) : (s.setNtab b n).bq = s.bq := rfl
@[simp] theorem State.setNtab_dl (s : State) (b n : Nat) : (s.setNtab b n).dl = s.dl := rfl
@[simp] theorem State.setNtab_rvb (s : State) (b n : Nat) : (s.setNtab b n).rvb = s.rvb := rfl
@[simp] theorem State.setNtab_drv (s : State) (b n : Nat) : (s.setNtab b n).drv = s.drv := rfl
@[simp] theorem State.setNtab_spa (s : State) (b n : Nat) : (s.setNtab b n).spa = s.spa := rfl
@[simp] theorem State.setNtab_spaIn (s : State) (b n : Nat) : (s.setNtab b n).spaIn = s.spaIn := rfl
@[simp] theorem State.setNtab_bins (s : State) (b n : Nat) : (s.setNtab b n).bins = s.bins := rfl
@[simp] theorem State.setNtab_cfg (s : State) (b n : Nat) : (s.setNtab b n).cfg = s.cfg := rfl
@[simp] theorem State.setNtab_draw (s : State) (b n : Nat) : (s.setNtab b n).draw = s.draw := rfl
@[simp] theorem State.setNtab_port (s : State) (b n : Nat) : (s.setNtab b n).port = s.port := rfl
@[simp] theorem State.setNtab_midSnaps (s : State) (b n : Nat) : (s.setNtab b n).midSnaps = s.midSnaps := rfl
@[simp] theorem State.setNtab_hostSaw (s : State) (b n : Nat) : (s.setNtab b n).hostSaw = s.hostSaw := rfl
@[simp] theorem State.setNtab_readerSaw (s : State) (b n : Nat) : (s.setNtab b n).readerSaw = s.readerSaw := rfl

/-! `State.setCell`. -/

@[simp] theorem State.setCell_a0 (s : State) (b t i : Nat) (v : Word) : (s.setCell b t i v).a0 = s.a0 := rfl
@[simp] theorem State.setCell_a1 (s : State) (b t i : Nat) (v : Word) : (s.setCell b t i v).a1 = s.a1 := rfl
@[simp] theorem State.setCell_a2 (s : State) (b t i : Nat) (v : Word) : (s.setCell b t i v).a2 = s.a2 := rfl
@[simp] theorem State.setCell_a3 (s : State) (b t i : Nat) (v : Word) : (s.setCell b t i v).a3 = s.a3 := rfl
@[simp] theorem State.setCell_a4 (s : State) (b t i : Nat) (v : Word) : (s.setCell b t i v).a4 = s.a4 := rfl
@[simp] theorem State.setCell_r0 (s : State) (b t i : Nat) (v : Word) : (s.setCell b t i v).r0 = s.r0 := rfl
@[simp] theorem State.setCell_r1 (s : State) (b t i : Nat) (v : Word) : (s.setCell b t i v).r1 = s.r1 := rfl
@[simp] theorem State.setCell_mode (s : State) (b t i : Nat) (v : Word) : (s.setCell b t i v).mode = s.mode := rfl
@[simp] theorem State.setCell_fault (s : State) (b t i : Nat) (v : Word) : (s.setCell b t i v).fault = s.fault := rfl
@[simp] theorem State.setCell_faultInfo (s : State) (b t i : Nat) (v : Word) : (s.setCell b t i v).faultInfo = s.faultInfo := rfl
@[simp] theorem State.setCell_diag (s : State) (b t i : Nat) (v : Word) : (s.setCell b t i v).diag = s.diag := rfl
@[simp] theorem State.setCell_spaSeq (s : State) (b t i : Nat) (v : Word) : (s.setCell b t i v).spaSeq = s.spaSeq := rfl
@[simp] theorem State.setCell_ntab (s : State) (b t i : Nat) (v : Word) : (s.setCell b t i v).ntab = s.ntab := rfl
@[simp] theorem State.setCell_wt (s : State) (b t i : Nat) (v : Word) : (s.setCell b t i v).wt = Memory.write storeBlank s.wt (s.cfg.cellKey b t i) v := rfl
@[simp] theorem State.setCell_osc (s : State) (b t i : Nat) (v : Word) : (s.setCell b t i v).osc = s.osc := rfl
@[simp] theorem State.setCell_env (s : State) (b t i : Nat) (v : Word) : (s.setCell b t i v).env = s.env := rfl
@[simp] theorem State.setCell_bq (s : State) (b t i : Nat) (v : Word) : (s.setCell b t i v).bq = s.bq := rfl
@[simp] theorem State.setCell_dl (s : State) (b t i : Nat) (v : Word) : (s.setCell b t i v).dl = s.dl := rfl
@[simp] theorem State.setCell_rvb (s : State) (b t i : Nat) (v : Word) : (s.setCell b t i v).rvb = s.rvb := rfl
@[simp] theorem State.setCell_drv (s : State) (b t i : Nat) (v : Word) : (s.setCell b t i v).drv = s.drv := rfl
@[simp] theorem State.setCell_spa (s : State) (b t i : Nat) (v : Word) : (s.setCell b t i v).spa = s.spa := rfl
@[simp] theorem State.setCell_spaIn (s : State) (b t i : Nat) (v : Word) : (s.setCell b t i v).spaIn = s.spaIn := rfl
@[simp] theorem State.setCell_bins (s : State) (b t i : Nat) (v : Word) : (s.setCell b t i v).bins = s.bins := rfl
@[simp] theorem State.setCell_cfg (s : State) (b t i : Nat) (v : Word) : (s.setCell b t i v).cfg = s.cfg := rfl
@[simp] theorem State.setCell_draw (s : State) (b t i : Nat) (v : Word) : (s.setCell b t i v).draw = s.draw := rfl
@[simp] theorem State.setCell_port (s : State) (b t i : Nat) (v : Word) : (s.setCell b t i v).port = s.port := rfl
@[simp] theorem State.setCell_midSnaps (s : State) (b t i : Nat) (v : Word) : (s.setCell b t i v).midSnaps = s.midSnaps := rfl
@[simp] theorem State.setCell_hostSaw (s : State) (b t i : Nat) (v : Word) : (s.setCell b t i v).hostSaw = s.hostSaw := rfl
@[simp] theorem State.setCell_readerSaw (s : State) (b t i : Nat) (v : Word) : (s.setCell b t i v).readerSaw = s.readerSaw := rfl

/-! `State.setOsc`. -/

@[simp] theorem State.setOsc_a0 (s : State) (j : Nat) (x : Osc Word) : (s.setOsc j x).a0 = s.a0 := rfl
@[simp] theorem State.setOsc_a1 (s : State) (j : Nat) (x : Osc Word) : (s.setOsc j x).a1 = s.a1 := rfl
@[simp] theorem State.setOsc_a2 (s : State) (j : Nat) (x : Osc Word) : (s.setOsc j x).a2 = s.a2 := rfl
@[simp] theorem State.setOsc_a3 (s : State) (j : Nat) (x : Osc Word) : (s.setOsc j x).a3 = s.a3 := rfl
@[simp] theorem State.setOsc_a4 (s : State) (j : Nat) (x : Osc Word) : (s.setOsc j x).a4 = s.a4 := rfl
@[simp] theorem State.setOsc_r0 (s : State) (j : Nat) (x : Osc Word) : (s.setOsc j x).r0 = s.r0 := rfl
@[simp] theorem State.setOsc_r1 (s : State) (j : Nat) (x : Osc Word) : (s.setOsc j x).r1 = s.r1 := rfl
@[simp] theorem State.setOsc_mode (s : State) (j : Nat) (x : Osc Word) : (s.setOsc j x).mode = s.mode := rfl
@[simp] theorem State.setOsc_fault (s : State) (j : Nat) (x : Osc Word) : (s.setOsc j x).fault = s.fault := rfl
@[simp] theorem State.setOsc_faultInfo (s : State) (j : Nat) (x : Osc Word) : (s.setOsc j x).faultInfo = s.faultInfo := rfl
@[simp] theorem State.setOsc_diag (s : State) (j : Nat) (x : Osc Word) : (s.setOsc j x).diag = s.diag := rfl
@[simp] theorem State.setOsc_spaSeq (s : State) (j : Nat) (x : Osc Word) : (s.setOsc j x).spaSeq = s.spaSeq := rfl
@[simp] theorem State.setOsc_ntab (s : State) (j : Nat) (x : Osc Word) : (s.setOsc j x).ntab = s.ntab := rfl
@[simp] theorem State.setOsc_wt (s : State) (j : Nat) (x : Osc Word) : (s.setOsc j x).wt = s.wt := rfl
@[simp] theorem State.setOsc_osc (s : State) (j : Nat) (x : Osc Word) : (s.setOsc j x).osc = s.osc.set j x := rfl
@[simp] theorem State.setOsc_env (s : State) (j : Nat) (x : Osc Word) : (s.setOsc j x).env = s.env := rfl
@[simp] theorem State.setOsc_bq (s : State) (j : Nat) (x : Osc Word) : (s.setOsc j x).bq = s.bq := rfl
@[simp] theorem State.setOsc_dl (s : State) (j : Nat) (x : Osc Word) : (s.setOsc j x).dl = s.dl := rfl
@[simp] theorem State.setOsc_rvb (s : State) (j : Nat) (x : Osc Word) : (s.setOsc j x).rvb = s.rvb := rfl
@[simp] theorem State.setOsc_drv (s : State) (j : Nat) (x : Osc Word) : (s.setOsc j x).drv = s.drv := rfl
@[simp] theorem State.setOsc_spa (s : State) (j : Nat) (x : Osc Word) : (s.setOsc j x).spa = s.spa := rfl
@[simp] theorem State.setOsc_spaIn (s : State) (j : Nat) (x : Osc Word) : (s.setOsc j x).spaIn = s.spaIn := rfl
@[simp] theorem State.setOsc_bins (s : State) (j : Nat) (x : Osc Word) : (s.setOsc j x).bins = s.bins := rfl
@[simp] theorem State.setOsc_cfg (s : State) (j : Nat) (x : Osc Word) : (s.setOsc j x).cfg = s.cfg := rfl
@[simp] theorem State.setOsc_draw (s : State) (j : Nat) (x : Osc Word) : (s.setOsc j x).draw = s.draw := rfl
@[simp] theorem State.setOsc_port (s : State) (j : Nat) (x : Osc Word) : (s.setOsc j x).port = s.port := rfl
@[simp] theorem State.setOsc_midSnaps (s : State) (j : Nat) (x : Osc Word) : (s.setOsc j x).midSnaps = s.midSnaps := rfl
@[simp] theorem State.setOsc_hostSaw (s : State) (j : Nat) (x : Osc Word) : (s.setOsc j x).hostSaw = s.hostSaw := rfl
@[simp] theorem State.setOsc_readerSaw (s : State) (j : Nat) (x : Osc Word) : (s.setOsc j x).readerSaw = s.readerSaw := rfl

/-! `State.setEnv`. -/

@[simp] theorem State.setEnv_a0 (s : State) (j : Nat) (x : Env Word) : (s.setEnv j x).a0 = s.a0 := rfl
@[simp] theorem State.setEnv_a1 (s : State) (j : Nat) (x : Env Word) : (s.setEnv j x).a1 = s.a1 := rfl
@[simp] theorem State.setEnv_a2 (s : State) (j : Nat) (x : Env Word) : (s.setEnv j x).a2 = s.a2 := rfl
@[simp] theorem State.setEnv_a3 (s : State) (j : Nat) (x : Env Word) : (s.setEnv j x).a3 = s.a3 := rfl
@[simp] theorem State.setEnv_a4 (s : State) (j : Nat) (x : Env Word) : (s.setEnv j x).a4 = s.a4 := rfl
@[simp] theorem State.setEnv_r0 (s : State) (j : Nat) (x : Env Word) : (s.setEnv j x).r0 = s.r0 := rfl
@[simp] theorem State.setEnv_r1 (s : State) (j : Nat) (x : Env Word) : (s.setEnv j x).r1 = s.r1 := rfl
@[simp] theorem State.setEnv_mode (s : State) (j : Nat) (x : Env Word) : (s.setEnv j x).mode = s.mode := rfl
@[simp] theorem State.setEnv_fault (s : State) (j : Nat) (x : Env Word) : (s.setEnv j x).fault = s.fault := rfl
@[simp] theorem State.setEnv_faultInfo (s : State) (j : Nat) (x : Env Word) : (s.setEnv j x).faultInfo = s.faultInfo := rfl
@[simp] theorem State.setEnv_diag (s : State) (j : Nat) (x : Env Word) : (s.setEnv j x).diag = s.diag := rfl
@[simp] theorem State.setEnv_spaSeq (s : State) (j : Nat) (x : Env Word) : (s.setEnv j x).spaSeq = s.spaSeq := rfl
@[simp] theorem State.setEnv_ntab (s : State) (j : Nat) (x : Env Word) : (s.setEnv j x).ntab = s.ntab := rfl
@[simp] theorem State.setEnv_wt (s : State) (j : Nat) (x : Env Word) : (s.setEnv j x).wt = s.wt := rfl
@[simp] theorem State.setEnv_osc (s : State) (j : Nat) (x : Env Word) : (s.setEnv j x).osc = s.osc := rfl
@[simp] theorem State.setEnv_env (s : State) (j : Nat) (x : Env Word) : (s.setEnv j x).env = s.env.set j x := rfl
@[simp] theorem State.setEnv_bq (s : State) (j : Nat) (x : Env Word) : (s.setEnv j x).bq = s.bq := rfl
@[simp] theorem State.setEnv_dl (s : State) (j : Nat) (x : Env Word) : (s.setEnv j x).dl = s.dl := rfl
@[simp] theorem State.setEnv_rvb (s : State) (j : Nat) (x : Env Word) : (s.setEnv j x).rvb = s.rvb := rfl
@[simp] theorem State.setEnv_drv (s : State) (j : Nat) (x : Env Word) : (s.setEnv j x).drv = s.drv := rfl
@[simp] theorem State.setEnv_spa (s : State) (j : Nat) (x : Env Word) : (s.setEnv j x).spa = s.spa := rfl
@[simp] theorem State.setEnv_spaIn (s : State) (j : Nat) (x : Env Word) : (s.setEnv j x).spaIn = s.spaIn := rfl
@[simp] theorem State.setEnv_bins (s : State) (j : Nat) (x : Env Word) : (s.setEnv j x).bins = s.bins := rfl
@[simp] theorem State.setEnv_cfg (s : State) (j : Nat) (x : Env Word) : (s.setEnv j x).cfg = s.cfg := rfl
@[simp] theorem State.setEnv_draw (s : State) (j : Nat) (x : Env Word) : (s.setEnv j x).draw = s.draw := rfl
@[simp] theorem State.setEnv_port (s : State) (j : Nat) (x : Env Word) : (s.setEnv j x).port = s.port := rfl
@[simp] theorem State.setEnv_midSnaps (s : State) (j : Nat) (x : Env Word) : (s.setEnv j x).midSnaps = s.midSnaps := rfl
@[simp] theorem State.setEnv_hostSaw (s : State) (j : Nat) (x : Env Word) : (s.setEnv j x).hostSaw = s.hostSaw := rfl
@[simp] theorem State.setEnv_readerSaw (s : State) (j : Nat) (x : Env Word) : (s.setEnv j x).readerSaw = s.readerSaw := rfl

/-! `State.setBq`. -/

@[simp] theorem State.setBq_a0 (s : State) (j : Nat) (x : Biquad Word) : (s.setBq j x).a0 = s.a0 := rfl
@[simp] theorem State.setBq_a1 (s : State) (j : Nat) (x : Biquad Word) : (s.setBq j x).a1 = s.a1 := rfl
@[simp] theorem State.setBq_a2 (s : State) (j : Nat) (x : Biquad Word) : (s.setBq j x).a2 = s.a2 := rfl
@[simp] theorem State.setBq_a3 (s : State) (j : Nat) (x : Biquad Word) : (s.setBq j x).a3 = s.a3 := rfl
@[simp] theorem State.setBq_a4 (s : State) (j : Nat) (x : Biquad Word) : (s.setBq j x).a4 = s.a4 := rfl
@[simp] theorem State.setBq_r0 (s : State) (j : Nat) (x : Biquad Word) : (s.setBq j x).r0 = s.r0 := rfl
@[simp] theorem State.setBq_r1 (s : State) (j : Nat) (x : Biquad Word) : (s.setBq j x).r1 = s.r1 := rfl
@[simp] theorem State.setBq_mode (s : State) (j : Nat) (x : Biquad Word) : (s.setBq j x).mode = s.mode := rfl
@[simp] theorem State.setBq_fault (s : State) (j : Nat) (x : Biquad Word) : (s.setBq j x).fault = s.fault := rfl
@[simp] theorem State.setBq_faultInfo (s : State) (j : Nat) (x : Biquad Word) : (s.setBq j x).faultInfo = s.faultInfo := rfl
@[simp] theorem State.setBq_diag (s : State) (j : Nat) (x : Biquad Word) : (s.setBq j x).diag = s.diag := rfl
@[simp] theorem State.setBq_spaSeq (s : State) (j : Nat) (x : Biquad Word) : (s.setBq j x).spaSeq = s.spaSeq := rfl
@[simp] theorem State.setBq_ntab (s : State) (j : Nat) (x : Biquad Word) : (s.setBq j x).ntab = s.ntab := rfl
@[simp] theorem State.setBq_wt (s : State) (j : Nat) (x : Biquad Word) : (s.setBq j x).wt = s.wt := rfl
@[simp] theorem State.setBq_osc (s : State) (j : Nat) (x : Biquad Word) : (s.setBq j x).osc = s.osc := rfl
@[simp] theorem State.setBq_env (s : State) (j : Nat) (x : Biquad Word) : (s.setBq j x).env = s.env := rfl
@[simp] theorem State.setBq_bq (s : State) (j : Nat) (x : Biquad Word) : (s.setBq j x).bq = s.bq.set j x := rfl
@[simp] theorem State.setBq_dl (s : State) (j : Nat) (x : Biquad Word) : (s.setBq j x).dl = s.dl := rfl
@[simp] theorem State.setBq_rvb (s : State) (j : Nat) (x : Biquad Word) : (s.setBq j x).rvb = s.rvb := rfl
@[simp] theorem State.setBq_drv (s : State) (j : Nat) (x : Biquad Word) : (s.setBq j x).drv = s.drv := rfl
@[simp] theorem State.setBq_spa (s : State) (j : Nat) (x : Biquad Word) : (s.setBq j x).spa = s.spa := rfl
@[simp] theorem State.setBq_spaIn (s : State) (j : Nat) (x : Biquad Word) : (s.setBq j x).spaIn = s.spaIn := rfl
@[simp] theorem State.setBq_bins (s : State) (j : Nat) (x : Biquad Word) : (s.setBq j x).bins = s.bins := rfl
@[simp] theorem State.setBq_cfg (s : State) (j : Nat) (x : Biquad Word) : (s.setBq j x).cfg = s.cfg := rfl
@[simp] theorem State.setBq_draw (s : State) (j : Nat) (x : Biquad Word) : (s.setBq j x).draw = s.draw := rfl
@[simp] theorem State.setBq_port (s : State) (j : Nat) (x : Biquad Word) : (s.setBq j x).port = s.port := rfl
@[simp] theorem State.setBq_midSnaps (s : State) (j : Nat) (x : Biquad Word) : (s.setBq j x).midSnaps = s.midSnaps := rfl
@[simp] theorem State.setBq_hostSaw (s : State) (j : Nat) (x : Biquad Word) : (s.setBq j x).hostSaw = s.hostSaw := rfl
@[simp] theorem State.setBq_readerSaw (s : State) (j : Nat) (x : Biquad Word) : (s.setBq j x).readerSaw = s.readerSaw := rfl

/-! `State.setDl`. -/

@[simp] theorem State.setDl_a0 (s : State) (j : Nat) (x : DelayLine Word) : (s.setDl j x).a0 = s.a0 := rfl
@[simp] theorem State.setDl_a1 (s : State) (j : Nat) (x : DelayLine Word) : (s.setDl j x).a1 = s.a1 := rfl
@[simp] theorem State.setDl_a2 (s : State) (j : Nat) (x : DelayLine Word) : (s.setDl j x).a2 = s.a2 := rfl
@[simp] theorem State.setDl_a3 (s : State) (j : Nat) (x : DelayLine Word) : (s.setDl j x).a3 = s.a3 := rfl
@[simp] theorem State.setDl_a4 (s : State) (j : Nat) (x : DelayLine Word) : (s.setDl j x).a4 = s.a4 := rfl
@[simp] theorem State.setDl_r0 (s : State) (j : Nat) (x : DelayLine Word) : (s.setDl j x).r0 = s.r0 := rfl
@[simp] theorem State.setDl_r1 (s : State) (j : Nat) (x : DelayLine Word) : (s.setDl j x).r1 = s.r1 := rfl
@[simp] theorem State.setDl_mode (s : State) (j : Nat) (x : DelayLine Word) : (s.setDl j x).mode = s.mode := rfl
@[simp] theorem State.setDl_fault (s : State) (j : Nat) (x : DelayLine Word) : (s.setDl j x).fault = s.fault := rfl
@[simp] theorem State.setDl_faultInfo (s : State) (j : Nat) (x : DelayLine Word) : (s.setDl j x).faultInfo = s.faultInfo := rfl
@[simp] theorem State.setDl_diag (s : State) (j : Nat) (x : DelayLine Word) : (s.setDl j x).diag = s.diag := rfl
@[simp] theorem State.setDl_spaSeq (s : State) (j : Nat) (x : DelayLine Word) : (s.setDl j x).spaSeq = s.spaSeq := rfl
@[simp] theorem State.setDl_ntab (s : State) (j : Nat) (x : DelayLine Word) : (s.setDl j x).ntab = s.ntab := rfl
@[simp] theorem State.setDl_wt (s : State) (j : Nat) (x : DelayLine Word) : (s.setDl j x).wt = s.wt := rfl
@[simp] theorem State.setDl_osc (s : State) (j : Nat) (x : DelayLine Word) : (s.setDl j x).osc = s.osc := rfl
@[simp] theorem State.setDl_env (s : State) (j : Nat) (x : DelayLine Word) : (s.setDl j x).env = s.env := rfl
@[simp] theorem State.setDl_bq (s : State) (j : Nat) (x : DelayLine Word) : (s.setDl j x).bq = s.bq := rfl
@[simp] theorem State.setDl_dl (s : State) (j : Nat) (x : DelayLine Word) : (s.setDl j x).dl = s.dl.set j x := rfl
@[simp] theorem State.setDl_rvb (s : State) (j : Nat) (x : DelayLine Word) : (s.setDl j x).rvb = s.rvb := rfl
@[simp] theorem State.setDl_drv (s : State) (j : Nat) (x : DelayLine Word) : (s.setDl j x).drv = s.drv := rfl
@[simp] theorem State.setDl_spa (s : State) (j : Nat) (x : DelayLine Word) : (s.setDl j x).spa = s.spa := rfl
@[simp] theorem State.setDl_spaIn (s : State) (j : Nat) (x : DelayLine Word) : (s.setDl j x).spaIn = s.spaIn := rfl
@[simp] theorem State.setDl_bins (s : State) (j : Nat) (x : DelayLine Word) : (s.setDl j x).bins = s.bins := rfl
@[simp] theorem State.setDl_cfg (s : State) (j : Nat) (x : DelayLine Word) : (s.setDl j x).cfg = s.cfg := rfl
@[simp] theorem State.setDl_draw (s : State) (j : Nat) (x : DelayLine Word) : (s.setDl j x).draw = s.draw := rfl
@[simp] theorem State.setDl_port (s : State) (j : Nat) (x : DelayLine Word) : (s.setDl j x).port = s.port := rfl
@[simp] theorem State.setDl_midSnaps (s : State) (j : Nat) (x : DelayLine Word) : (s.setDl j x).midSnaps = s.midSnaps := rfl
@[simp] theorem State.setDl_hostSaw (s : State) (j : Nat) (x : DelayLine Word) : (s.setDl j x).hostSaw = s.hostSaw := rfl
@[simp] theorem State.setDl_readerSaw (s : State) (j : Nat) (x : DelayLine Word) : (s.setDl j x).readerSaw = s.readerSaw := rfl

/-! `State.setRvb`. -/

@[simp] theorem State.setRvb_a0 (s : State) (j : Nat) (x : Reverb Word) : (s.setRvb j x).a0 = s.a0 := rfl
@[simp] theorem State.setRvb_a1 (s : State) (j : Nat) (x : Reverb Word) : (s.setRvb j x).a1 = s.a1 := rfl
@[simp] theorem State.setRvb_a2 (s : State) (j : Nat) (x : Reverb Word) : (s.setRvb j x).a2 = s.a2 := rfl
@[simp] theorem State.setRvb_a3 (s : State) (j : Nat) (x : Reverb Word) : (s.setRvb j x).a3 = s.a3 := rfl
@[simp] theorem State.setRvb_a4 (s : State) (j : Nat) (x : Reverb Word) : (s.setRvb j x).a4 = s.a4 := rfl
@[simp] theorem State.setRvb_r0 (s : State) (j : Nat) (x : Reverb Word) : (s.setRvb j x).r0 = s.r0 := rfl
@[simp] theorem State.setRvb_r1 (s : State) (j : Nat) (x : Reverb Word) : (s.setRvb j x).r1 = s.r1 := rfl
@[simp] theorem State.setRvb_mode (s : State) (j : Nat) (x : Reverb Word) : (s.setRvb j x).mode = s.mode := rfl
@[simp] theorem State.setRvb_fault (s : State) (j : Nat) (x : Reverb Word) : (s.setRvb j x).fault = s.fault := rfl
@[simp] theorem State.setRvb_faultInfo (s : State) (j : Nat) (x : Reverb Word) : (s.setRvb j x).faultInfo = s.faultInfo := rfl
@[simp] theorem State.setRvb_diag (s : State) (j : Nat) (x : Reverb Word) : (s.setRvb j x).diag = s.diag := rfl
@[simp] theorem State.setRvb_spaSeq (s : State) (j : Nat) (x : Reverb Word) : (s.setRvb j x).spaSeq = s.spaSeq := rfl
@[simp] theorem State.setRvb_ntab (s : State) (j : Nat) (x : Reverb Word) : (s.setRvb j x).ntab = s.ntab := rfl
@[simp] theorem State.setRvb_wt (s : State) (j : Nat) (x : Reverb Word) : (s.setRvb j x).wt = s.wt := rfl
@[simp] theorem State.setRvb_osc (s : State) (j : Nat) (x : Reverb Word) : (s.setRvb j x).osc = s.osc := rfl
@[simp] theorem State.setRvb_env (s : State) (j : Nat) (x : Reverb Word) : (s.setRvb j x).env = s.env := rfl
@[simp] theorem State.setRvb_bq (s : State) (j : Nat) (x : Reverb Word) : (s.setRvb j x).bq = s.bq := rfl
@[simp] theorem State.setRvb_dl (s : State) (j : Nat) (x : Reverb Word) : (s.setRvb j x).dl = s.dl := rfl
@[simp] theorem State.setRvb_rvb (s : State) (j : Nat) (x : Reverb Word) : (s.setRvb j x).rvb = s.rvb.set j x := rfl
@[simp] theorem State.setRvb_drv (s : State) (j : Nat) (x : Reverb Word) : (s.setRvb j x).drv = s.drv := rfl
@[simp] theorem State.setRvb_spa (s : State) (j : Nat) (x : Reverb Word) : (s.setRvb j x).spa = s.spa := rfl
@[simp] theorem State.setRvb_spaIn (s : State) (j : Nat) (x : Reverb Word) : (s.setRvb j x).spaIn = s.spaIn := rfl
@[simp] theorem State.setRvb_bins (s : State) (j : Nat) (x : Reverb Word) : (s.setRvb j x).bins = s.bins := rfl
@[simp] theorem State.setRvb_cfg (s : State) (j : Nat) (x : Reverb Word) : (s.setRvb j x).cfg = s.cfg := rfl
@[simp] theorem State.setRvb_draw (s : State) (j : Nat) (x : Reverb Word) : (s.setRvb j x).draw = s.draw := rfl
@[simp] theorem State.setRvb_port (s : State) (j : Nat) (x : Reverb Word) : (s.setRvb j x).port = s.port := rfl
@[simp] theorem State.setRvb_midSnaps (s : State) (j : Nat) (x : Reverb Word) : (s.setRvb j x).midSnaps = s.midSnaps := rfl
@[simp] theorem State.setRvb_hostSaw (s : State) (j : Nat) (x : Reverb Word) : (s.setRvb j x).hostSaw = s.hostSaw := rfl
@[simp] theorem State.setRvb_readerSaw (s : State) (j : Nat) (x : Reverb Word) : (s.setRvb j x).readerSaw = s.readerSaw := rfl

/-! `State.setDrv`. -/

@[simp] theorem State.setDrv_a0 (s : State) (j : Nat) (x : Drive Word) : (s.setDrv j x).a0 = s.a0 := rfl
@[simp] theorem State.setDrv_a1 (s : State) (j : Nat) (x : Drive Word) : (s.setDrv j x).a1 = s.a1 := rfl
@[simp] theorem State.setDrv_a2 (s : State) (j : Nat) (x : Drive Word) : (s.setDrv j x).a2 = s.a2 := rfl
@[simp] theorem State.setDrv_a3 (s : State) (j : Nat) (x : Drive Word) : (s.setDrv j x).a3 = s.a3 := rfl
@[simp] theorem State.setDrv_a4 (s : State) (j : Nat) (x : Drive Word) : (s.setDrv j x).a4 = s.a4 := rfl
@[simp] theorem State.setDrv_r0 (s : State) (j : Nat) (x : Drive Word) : (s.setDrv j x).r0 = s.r0 := rfl
@[simp] theorem State.setDrv_r1 (s : State) (j : Nat) (x : Drive Word) : (s.setDrv j x).r1 = s.r1 := rfl
@[simp] theorem State.setDrv_mode (s : State) (j : Nat) (x : Drive Word) : (s.setDrv j x).mode = s.mode := rfl
@[simp] theorem State.setDrv_fault (s : State) (j : Nat) (x : Drive Word) : (s.setDrv j x).fault = s.fault := rfl
@[simp] theorem State.setDrv_faultInfo (s : State) (j : Nat) (x : Drive Word) : (s.setDrv j x).faultInfo = s.faultInfo := rfl
@[simp] theorem State.setDrv_diag (s : State) (j : Nat) (x : Drive Word) : (s.setDrv j x).diag = s.diag := rfl
@[simp] theorem State.setDrv_spaSeq (s : State) (j : Nat) (x : Drive Word) : (s.setDrv j x).spaSeq = s.spaSeq := rfl
@[simp] theorem State.setDrv_ntab (s : State) (j : Nat) (x : Drive Word) : (s.setDrv j x).ntab = s.ntab := rfl
@[simp] theorem State.setDrv_wt (s : State) (j : Nat) (x : Drive Word) : (s.setDrv j x).wt = s.wt := rfl
@[simp] theorem State.setDrv_osc (s : State) (j : Nat) (x : Drive Word) : (s.setDrv j x).osc = s.osc := rfl
@[simp] theorem State.setDrv_env (s : State) (j : Nat) (x : Drive Word) : (s.setDrv j x).env = s.env := rfl
@[simp] theorem State.setDrv_bq (s : State) (j : Nat) (x : Drive Word) : (s.setDrv j x).bq = s.bq := rfl
@[simp] theorem State.setDrv_dl (s : State) (j : Nat) (x : Drive Word) : (s.setDrv j x).dl = s.dl := rfl
@[simp] theorem State.setDrv_rvb (s : State) (j : Nat) (x : Drive Word) : (s.setDrv j x).rvb = s.rvb := rfl
@[simp] theorem State.setDrv_drv (s : State) (j : Nat) (x : Drive Word) : (s.setDrv j x).drv = s.drv.set j x := rfl
@[simp] theorem State.setDrv_spa (s : State) (j : Nat) (x : Drive Word) : (s.setDrv j x).spa = s.spa := rfl
@[simp] theorem State.setDrv_spaIn (s : State) (j : Nat) (x : Drive Word) : (s.setDrv j x).spaIn = s.spaIn := rfl
@[simp] theorem State.setDrv_bins (s : State) (j : Nat) (x : Drive Word) : (s.setDrv j x).bins = s.bins := rfl
@[simp] theorem State.setDrv_cfg (s : State) (j : Nat) (x : Drive Word) : (s.setDrv j x).cfg = s.cfg := rfl
@[simp] theorem State.setDrv_draw (s : State) (j : Nat) (x : Drive Word) : (s.setDrv j x).draw = s.draw := rfl
@[simp] theorem State.setDrv_port (s : State) (j : Nat) (x : Drive Word) : (s.setDrv j x).port = s.port := rfl
@[simp] theorem State.setDrv_midSnaps (s : State) (j : Nat) (x : Drive Word) : (s.setDrv j x).midSnaps = s.midSnaps := rfl
@[simp] theorem State.setDrv_hostSaw (s : State) (j : Nat) (x : Drive Word) : (s.setDrv j x).hostSaw = s.hostSaw := rfl
@[simp] theorem State.setDrv_readerSaw (s : State) (j : Nat) (x : Drive Word) : (s.setDrv j x).readerSaw = s.readerSaw := rfl

/-! `State.snapshots`. -/

@[simp] theorem State.snapshots_a0 (s : State) (n : Nat) : (s.snapshots n).a0 = s.a0 := rfl
@[simp] theorem State.snapshots_a1 (s : State) (n : Nat) : (s.snapshots n).a1 = s.a1 := rfl
@[simp] theorem State.snapshots_a2 (s : State) (n : Nat) : (s.snapshots n).a2 = s.a2 := rfl
@[simp] theorem State.snapshots_a3 (s : State) (n : Nat) : (s.snapshots n).a3 = s.a3 := rfl
@[simp] theorem State.snapshots_a4 (s : State) (n : Nat) : (s.snapshots n).a4 = s.a4 := rfl
@[simp] theorem State.snapshots_r0 (s : State) (n : Nat) : (s.snapshots n).r0 = s.r0 := rfl
@[simp] theorem State.snapshots_r1 (s : State) (n : Nat) : (s.snapshots n).r1 = s.r1 := rfl
@[simp] theorem State.snapshots_mode (s : State) (n : Nat) : (s.snapshots n).mode = s.mode := rfl
@[simp] theorem State.snapshots_fault (s : State) (n : Nat) : (s.snapshots n).fault = s.fault := rfl
@[simp] theorem State.snapshots_faultInfo (s : State) (n : Nat) : (s.snapshots n).faultInfo = s.faultInfo := rfl
@[simp] theorem State.snapshots_diag (s : State) (n : Nat) : (s.snapshots n).diag = s.diag := rfl
@[simp] theorem State.snapshots_spaSeq (s : State) (n : Nat) : (s.snapshots n).spaSeq = s.spaSeq := rfl
@[simp] theorem State.snapshots_ntab (s : State) (n : Nat) : (s.snapshots n).ntab = s.ntab := rfl
@[simp] theorem State.snapshots_wt (s : State) (n : Nat) : (s.snapshots n).wt = s.wt := rfl
@[simp] theorem State.snapshots_osc (s : State) (n : Nat) : (s.snapshots n).osc = s.osc := rfl
@[simp] theorem State.snapshots_env (s : State) (n : Nat) : (s.snapshots n).env = s.env := rfl
@[simp] theorem State.snapshots_bq (s : State) (n : Nat) : (s.snapshots n).bq = s.bq := rfl
@[simp] theorem State.snapshots_dl (s : State) (n : Nat) : (s.snapshots n).dl = s.dl := rfl
@[simp] theorem State.snapshots_rvb (s : State) (n : Nat) : (s.snapshots n).rvb = s.rvb := rfl
@[simp] theorem State.snapshots_drv (s : State) (n : Nat) : (s.snapshots n).drv = s.drv := rfl
@[simp] theorem State.snapshots_spa (s : State) (n : Nat) : (s.snapshots n).spa = s.spa := rfl
@[simp] theorem State.snapshots_spaIn (s : State) (n : Nat) : (s.snapshots n).spaIn = s.spaIn := rfl
@[simp] theorem State.snapshots_bins (s : State) (n : Nat) : (s.snapshots n).bins = s.bins := rfl
@[simp] theorem State.snapshots_cfg (s : State) (n : Nat) : (s.snapshots n).cfg = s.cfg := rfl
@[simp] theorem State.snapshots_draw (s : State) (n : Nat) : (s.snapshots n).draw = s.draw := rfl
@[simp] theorem State.snapshots_port (s : State) (n : Nat) : (s.snapshots n).port = s.port := rfl
@[simp] theorem State.snapshots_midSnaps (s : State) (n : Nat) : (s.snapshots n).midSnaps = s.midSnaps := rfl
@[simp] theorem State.snapshots_hostSaw (s : State) (n : Nat) : (s.snapshots n).hostSaw = s.hostSaw := rfl
@[simp] theorem State.snapshots_readerSaw (s : State) (n : Nat) : (s.snapshots n).readerSaw = List.replicate n (Snapshot.mk s.spaSeq s.bins) ++ s.readerSaw := rfl

/-! `State.publish`. -/

@[simp] theorem State.publish_a0 (s : State) (mags : List Word) : (s.publish mags).a0 = s.a0 := rfl
@[simp] theorem State.publish_a1 (s : State) (mags : List Word) : (s.publish mags).a1 = s.a1 := rfl
@[simp] theorem State.publish_a2 (s : State) (mags : List Word) : (s.publish mags).a2 = s.a2 := rfl
@[simp] theorem State.publish_a3 (s : State) (mags : List Word) : (s.publish mags).a3 = s.a3 := rfl
@[simp] theorem State.publish_a4 (s : State) (mags : List Word) : (s.publish mags).a4 = s.a4 := rfl
@[simp] theorem State.publish_r0 (s : State) (mags : List Word) : (s.publish mags).r0 = s.r0 := rfl
@[simp] theorem State.publish_r1 (s : State) (mags : List Word) : (s.publish mags).r1 = s.r1 := rfl
@[simp] theorem State.publish_mode (s : State) (mags : List Word) : (s.publish mags).mode = s.mode := rfl
@[simp] theorem State.publish_fault (s : State) (mags : List Word) : (s.publish mags).fault = s.fault := rfl
@[simp] theorem State.publish_faultInfo (s : State) (mags : List Word) : (s.publish mags).faultInfo = s.faultInfo := rfl
@[simp] theorem State.publish_diag (s : State) (mags : List Word) : (s.publish mags).diag = s.diag := rfl
@[simp] theorem State.publish_spaSeq (s : State) (mags : List Word) : (s.publish mags).spaSeq = s.spaSeq + 1#32 := rfl
@[simp] theorem State.publish_ntab (s : State) (mags : List Word) : (s.publish mags).ntab = s.ntab := rfl
@[simp] theorem State.publish_wt (s : State) (mags : List Word) : (s.publish mags).wt = s.wt := rfl
@[simp] theorem State.publish_osc (s : State) (mags : List Word) : (s.publish mags).osc = s.osc := rfl
@[simp] theorem State.publish_env (s : State) (mags : List Word) : (s.publish mags).env = s.env := rfl
@[simp] theorem State.publish_bq (s : State) (mags : List Word) : (s.publish mags).bq = s.bq := rfl
@[simp] theorem State.publish_dl (s : State) (mags : List Word) : (s.publish mags).dl = s.dl := rfl
@[simp] theorem State.publish_rvb (s : State) (mags : List Word) : (s.publish mags).rvb = s.rvb := rfl
@[simp] theorem State.publish_drv (s : State) (mags : List Word) : (s.publish mags).drv = s.drv := rfl
@[simp] theorem State.publish_spa (s : State) (mags : List Word) : (s.publish mags).spa = s.spa := rfl
@[simp] theorem State.publish_spaIn (s : State) (mags : List Word) : (s.publish mags).spaIn = s.spaIn := rfl
@[simp] theorem State.publish_bins (s : State) (mags : List Word) : (s.publish mags).bins = mags := rfl
@[simp] theorem State.publish_cfg (s : State) (mags : List Word) : (s.publish mags).cfg = s.cfg := rfl
@[simp] theorem State.publish_draw (s : State) (mags : List Word) : (s.publish mags).draw = s.draw := rfl
@[simp] theorem State.publish_port (s : State) (mags : List Word) : (s.publish mags).port = s.port := rfl
@[simp] theorem State.publish_midSnaps (s : State) (mags : List Word) : (s.publish mags).midSnaps = s.midSnaps := rfl
@[simp] theorem State.publish_hostSaw (s : State) (mags : List Word) : (s.publish mags).hostSaw = s.hostSaw := rfl
@[simp] theorem State.publish_readerSaw (s : State) (mags : List Word) : (s.publish mags).readerSaw = s.readerSaw := rfl

/-! `State.clearDiag`. -/

@[simp] theorem State.clearDiag_a0 (s : State) (w : Word) : (s.clearDiag w).a0 = s.a0 := rfl
@[simp] theorem State.clearDiag_a1 (s : State) (w : Word) : (s.clearDiag w).a1 = s.a1 := rfl
@[simp] theorem State.clearDiag_a2 (s : State) (w : Word) : (s.clearDiag w).a2 = s.a2 := rfl
@[simp] theorem State.clearDiag_a3 (s : State) (w : Word) : (s.clearDiag w).a3 = s.a3 := rfl
@[simp] theorem State.clearDiag_a4 (s : State) (w : Word) : (s.clearDiag w).a4 = s.a4 := rfl
@[simp] theorem State.clearDiag_r0 (s : State) (w : Word) : (s.clearDiag w).r0 = s.r0 := rfl
@[simp] theorem State.clearDiag_r1 (s : State) (w : Word) : (s.clearDiag w).r1 = s.r1 := rfl
@[simp] theorem State.clearDiag_mode (s : State) (w : Word) : (s.clearDiag w).mode = s.mode := rfl
@[simp] theorem State.clearDiag_fault (s : State) (w : Word) : (s.clearDiag w).fault = s.fault := rfl
@[simp] theorem State.clearDiag_faultInfo (s : State) (w : Word) : (s.clearDiag w).faultInfo = s.faultInfo := rfl
@[simp] theorem State.clearDiag_diag (s : State) (w : Word) : (s.clearDiag w).diag = s.diag &&& ~~~ (w.setWidth 9) := rfl
@[simp] theorem State.clearDiag_spaSeq (s : State) (w : Word) : (s.clearDiag w).spaSeq = s.spaSeq := rfl
@[simp] theorem State.clearDiag_ntab (s : State) (w : Word) : (s.clearDiag w).ntab = s.ntab := rfl
@[simp] theorem State.clearDiag_wt (s : State) (w : Word) : (s.clearDiag w).wt = s.wt := rfl
@[simp] theorem State.clearDiag_osc (s : State) (w : Word) : (s.clearDiag w).osc = s.osc := rfl
@[simp] theorem State.clearDiag_env (s : State) (w : Word) : (s.clearDiag w).env = s.env := rfl
@[simp] theorem State.clearDiag_bq (s : State) (w : Word) : (s.clearDiag w).bq = s.bq := rfl
@[simp] theorem State.clearDiag_dl (s : State) (w : Word) : (s.clearDiag w).dl = s.dl := rfl
@[simp] theorem State.clearDiag_rvb (s : State) (w : Word) : (s.clearDiag w).rvb = s.rvb := rfl
@[simp] theorem State.clearDiag_drv (s : State) (w : Word) : (s.clearDiag w).drv = s.drv := rfl
@[simp] theorem State.clearDiag_spa (s : State) (w : Word) : (s.clearDiag w).spa = s.spa := rfl
@[simp] theorem State.clearDiag_spaIn (s : State) (w : Word) : (s.clearDiag w).spaIn = s.spaIn := rfl
@[simp] theorem State.clearDiag_bins (s : State) (w : Word) : (s.clearDiag w).bins = s.bins := rfl
@[simp] theorem State.clearDiag_cfg (s : State) (w : Word) : (s.clearDiag w).cfg = s.cfg := rfl
@[simp] theorem State.clearDiag_draw (s : State) (w : Word) : (s.clearDiag w).draw = s.draw := rfl
@[simp] theorem State.clearDiag_port (s : State) (w : Word) : (s.clearDiag w).port = s.port := rfl
@[simp] theorem State.clearDiag_midSnaps (s : State) (w : Word) : (s.clearDiag w).midSnaps = s.midSnaps := rfl
@[simp] theorem State.clearDiag_hostSaw (s : State) (w : Word) : (s.clearDiag w).hostSaw = s.hostSaw := rfl
@[simp] theorem State.clearDiag_readerSaw (s : State) (w : Word) : (s.clearDiag w).readerSaw = s.readerSaw := rfl

/-! `State.setSpaIn`. -/

@[simp] theorem State.setSpaIn_a0 (s : State) (i : Nat) (w : Word) : (s.setSpaIn i w).a0 = s.a0 := rfl
@[simp] theorem State.setSpaIn_a1 (s : State) (i : Nat) (w : Word) : (s.setSpaIn i w).a1 = s.a1 := rfl
@[simp] theorem State.setSpaIn_a2 (s : State) (i : Nat) (w : Word) : (s.setSpaIn i w).a2 = s.a2 := rfl
@[simp] theorem State.setSpaIn_a3 (s : State) (i : Nat) (w : Word) : (s.setSpaIn i w).a3 = s.a3 := rfl
@[simp] theorem State.setSpaIn_a4 (s : State) (i : Nat) (w : Word) : (s.setSpaIn i w).a4 = s.a4 := rfl
@[simp] theorem State.setSpaIn_r0 (s : State) (i : Nat) (w : Word) : (s.setSpaIn i w).r0 = s.r0 := rfl
@[simp] theorem State.setSpaIn_r1 (s : State) (i : Nat) (w : Word) : (s.setSpaIn i w).r1 = s.r1 := rfl
@[simp] theorem State.setSpaIn_mode (s : State) (i : Nat) (w : Word) : (s.setSpaIn i w).mode = s.mode := rfl
@[simp] theorem State.setSpaIn_fault (s : State) (i : Nat) (w : Word) : (s.setSpaIn i w).fault = s.fault := rfl
@[simp] theorem State.setSpaIn_faultInfo (s : State) (i : Nat) (w : Word) : (s.setSpaIn i w).faultInfo = s.faultInfo := rfl
@[simp] theorem State.setSpaIn_diag (s : State) (i : Nat) (w : Word) : (s.setSpaIn i w).diag = s.diag := rfl
@[simp] theorem State.setSpaIn_spaSeq (s : State) (i : Nat) (w : Word) : (s.setSpaIn i w).spaSeq = s.spaSeq := rfl
@[simp] theorem State.setSpaIn_ntab (s : State) (i : Nat) (w : Word) : (s.setSpaIn i w).ntab = s.ntab := rfl
@[simp] theorem State.setSpaIn_wt (s : State) (i : Nat) (w : Word) : (s.setSpaIn i w).wt = s.wt := rfl
@[simp] theorem State.setSpaIn_osc (s : State) (i : Nat) (w : Word) : (s.setSpaIn i w).osc = s.osc := rfl
@[simp] theorem State.setSpaIn_env (s : State) (i : Nat) (w : Word) : (s.setSpaIn i w).env = s.env := rfl
@[simp] theorem State.setSpaIn_bq (s : State) (i : Nat) (w : Word) : (s.setSpaIn i w).bq = s.bq := rfl
@[simp] theorem State.setSpaIn_dl (s : State) (i : Nat) (w : Word) : (s.setSpaIn i w).dl = s.dl := rfl
@[simp] theorem State.setSpaIn_rvb (s : State) (i : Nat) (w : Word) : (s.setSpaIn i w).rvb = s.rvb := rfl
@[simp] theorem State.setSpaIn_drv (s : State) (i : Nat) (w : Word) : (s.setSpaIn i w).drv = s.drv := rfl
@[simp] theorem State.setSpaIn_spa (s : State) (i : Nat) (w : Word) : (s.setSpaIn i w).spa = s.spa := rfl
@[simp] theorem State.setSpaIn_spaIn (s : State) (i : Nat) (w : Word) : (s.setSpaIn i w).spaIn = Memory.write zeroBlank s.spaIn i w := rfl
@[simp] theorem State.setSpaIn_bins (s : State) (i : Nat) (w : Word) : (s.setSpaIn i w).bins = s.bins := rfl
@[simp] theorem State.setSpaIn_cfg (s : State) (i : Nat) (w : Word) : (s.setSpaIn i w).cfg = s.cfg := rfl
@[simp] theorem State.setSpaIn_draw (s : State) (i : Nat) (w : Word) : (s.setSpaIn i w).draw = s.draw := rfl
@[simp] theorem State.setSpaIn_port (s : State) (i : Nat) (w : Word) : (s.setSpaIn i w).port = s.port := rfl
@[simp] theorem State.setSpaIn_midSnaps (s : State) (i : Nat) (w : Word) : (s.setSpaIn i w).midSnaps = s.midSnaps := rfl
@[simp] theorem State.setSpaIn_hostSaw (s : State) (i : Nat) (w : Word) : (s.setSpaIn i w).hostSaw = s.hostSaw := rfl
@[simp] theorem State.setSpaIn_readerSaw (s : State) (i : Nat) (w : Word) : (s.setSpaIn i w).readerSaw = s.readerSaw := rfl

/-! `State.doReset`: the block's state is that of reset, the model's own fields stay. -/

@[simp] theorem State.doReset_a0 (s : State) : s.doReset.a0 = (State.resetOf s.cfg).a0 := rfl
@[simp] theorem State.doReset_a1 (s : State) : s.doReset.a1 = (State.resetOf s.cfg).a1 := rfl
@[simp] theorem State.doReset_a2 (s : State) : s.doReset.a2 = (State.resetOf s.cfg).a2 := rfl
@[simp] theorem State.doReset_a3 (s : State) : s.doReset.a3 = (State.resetOf s.cfg).a3 := rfl
@[simp] theorem State.doReset_a4 (s : State) : s.doReset.a4 = (State.resetOf s.cfg).a4 := rfl
@[simp] theorem State.doReset_r0 (s : State) : s.doReset.r0 = (State.resetOf s.cfg).r0 := rfl
@[simp] theorem State.doReset_r1 (s : State) : s.doReset.r1 = (State.resetOf s.cfg).r1 := rfl
@[simp] theorem State.doReset_mode (s : State) : s.doReset.mode = (State.resetOf s.cfg).mode := rfl
@[simp] theorem State.doReset_fault (s : State) : s.doReset.fault = (State.resetOf s.cfg).fault := rfl
@[simp] theorem State.doReset_faultInfo (s : State) : s.doReset.faultInfo = (State.resetOf s.cfg).faultInfo := rfl
@[simp] theorem State.doReset_diag (s : State) : s.doReset.diag = (State.resetOf s.cfg).diag := rfl
@[simp] theorem State.doReset_spaSeq (s : State) : s.doReset.spaSeq = (State.resetOf s.cfg).spaSeq := rfl
@[simp] theorem State.doReset_ntab (s : State) : s.doReset.ntab = (State.resetOf s.cfg).ntab := rfl
@[simp] theorem State.doReset_wt (s : State) : s.doReset.wt = (State.resetOf s.cfg).wt := rfl
@[simp] theorem State.doReset_osc (s : State) : s.doReset.osc = (State.resetOf s.cfg).osc := rfl
@[simp] theorem State.doReset_env (s : State) : s.doReset.env = (State.resetOf s.cfg).env := rfl
@[simp] theorem State.doReset_bq (s : State) : s.doReset.bq = (State.resetOf s.cfg).bq := rfl
@[simp] theorem State.doReset_dl (s : State) : s.doReset.dl = (State.resetOf s.cfg).dl := rfl
@[simp] theorem State.doReset_rvb (s : State) : s.doReset.rvb = (State.resetOf s.cfg).rvb := rfl
@[simp] theorem State.doReset_drv (s : State) : s.doReset.drv = (State.resetOf s.cfg).drv := rfl
@[simp] theorem State.doReset_spa (s : State) : s.doReset.spa = (State.resetOf s.cfg).spa := rfl
@[simp] theorem State.doReset_spaIn (s : State) : s.doReset.spaIn = (State.resetOf s.cfg).spaIn := rfl
@[simp] theorem State.doReset_bins (s : State) : s.doReset.bins = (State.resetOf s.cfg).bins := rfl
@[simp] theorem State.doReset_cfg (s : State) : s.doReset.cfg = s.cfg := rfl
@[simp] theorem State.doReset_draw (s : State) : s.doReset.draw = s.draw := rfl
@[simp] theorem State.doReset_port (s : State) : s.doReset.port = s.port := rfl
@[simp] theorem State.doReset_midSnaps (s : State) : s.doReset.midSnaps = s.midSnaps := rfl
@[simp] theorem State.doReset_hostSaw (s : State) : s.doReset.hostSaw = s.hostSaw := rfl
@[simp] theorem State.doReset_readerSaw (s : State) : s.doReset.readerSaw = s.readerSaw := rfl

/-! `State.setA`: nothing but the operand registers. -/

@[simp] theorem State.setA_r0 (s : State) (k : Nat) (w : Word) : (s.setA k w).r0 = s.r0 := by
  unfold State.setA; split <;> rfl
@[simp] theorem State.setA_r1 (s : State) (k : Nat) (w : Word) : (s.setA k w).r1 = s.r1 := by
  unfold State.setA; split <;> rfl
@[simp] theorem State.setA_mode (s : State) (k : Nat) (w : Word) : (s.setA k w).mode = s.mode := by
  unfold State.setA; split <;> rfl
@[simp] theorem State.setA_fault (s : State) (k : Nat) (w : Word) : (s.setA k w).fault = s.fault := by
  unfold State.setA; split <;> rfl
@[simp] theorem State.setA_faultInfo (s : State) (k : Nat) (w : Word) : (s.setA k w).faultInfo = s.faultInfo := by
  unfold State.setA; split <;> rfl
@[simp] theorem State.setA_diag (s : State) (k : Nat) (w : Word) : (s.setA k w).diag = s.diag := by
  unfold State.setA; split <;> rfl
@[simp] theorem State.setA_spaSeq (s : State) (k : Nat) (w : Word) : (s.setA k w).spaSeq = s.spaSeq := by
  unfold State.setA; split <;> rfl
@[simp] theorem State.setA_ntab (s : State) (k : Nat) (w : Word) : (s.setA k w).ntab = s.ntab := by
  unfold State.setA; split <;> rfl
@[simp] theorem State.setA_wt (s : State) (k : Nat) (w : Word) : (s.setA k w).wt = s.wt := by
  unfold State.setA; split <;> rfl
@[simp] theorem State.setA_osc (s : State) (k : Nat) (w : Word) : (s.setA k w).osc = s.osc := by
  unfold State.setA; split <;> rfl
@[simp] theorem State.setA_env (s : State) (k : Nat) (w : Word) : (s.setA k w).env = s.env := by
  unfold State.setA; split <;> rfl
@[simp] theorem State.setA_bq (s : State) (k : Nat) (w : Word) : (s.setA k w).bq = s.bq := by
  unfold State.setA; split <;> rfl
@[simp] theorem State.setA_dl (s : State) (k : Nat) (w : Word) : (s.setA k w).dl = s.dl := by
  unfold State.setA; split <;> rfl
@[simp] theorem State.setA_rvb (s : State) (k : Nat) (w : Word) : (s.setA k w).rvb = s.rvb := by
  unfold State.setA; split <;> rfl
@[simp] theorem State.setA_drv (s : State) (k : Nat) (w : Word) : (s.setA k w).drv = s.drv := by
  unfold State.setA; split <;> rfl
@[simp] theorem State.setA_spa (s : State) (k : Nat) (w : Word) : (s.setA k w).spa = s.spa := by
  unfold State.setA; split <;> rfl
@[simp] theorem State.setA_spaIn (s : State) (k : Nat) (w : Word) : (s.setA k w).spaIn = s.spaIn := by
  unfold State.setA; split <;> rfl
@[simp] theorem State.setA_bins (s : State) (k : Nat) (w : Word) : (s.setA k w).bins = s.bins := by
  unfold State.setA; split <;> rfl
@[simp] theorem State.setA_cfg (s : State) (k : Nat) (w : Word) : (s.setA k w).cfg = s.cfg := by
  unfold State.setA; split <;> rfl
@[simp] theorem State.setA_draw (s : State) (k : Nat) (w : Word) : (s.setA k w).draw = s.draw := by
  unfold State.setA; split <;> rfl
@[simp] theorem State.setA_port (s : State) (k : Nat) (w : Word) : (s.setA k w).port = s.port := by
  unfold State.setA; split <;> rfl
@[simp] theorem State.setA_midSnaps (s : State) (k : Nat) (w : Word) : (s.setA k w).midSnaps = s.midSnaps := by
  unfold State.setA; split <;> rfl
@[simp] theorem State.setA_hostSaw (s : State) (k : Nat) (w : Word) : (s.setA k w).hostSaw = s.hostSaw := by
  unfold State.setA; split <;> rfl
@[simp] theorem State.setA_readerSaw (s : State) (k : Nat) (w : Word) : (s.setA k w).readerSaw = s.readerSaw := by
  unfold State.setA; split <;> rfl

theorem State.opA_setA (s : State) (k j : Nat) (w : Word) (hk : k ≤ 4) (hj : j ≤ 4) :
    (s.setA k w).opA j = if j = k then w else s.opA j := by
  interval_cases k <;> interval_cases j <;> rfl

/-! `State.midCommand`: nothing but the reader's schedule and what it saw. -/

@[simp] theorem State.midCommand_a0 (s : State) : s.midCommand.a0 = s.a0 := by
  unfold State.midCommand; split <;> rfl
@[simp] theorem State.midCommand_a1 (s : State) : s.midCommand.a1 = s.a1 := by
  unfold State.midCommand; split <;> rfl
@[simp] theorem State.midCommand_a2 (s : State) : s.midCommand.a2 = s.a2 := by
  unfold State.midCommand; split <;> rfl
@[simp] theorem State.midCommand_a3 (s : State) : s.midCommand.a3 = s.a3 := by
  unfold State.midCommand; split <;> rfl
@[simp] theorem State.midCommand_a4 (s : State) : s.midCommand.a4 = s.a4 := by
  unfold State.midCommand; split <;> rfl
@[simp] theorem State.midCommand_r0 (s : State) : s.midCommand.r0 = s.r0 := by
  unfold State.midCommand; split <;> rfl
@[simp] theorem State.midCommand_r1 (s : State) : s.midCommand.r1 = s.r1 := by
  unfold State.midCommand; split <;> rfl
@[simp] theorem State.midCommand_mode (s : State) : s.midCommand.mode = s.mode := by
  unfold State.midCommand; split <;> rfl
@[simp] theorem State.midCommand_fault (s : State) : s.midCommand.fault = s.fault := by
  unfold State.midCommand; split <;> rfl
@[simp] theorem State.midCommand_faultInfo (s : State) : s.midCommand.faultInfo = s.faultInfo := by
  unfold State.midCommand; split <;> rfl
@[simp] theorem State.midCommand_diag (s : State) : s.midCommand.diag = s.diag := by
  unfold State.midCommand; split <;> rfl
@[simp] theorem State.midCommand_spaSeq (s : State) : s.midCommand.spaSeq = s.spaSeq := by
  unfold State.midCommand; split <;> rfl
@[simp] theorem State.midCommand_ntab (s : State) : s.midCommand.ntab = s.ntab := by
  unfold State.midCommand; split <;> rfl
@[simp] theorem State.midCommand_wt (s : State) : s.midCommand.wt = s.wt := by
  unfold State.midCommand; split <;> rfl
@[simp] theorem State.midCommand_osc (s : State) : s.midCommand.osc = s.osc := by
  unfold State.midCommand; split <;> rfl
@[simp] theorem State.midCommand_env (s : State) : s.midCommand.env = s.env := by
  unfold State.midCommand; split <;> rfl
@[simp] theorem State.midCommand_bq (s : State) : s.midCommand.bq = s.bq := by
  unfold State.midCommand; split <;> rfl
@[simp] theorem State.midCommand_dl (s : State) : s.midCommand.dl = s.dl := by
  unfold State.midCommand; split <;> rfl
@[simp] theorem State.midCommand_rvb (s : State) : s.midCommand.rvb = s.rvb := by
  unfold State.midCommand; split <;> rfl
@[simp] theorem State.midCommand_drv (s : State) : s.midCommand.drv = s.drv := by
  unfold State.midCommand; split <;> rfl
@[simp] theorem State.midCommand_spa (s : State) : s.midCommand.spa = s.spa := by
  unfold State.midCommand; split <;> rfl
@[simp] theorem State.midCommand_spaIn (s : State) : s.midCommand.spaIn = s.spaIn := by
  unfold State.midCommand; split <;> rfl
@[simp] theorem State.midCommand_bins (s : State) : s.midCommand.bins = s.bins := by
  unfold State.midCommand; split <;> rfl
@[simp] theorem State.midCommand_cfg (s : State) : s.midCommand.cfg = s.cfg := by
  unfold State.midCommand; split <;> rfl
@[simp] theorem State.midCommand_draw (s : State) : s.midCommand.draw = s.draw := by
  unfold State.midCommand; split <;> rfl
@[simp] theorem State.midCommand_port (s : State) : s.midCommand.port = s.port := by
  unfold State.midCommand; split <;> rfl
@[simp] theorem State.midCommand_hostSaw (s : State) : s.midCommand.hostSaw = s.hostSaw := by
  unfold State.midCommand; split <;> rfl

end Sys2Proof.Machine
end

