-- ==== Sys2Proof/Laws/Ops.lean ====
section
/-! SUPPORT. What each shared operation can do, said once: the tests before a command's own rule, the store
test, delay line steps, the samples of the analyzer, and the handling of a port event. -/

namespace Sys2Proof.Machine

/-! The tests before a command's own rule (R86). -/

theorem unlessFaulted_faulted {s : State} (h : s.mode = .faulted) (k : Result) :
    unlessFaulted s k = .next s := by simp [unlessFaulted, h]

theorem unlessFaulted_ready {s : State} (h : s.mode ≠ .faulted) (k : Result) :
    unlessFaulted s k = k := by
  unfold unlessFaulted; split <;> first | rfl | contradiction

theorem onIndex_faulted {s : State} (h : s.mode = .faulted) (n j : Nat) (k : Result) :
    onIndex s n j k = .next s := unlessFaulted_faulted h _

theorem onIndex_bad {s : State} (h : s.mode ≠ .faulted) {n j : Nat} (hj : n ≤ j) (k : Result) :
    onIndex s n j k = .next (s.ignored .badIndex) := by
  rw [onIndex, unlessFaulted_ready h, if_pos hj]

theorem onIndex_ready {s : State} (h : s.mode ≠ .faulted) {n j : Nat} (hj : j < n) (k : Result) :
    onIndex s n j k = k := by
  rw [onIndex, unlessFaulted_ready h, if_neg (by omega)]

/-- If an indexed command answers a next state, it was discarded, ignored, or its own rule answered. -/
theorem onIndex_next {s t : State} {n j : Nat} {k : Result} (h : onIndex s n j k = .next t) :
    (s.mode = .faulted ∧ t = s) ∨
    (s.mode ≠ .faulted ∧ n ≤ j ∧ t = s.ignored .badIndex) ∨
    (s.mode ≠ .faulted ∧ j < n ∧ k = .next t) := by
  by_cases hm : s.mode = .faulted
  · rw [onIndex_faulted hm] at h; cases h; exact Or.inl ⟨hm, rfl⟩
  · by_cases hj : n ≤ j
    · rw [onIndex_bad hm hj] at h; cases h; exact Or.inr (Or.inl ⟨hm, hj, rfl⟩)
    · rw [onIndex_ready hm (by omega)] at h; exact Or.inr (Or.inr ⟨hm, by omega, h⟩)

/-- If a command without an index answers a next state, it was discarded or its own rule answered. -/
theorem unlessFaulted_next {s t : State} {k : Result} (h : unlessFaulted s k = .next t) :
    (s.mode = .faulted ∧ t = s) ∨ (s.mode ≠ .faulted ∧ k = .next t) := by
  by_cases hm : s.mode = .faulted
  · rw [unlessFaulted_faulted hm] at h; cases h; exact Or.inl ⟨hm, rfl⟩
  · rw [unlessFaulted_ready hm] at h; exact Or.inr ⟨hm, h⟩

theorem onOpenStore_run {s : State} (h : s.mode = .run) (k : Result) :
    onOpenStore s k = .next (s.ignored .sealed) := by
  rw [onOpenStore, unlessFaulted_ready (by simp [h]), if_pos h]

theorem onOpenStore_config {s : State} (h : s.mode = .config) (k : Result) : onOpenStore s k = k := by
  rw [onOpenStore, unlessFaulted_ready (by simp [h]), if_neg (by simp [h])]

/-- If a store command answers a next state, it was discarded, ignored, or its own rule answered. -/
theorem onOpenStore_next {s t : State} {k : Result} (h : onOpenStore s k = .next t) :
    (s.mode = .faulted ∧ t = s) ∨ (s.mode = .run ∧ t = s.ignored .sealed) ∨
    (s.mode = .config ∧ k = .next t) := by
  cases hm : s.mode
  · rw [onOpenStore_config hm] at h; exact Or.inr (Or.inr ⟨rfl, h⟩)
  · rw [onOpenStore_run hm] at h; cases h; exact Or.inr (Or.inl ⟨rfl, rfl⟩)
  · rw [onOpenStore, unlessFaulted_faulted hm] at h; cases h; exact Or.inl ⟨rfl, rfl⟩

theorem onValidOsc_ready {s : State} (h : s.mode ≠ .faulted) {j : Nat} (hj : j < s.cfg.nOsc)
    (hv : (s.oscAt j).valid = true) (k : Result) : onValidOsc s j k = k := by
  rw [onValidOsc, onIndex_ready h hj, if_pos hv]

theorem onValidOsc_fresh {s : State} (h : s.mode ≠ .faulted) {j : Nat} (hj : j < s.cfg.nOsc)
    (hv : (s.oscAt j).valid = false) (k : Result) :
    onValidOsc s j k = .next (s.ignored .notInit) := by
  rw [onValidOsc, onIndex_ready h hj, if_neg (by simp [hv])]

/-- If an oscillator command other than `OSC.INIT` answers a next state, it was discarded, ignored for its
index, ignored for its oscillator, or its own rule answered. -/
theorem onValidOsc_next {s t : State} {j : Nat} {k : Result} (h : onValidOsc s j k = .next t) :
    (s.mode = .faulted ∧ t = s) ∨
    (s.mode ≠ .faulted ∧ s.cfg.nOsc ≤ j ∧ t = s.ignored .badIndex) ∨
    (s.mode ≠ .faulted ∧ j < s.cfg.nOsc ∧ (s.oscAt j).valid = false ∧ t = s.ignored .notInit) ∨
    (s.mode ≠ .faulted ∧ j < s.cfg.nOsc ∧ (s.oscAt j).valid = true ∧ k = .next t) := by
  rcases onIndex_next h with h | h | ⟨hm, hj, hk⟩
  · exact Or.inl h
  · exact Or.inr (Or.inl h)
  · cases hv : (s.oscAt j).valid
    · rw [hv, if_neg (by simp)] at hk; cases hk
      exact Or.inr (Or.inr (Or.inl ⟨hm, hj, rfl, rfl⟩))
    · rw [hv, if_pos rfl] at hk
      exact Or.inr (Or.inr (Or.inr ⟨hm, hj, rfl, hk⟩))

/-! The store test (R136). -/

theorem tableWritten_iff (s : State) (b t n : Nat) :
    s.tableWritten b t n = true ↔ ∀ i, i < n → (s.cell b t i).isSome = true := by
  induction n with
  | zero => simp [State.tableWritten]
  | succ n ih =>
    simp only [State.tableWritten, Bool.and_eq_true, ih]
    constructor
    · rintro ⟨h1, h2⟩ i hi
      rcases Nat.lt_succ_iff_lt_or_eq.mp hi with h | rfl
      · exact h2 i h
      · exact h1
    · exact fun h => ⟨h n (by omega), fun i hi => h i (by omega)⟩

theorem tablesWritten_iff (s : State) (b m : Nat) :
    s.tablesWritten b m = true ↔
      ∀ t, t < m → ∀ i, i < s.cfg.tableLen → (s.cell b t i).isSome = true := by
  induction m with
  | zero => simp [State.tablesWritten]
  | succ m ih =>
    simp only [State.tablesWritten, Bool.and_eq_true, ih, tableWritten_iff]
    constructor
    · rintro ⟨h1, h2⟩ t ht
      rcases Nat.lt_succ_iff_lt_or_eq.mp ht with h | rfl
      · exact h2 t h
      · exact h1
    · exact fun h => ⟨h m (by omega), fun t ht => h t (by omega)⟩

/-- `WTS.SEAL`'s test says that every bank is declared and every cell of a declared table holds a value. -/
theorem storeComplete_iff (s : State) :
    s.storeComplete = true ↔
      ∀ b, b < s.cfg.nBanks → s.ntabAt b ≠ 0 ∧
        ∀ t, t < s.ntabAt b → ∀ i, i < s.cfg.tableLen → (s.cell b t i).isSome = true := by
  have main : ∀ n, s.banksComplete n = true ↔
      ∀ b, b < n → s.ntabAt b ≠ 0 ∧
        ∀ t, t < s.ntabAt b → ∀ i, i < s.cfg.tableLen → (s.cell b t i).isSome = true := by
    intro n
    induction n with
    | zero => simp [State.banksComplete]
    | succ n ih =>
      simp only [State.banksComplete, Bool.and_eq_true, decide_eq_true_eq, ih, tablesWritten_iff]
      constructor
      · rintro ⟨⟨h1, h2⟩, h3⟩ b hb
        rcases Nat.lt_succ_iff_lt_or_eq.mp hb with h | rfl
        · exact h3 b h
        · exact ⟨h1, h2⟩
      · exact fun h => ⟨⟨(h n (by omega)).1, (h n (by omega)).2⟩, fun b hb => h b (by omega)⟩
  exact main _

/-- Cell keys of indexes in range are told apart (R30). -/
theorem cellKey_inj {c : Config} {b t i b' t' i' : Nat} (ht : t < c.ntMax) (ht' : t' < c.ntMax)
    (hi : i < c.tableLen) (hi' : i' < c.tableLen) (h : c.cellKey b t i = c.cellKey b' t' i') :
    b = b' ∧ t = t' ∧ i = i' := by
  unfold Config.cellKey at h
  have split2 : ∀ {n x y x' y' : Nat}, y < n → y' < n → x * n + y = x' * n + y' → x = x' ∧ y = y' := by
    intro n x y x' y' hy hy' e
    have hn : 0 < n := by omega
    have h1 : (x * n + y) / n = x := by
      rw [Nat.mul_comm, Nat.mul_add_div hn, Nat.div_eq_of_lt hy, Nat.add_zero]
    have h2 : (x' * n + y') / n = x' := by
      rw [Nat.mul_comm, Nat.mul_add_div hn, Nat.div_eq_of_lt hy', Nat.add_zero]
    have hx : x = x' := by rw [← h1, ← h2, e]
    subst hx; exact ⟨rfl, by omega⟩
  obtain ⟨h1, h2⟩ := split2 hi hi' h
  obtain ⟨h3, h4⟩ := split2 ht ht' h1
  exact ⟨h3, h4, h2⟩

/-- A cell after a write of a cell (R135). -/
theorem cell_setCell {s : State} (h : Memory.wf storeBlank s.wt = true) (b t i : Nat) (v : Word)
    (b' t' i' : Nat) :
    (s.setCell b t i v).cell b' t' i' =
      if s.cfg.cellKey b' t' i' = s.cfg.cellKey b t i then some v else s.cell b' t' i' := by
  simp only [State.cell, State.setCell]
  exact Memory.read_write h _ _ _

/-! Delay lines (R216). -/

theorem emod_lt (n : Int) {m : Nat} (h : 0 < m) : emod n m < m := by
  unfold emod
  have h1 := Int.emod_nonneg n (show (m : Int) ≠ 0 by omega)
  have h2 := Int.emod_lt_of_pos n (show (0 : Int) < m by omega)
  omega

/-- Everything a step of a delay line can do: it answers the element at the read index, stores the input
plus the fed-back output at the write index and nothing elsewhere, and advances the index. -/
theorem dlStep_spec {F : Type} [DecidableEq F] (N : Arith F) (cap : Nat) (L : DelayLine F) (x : F)
    (h : Memory.wf (some N.zero) L.buf = true) :
    (dlStep N cap L x).1 = Memory.elem N.zero L.buf (dlReadIndex cap L) ∧
    (∀ k, Memory.elem N.zero (dlStep N cap L x).2.buf k =
      if k = L.w then N.add x (N.mul L.fb (Memory.elem N.zero L.buf (dlReadIndex cap L)))
      else Memory.elem N.zero L.buf k) ∧
    (dlStep N cap L x).2.w = emod (L.w + 1) cap ∧
    (dlStep N cap L x).2.delay = L.delay ∧ (dlStep N cap L x).2.fb = L.fb ∧
    Memory.wf (some N.zero) (dlStep N cap L x).2.buf = true :=
  ⟨rfl, fun _ => Memory.elem_write h _ _ _, rfl, rfl, rfl, Memory.wf_write h _ _⟩

/-- The same in the block, whose buffers are read as words. -/
theorem dlStep_b32 (d cap : Nat) (L : DelayLine Word) (x : Word)
    (h : Memory.wf zeroBlank L.buf = true) :
    (dlStep (b32 d) cap L x).1 = Memory.word L.buf (dlReadIndex cap L) ∧
    (∀ k, Memory.word (dlStep (b32 d) cap L x).2.buf k =
      if k = L.w then fadd d x (fmul d L.fb (Memory.word L.buf (dlReadIndex cap L)))
      else Memory.word L.buf k) ∧
    (dlStep (b32 d) cap L x).2.w = emod (L.w + 1) cap ∧
    (dlStep (b32 d) cap L x).2.delay = L.delay ∧ (dlStep (b32 d) cap L x).2.fb = L.fb ∧
    Memory.wf zeroBlank (dlStep (b32 d) cap L x).2.buf = true :=
  dlStep_spec (b32 d) cap L x h

@[simp] theorem dlSet_buf {F : Type} (cap : Nat) (L : DelayLine F) (d : Word) (g : F) :
    (dlSet cap L d g).1.buf = L.buf := rfl
@[simp] theorem dlSet_w {F : Type} (cap : Nat) (L : DelayLine F) (d : Word) (g : F) :
    (dlSet cap L d g).1.w = L.w := rfl
@[simp] theorem dlSet_delay {F : Type} (cap : Nat) (L : DelayLine F) (d : Word) (g : F) :
    (dlSet cap L d g).1.delay = d := rfl
@[simp] theorem dlSet_fb {F : Type} (cap : Nat) (L : DelayLine F) (d : Word) (g : F) :
    (dlSet cap L d g).1.fb = g := rfl

/-! The reverb network's twelve states (R35). -/

theorem Reverb.line_setLine {F : Type} (V : Reverb F) (c c' : Chan) (g g' : Stage) (x : DelayLine F) :
    (V.setLine c g x).line c' g' = if c' = c ∧ g' = g then x else V.line c' g' := by
  cases c <;> cases c' <;> cases g <;> cases g' <;> rfl

theorem Reverb.allpass_setAllpass {F : Type} (V : Reverb F) (c c' : Chan) (g g' : Stage) (x : Biquad F) :
    (V.setAllpass c g x).allpass c' g' = if c' = c ∧ g' = g then x else V.allpass c' g' := by
  cases c <;> cases c' <;> cases g <;> cases g' <;> rfl

@[simp] theorem Reverb.line_setAllpass {F : Type} (V : Reverb F) (c c' : Chan) (g g' : Stage) (x : Biquad F) :
    (V.setAllpass c g x).line c' g' = V.line c' g' := rfl

@[simp] theorem Reverb.allpass_setLine {F : Type} (V : Reverb F) (c c' : Chan) (g g' : Stage) (x : DelayLine F) :
    (V.setLine c g x).allpass c' g' = V.allpass c' g' := rfl

/-! The analyzer (R253, R257). -/

/-- One sample, by whether it completes a hop. -/
theorem spaTake_eq (s : State) (x : Word) :
    spaTake s x =
      if s.spa.hcnt + 1 = s.cfg.spaHop then
        (State.publish { s with spa := { hist := shiftIn s.spa.hist x, hcnt := 0 } }
          (Config.num.dftmag s.cfg (shiftIn s.spa.hist x))).midCommand
      else { s with spa := { hist := shiftIn s.spa.hist x, hcnt := s.spa.hcnt + 1 } } := by
  unfold spaTake spaStep
  split <;> rfl

/-- One sample leaves everything but the analyzer, its snapshot and the reader's fields alone. -/
theorem spaTake_frame (s : State) (x : Word) :
    spaTake s x = { s with
      spa := (spaTake s x).spa, bins := (spaTake s x).bins, spaSeq := (spaTake s x).spaSeq,
      midSnaps := (spaTake s x).midSnaps, readerSaw := (spaTake s x).readerSaw } := by
  rw [spaTake_eq]
  split
  · unfold State.midCommand; split <;> rfl
  · rfl

/-- A block of samples leaves everything but the analyzer, its snapshot and the reader's fields alone. -/
theorem spaTakeAll_frame (s : State) (xs : List Word) :
    spaTakeAll s xs = { s with
      spa := (spaTakeAll s xs).spa, bins := (spaTakeAll s xs).bins,
      spaSeq := (spaTakeAll s xs).spaSeq, midSnaps := (spaTakeAll s xs).midSnaps,
      readerSaw := (spaTakeAll s xs).readerSaw } := by
  induction xs generalizing s with
  | nil => rfl
  | cons x rest ih =>
    obtain ⟨u, hu⟩ : ∃ u, spaTake s x = u := ⟨_, rfl⟩
    have h1 := spaTake_frame s x
    have h := ih u
    rw [spaTakeAll, hu]
    rw [hu] at h1
    obtain ⟨v, hv⟩ : ∃ v, spaTakeAll u rest = v := ⟨_, rfl⟩
    rw [hv] at h ⊢
    cases u; cases v; cases s
    simp only [State.mk.injEq, true_and, and_true] at h h1 ⊢
    grind

/-! The fields a block of samples leaves alone. -/

@[simp] theorem spaTakeAll_a0 (s : State) (xs : List Word) : (spaTakeAll s xs).a0 = s.a0 := by
  rw [spaTakeAll_frame]
@[simp] theorem spaTakeAll_a1 (s : State) (xs : List Word) : (spaTakeAll s xs).a1 = s.a1 := by
  rw [spaTakeAll_frame]
@[simp] theorem spaTakeAll_a2 (s : State) (xs : List Word) : (spaTakeAll s xs).a2 = s.a2 := by
  rw [spaTakeAll_frame]
@[simp] theorem spaTakeAll_a3 (s : State) (xs : List Word) : (spaTakeAll s xs).a3 = s.a3 := by
  rw [spaTakeAll_frame]
@[simp] theorem spaTakeAll_a4 (s : State) (xs : List Word) : (spaTakeAll s xs).a4 = s.a4 := by
  rw [spaTakeAll_frame]
@[simp] theorem spaTakeAll_r0 (s : State) (xs : List Word) : (spaTakeAll s xs).r0 = s.r0 := by
  rw [spaTakeAll_frame]
@[simp] theorem spaTakeAll_r1 (s : State) (xs : List Word) : (spaTakeAll s xs).r1 = s.r1 := by
  rw [spaTakeAll_frame]
@[simp] theorem spaTakeAll_mode (s : State) (xs : List Word) : (spaTakeAll s xs).mode = s.mode := by
  rw [spaTakeAll_frame]
@[simp] theorem spaTakeAll_fault (s : State) (xs : List Word) : (spaTakeAll s xs).fault = s.fault := by
  rw [spaTakeAll_frame]
@[simp] theorem spaTakeAll_faultInfo (s : State) (xs : List Word) : (spaTakeAll s xs).faultInfo = s.faultInfo := by
  rw [spaTakeAll_frame]
@[simp] theorem spaTakeAll_diag (s : State) (xs : List Word) : (spaTakeAll s xs).diag = s.diag := by
  rw [spaTakeAll_frame]
@[simp] theorem spaTakeAll_ntab (s : State) (xs : List Word) : (spaTakeAll s xs).ntab = s.ntab := by
  rw [spaTakeAll_frame]
@[simp] theorem spaTakeAll_wt (s : State) (xs : List Word) : (spaTakeAll s xs).wt = s.wt := by
  rw [spaTakeAll_frame]
@[simp] theorem spaTakeAll_osc (s : State) (xs : List Word) : (spaTakeAll s xs).osc = s.osc := by
  rw [spaTakeAll_frame]
@[simp] theorem spaTakeAll_env (s : State) (xs : List Word) : (spaTakeAll s xs).env = s.env := by
  rw [spaTakeAll_frame]
@[simp] theorem spaTakeAll_bq (s : State) (xs : List Word) : (spaTakeAll s xs).bq = s.bq := by
  rw [spaTakeAll_frame]
@[simp] theorem spaTakeAll_dl (s : State) (xs : List Word) : (spaTakeAll s xs).dl = s.dl := by
  rw [spaTakeAll_frame]
@[simp] theorem spaTakeAll_rvb (s : State) (xs : List Word) : (spaTakeAll s xs).rvb = s.rvb := by
  rw [spaTakeAll_frame]
@[simp] theorem spaTakeAll_drv (s : State) (xs : List Word) : (spaTakeAll s xs).drv = s.drv := by
  rw [spaTakeAll_frame]
@[simp] theorem spaTakeAll_spaIn (s : State) (xs : List Word) : (spaTakeAll s xs).spaIn = s.spaIn := by
  rw [spaTakeAll_frame]
@[simp] theorem spaTakeAll_cfg (s : State) (xs : List Word) : (spaTakeAll s xs).cfg = s.cfg := by
  rw [spaTakeAll_frame]
@[simp] theorem spaTakeAll_draw (s : State) (xs : List Word) : (spaTakeAll s xs).draw = s.draw := by
  rw [spaTakeAll_frame]
@[simp] theorem spaTakeAll_port (s : State) (xs : List Word) : (spaTakeAll s xs).port = s.port := by
  rw [spaTakeAll_frame]
@[simp] theorem spaTakeAll_hostSaw (s : State) (xs : List Word) : (spaTakeAll s xs).hostSaw = s.hostSaw := by
  rw [spaTakeAll_frame]

theorem spaTakeAll_append (s : State) (xs ys : List Word) :
    spaTakeAll s (xs ++ ys) = spaTakeAll (spaTakeAll s xs) ys := by
  induction xs generalizing s with
  | nil => rfl
  | cons x rest ih => exact ih (spaTake s x)

/-! Port events. -/

/-- A step under a configuration that is an ST2 is the next event, and nothing when there is none. -/
theorem step_event {s : State} (hc : s.cfg.ok = true) {e : Event} {rest : List Event}
    (hp : s.port = e :: rest) : step s = performEvent e { s with port := rest } := by
  simp [step, takeEvent, hc, hp]

theorem step_idle {s : State} (hc : s.cfg.ok = true) (hp : s.port = []) : step s = .next s := by
  simp [step, takeEvent, hc, hp]

/-- If a step answers a next state, the configuration is an ST2, and the block was idle or the next event
answered it. -/
theorem step_next {s t : State} (h : step s = .next t) :
    s.cfg.ok = true ∧ ((s.port = [] ∧ t = s) ∨
      ∃ e rest, s.port = e :: rest ∧ performEvent e { s with port := rest } = .next t) := by
  unfold step takeEvent at h
  split at h
  · split at h
    · cases h; exact ⟨‹_›, Or.inl ⟨‹_›, rfl⟩⟩
    · cases h
  · split at h
    · exact ⟨‹_›, Or.inr ⟨_, _, ‹_›, h⟩⟩
    · cases h

/-- A word written to `CMD` that spells a command runs it, in every mode (R86). -/
theorem cmdWrite_ok {s : State} {c : Word} {i : Instr} (hd : decode c = .ok i) (he : encode i = c) :
    s.mode ≠ .faulted ∨ i = .sysReset → cmdWrite s c = exec i s := by
  intro h
  unfold cmdWrite
  split
  · rename_i hm
    rcases h with h | rfl
    · exact absurd hm h
    · rw [if_pos (by rw [← he]; rfl)]
  · rw [hd]
  · rw [hd]

end Sys2Proof.Machine
end

