-- ==== Sys2Proof/Laws/Invariant.lean ====
section
/-! SUPPORT. What the invariant of the block rests on: completeness of the store looks at three fields, a
delay line step and the reverb operations keep lines in their ranges, clamped positions lie in [0, 1], and
the analyzer keeps its sizes. -/

namespace Sys2Proof.Machine

/-- Completeness of the store depends on the configuration, the table counts and the cells alone. -/
theorem storeComplete_congr {s t : State} (hc : t.cfg = s.cfg) (hn : t.ntab = s.ntab)
    (hw : t.wt = s.wt) : t.storeComplete = s.storeComplete := by
  rw [Bool.eq_iff_iff, storeComplete_iff, storeComplete_iff]
  simp only [State.ntabAt, State.cell, hc, hn, hw]

/-- The invariant does not look at operands, results, diagnostics, the publish count or the model's own
fields. -/
theorem blockInv_congr {s t : State} (h : BlockInv s) (hc : t.cfg = s.cfg) (hn : t.ntab = s.ntab)
    (hw : t.wt = s.wt) (ho : t.osc = s.osc) (he : t.env = s.env) (hb : t.bq = s.bq)
    (hd : t.dl = s.dl) (hr : t.rvb = s.rvb) (hv : t.drv = s.drv) (hm : t.mode = s.mode)
    (hf : t.fault = s.fault) (hi : t.faultInfo = s.faultInfo) (hs : t.spa = s.spa)
    (hsi : t.spaIn = s.spaIn) (hbi : t.bins = s.bins) : BlockInv t := by
  have hcc := storeComplete_congr hc hn hw
  constructor
  all_goals simp only [hc, hn, hw, ho, he, hb, hd, hr, hv, hm, hf, hi, hs, hsi, hbi, hcc]
  exacts [h.cfg_ok, h.ntab_length, h.ntab_range, h.store_wf, h.store_finite, h.osc_length, h.env_length,
    h.bq_length, h.dl_length, h.rvb_length, h.drv_length, h.osc_bank, h.osc_morph, h.osc_config, h.dl_ok,
    h.rvb_ok, h.drv_ok, h.drv_fixed, h.hist_length, h.hcnt_range, h.spaIn_wf, h.spaIn_below,
    h.bins_length, h.fault_iff, h.faultInfo_zero, h.sealed]

/-- A step keeps a delay line in its ranges (R216). -/
theorem delayLineOk_step {cap : Nat} {n : Nat} {L : DelayLine Word} {x : Word}
    (h : DelayLineOk cap L) : DelayLineOk cap (dlStep (b32 n) cap L x).2 := by
  obtain ⟨h1, h2, h3⟩ := h
  exact ⟨Memory.wf_write h1 _ _, Memory.below_write h2 h3 _,
    by rw [(dlStep_b32 n cap L x h1).2.2.1]; exact emod_lt _ (Nat.zero_lt_of_lt h3)⟩

/-- A stage of a chain keeps the six lines in their ranges (R227). -/
theorem rvbStage_lines {n : Nat} {c : Config} {ch : Chan} {g : Stage} {V : Reverb Word} {v : Word}
    (h : ∀ c' g', DelayLineOk c.rvbDlCap (V.line c' g')) (c' : Chan) (g' : Stage) :
    DelayLineOk c.rvbDlCap ((rvbStage (b32 n) c ch g V v).2.line c' g') := by
  simp only [rvbStage, Reverb.line_setAllpass, Reverb.line_setLine]
  split
  · exact delayLineOk_step (h _ _)
  · exact h _ _

/-- So does a whole chain. -/
theorem rvbChain_lines {n : Nat} {c : Config} {ch : Chan} {V : Reverb Word} {v : Word}
    (h : ∀ c' g', DelayLineOk c.rvbDlCap (V.line c' g')) :
    ∀ c' g', DelayLineOk c.rvbDlCap ((rvbChain (b32 n) c ch V v).2.line c' g') :=
  rvbStage_lines (rvbStage_lines (rvbStage_lines h))

/-- New parameters keep the six lines in their ranges (R226). -/
theorem rvbUpdate_lines {n : Nat} {c : Config} {d : Int} {fb fr q : Word} {V : Reverb Word}
    (h : ∀ c' g', DelayLineOk c.rvbDlCap (V.line c' g')) :
    ∀ c' g', DelayLineOk c.rvbDlCap ((rvbUpdate (b32 n) c d fb fr q V).1.line c' g') := by
  have one : ∀ (g : Stage) {W : Reverb Word}, (∀ c' g', DelayLineOk c.rvbDlCap (W.line c' g')) →
      ∀ c' g', DelayLineOk c.rvbDlCap ((rvbUpdateStage (b32 n) c d fb fr q g W).1.line c' g') := by
    intro g W hW c' g'
    simp only [rvbUpdateStage, Reverb.line_setAllpass, Reverb.line_setLine]
    split
    · exact hW _ _
    · split
      · exact hW _ _
      · exact hW _ _
  exact one .s3 (one .s2 (one .s1 h))

/-- What `clamp01` lets through lies in [0, 1] (R113). -/
theorem inUnit_clamp01 (d : Nat) (p : Word) : InUnit (clamp01 (b32 d) p).1 := by
  have e1 : InUnit fOne := by unfold InUnit; decide
  have e0 : InUnit fZero := by unfold InUnit; decide
  unfold clamp01
  split
  · split
    · exact ⟨‹_›, ‹_›⟩
    · exact e1
  · exact e0

/-- The sizes of the analyzer (R37, R39). -/
def AnalyzerSizes (s : State) : Prop :=
  s.spa.hist.length = s.cfg.spaWin ∧ s.spa.hcnt < s.cfg.spaHop ∧ s.bins.length = s.cfg.nbins

/-- One sample keeps the sizes (R253, `DFT_LEN`). -/
theorem analyzerSizes_take {s : State} {x : Word} (hw : 1 ≤ s.cfg.spaWin) (hh : 0 < s.cfg.spaHop)
    (h : AnalyzerSizes s) : AnalyzerSizes (spaTake s x) := by
  obtain ⟨h1, h2, h3⟩ := h
  have hl : (shiftIn s.spa.hist x).length = s.cfg.spaWin := by simp [shiftIn, h1]; omega
  rw [spaTake_eq]
  split
  · have e : ∀ u : State, u.midCommand.spa = u.spa ∧ u.midCommand.cfg = u.cfg ∧
        u.midCommand.bins = u.bins := by
      intro u; unfold State.midCommand; split <;> exact ⟨rfl, rfl, rfl⟩
    unfold AnalyzerSizes
    rw [(e _).1, (e _).2.1, (e _).2.2]
    exact ⟨hl, hh, Config.num.dft_len _ _ hl⟩
  · exact ⟨hl, by show s.spa.hcnt + 1 < s.cfg.spaHop; omega, h3⟩

/-- A block of samples keeps the sizes. -/
theorem analyzerSizes_takeAll {xs : List Word} : ∀ {s : State}, 1 ≤ s.cfg.spaWin → 0 < s.cfg.spaHop →
    AnalyzerSizes s → AnalyzerSizes (spaTakeAll s xs) := by
  induction xs with
  | nil => exact fun _ _ h => h
  | cons x rest ih =>
    intro s hw hh h
    have hc : (spaTake s x).cfg = s.cfg := by rw [spaTake_frame]
    exact ih (by rw [hc]; exact hw) (by rw [hc]; exact hh) (analyzerSizes_take hw hh h)

end Sys2Proof.Machine
end

