-- ==== Sys2Proof/Laws/Analyzer.lean ====
section
/-! SUPPORT. Everything a block of samples does to the analyzer (47_spectrum.md R253, R255, R257, R258), said
once: history, hop counter, publishes, and what the reader gets meanwhile. -/

namespace Sys2Proof.Machine

/-- What publish number `k` of the block `xs` leaves: the count raised by `k` and the transform of the newest
`SPA_WIN` samples at the sample at which the hop counter reaches `SPA_HOP` for the `k`th time. -/
def publishedPair (s : State) (xs : List Word) (k : Nat) : Snapshot :=
  { seq := s.spaSeq + BitVec.ofNat 32 k
    bins := if k = 0 then s.bins
      else Config.num.dftmag s.cfg (lastOf s.cfg.spaWin
        ((s.spa.hist ++ xs).take (s.cfg.spaWin + k * s.cfg.spaHop - s.spa.hcnt))) }

/-- A sample after the block does not touch the pairs the block has published. -/
theorem publishedPair_append {s : State} {xs ys : List Word} {k : Nat}
    (hw : s.spa.hist.length = s.cfg.spaWin) (hk : k * s.cfg.spaHop ≤ s.spa.hcnt + xs.length) :
    publishedPair s (xs ++ ys) k = publishedPair s xs k := by
  unfold publishedPair
  rw [← List.append_assoc, List.take_append_of_le_length (by simp; omega)]

/-- The history after a sample is the newest part of what was heard. -/
theorem shiftIn_lastOf {n : Nat} {xs : List Word} (x : Word) (hn : 1 ≤ n) (h : n ≤ xs.length) :
    shiftIn (lastOf n xs) x = lastOf n (xs ++ [x]) := by
  unfold shiftIn lastOf
  rw [List.drop_drop, List.drop_append_of_le_length (by simp; omega)]
  congr 2
  simp; omega

/-- The reader's operations after a publish get the pair as it stands and change nothing of the block (R320). -/
theorem midCommand_spec (u : State) :
    u.midCommand.spa = u.spa ∧ u.midCommand.spaSeq = u.spaSeq ∧ u.midCommand.bins = u.bins ∧
    ∃ n, u.midCommand.readerSaw =
      List.replicate n { seq := u.spaSeq, bins := u.bins } ++ u.readerSaw := by
  unfold State.midCommand
  split
  · exact ⟨rfl, rfl, rfl, 0, rfl⟩
  · exact ⟨rfl, rfl, rfl, _, rfl⟩

/-- One sample that completes a hop publishes the transform of the new history (R253, R257). -/
theorem spaTake_publish {s : State} {x : Word} (h : s.spa.hcnt + 1 = s.cfg.spaHop) :
    let mags := Config.num.dftmag s.cfg (shiftIn s.spa.hist x)
    (spaTake s x).spa = { hist := shiftIn s.spa.hist x, hcnt := 0 } ∧
    (spaTake s x).spaSeq = s.spaSeq + 1#32 ∧ (spaTake s x).bins = mags ∧
    ∃ n, (spaTake s x).readerSaw =
      List.replicate n { seq := s.spaSeq + 1#32, bins := mags } ++ s.readerSaw := by
  have e : spaTake s x = (State.publish { s with spa := { hist := shiftIn s.spa.hist x, hcnt := 0 } }
    (Config.num.dftmag s.cfg (shiftIn s.spa.hist x))).midCommand := (spaTake_eq s x).trans (if_pos h)
  rw [e]
  exact midCommand_spec _

/-- One sample that completes no hop only enters the history (R253). -/
theorem spaTake_quiet {s : State} {x : Word} (h : s.spa.hcnt + 1 ≠ s.cfg.spaHop) :
    spaTake s x = { s with spa := { hist := shiftIn s.spa.hist x, hcnt := s.spa.hcnt + 1 } } :=
  (spaTake_eq s x).trans (if_neg h)

/-- A block of samples in one lemma: what `spaTakeAll` leaves, and what the reader got from it. -/
theorem spaTakeAll_spec {s : State} (hw : 1 ≤ s.cfg.spaWin) (h : AnalyzerSizes s) (xs : List Word) :
    let p := (s.spa.hcnt + xs.length) / s.cfg.spaHop
    (spaTakeAll s xs).spa.hist = lastOf s.cfg.spaWin (s.spa.hist ++ xs) ∧
    (spaTakeAll s xs).spa.hcnt = (s.spa.hcnt + xs.length) % s.cfg.spaHop ∧
    { seq := (spaTakeAll s xs).spaSeq, bins := (spaTakeAll s xs).bins } = publishedPair s xs p ∧
    ∃ seen : List Nat, (spaTakeAll s xs).readerSaw = seen.map (publishedPair s xs) ++ s.readerSaw ∧
      (∀ k ∈ seen, 1 ≤ k ∧ k ≤ p) ∧ seen.Pairwise (fun a b => b ≤ a) := by
  obtain ⟨hl, hc, _⟩ := h
  have hH : 0 < s.cfg.spaHop := by omega
  induction xs using List.reverseRecOn with
  | nil =>
    refine ⟨by simp [spaTakeAll, lastOf, hl], (Nat.mod_eq_of_lt hc).symm, ?_, [], rfl, by simp, .nil⟩
    simp [spaTakeAll, publishedPair, Nat.div_eq_of_lt hc]
  | append_singleton xs x ih =>
    obtain ⟨i1, i2, i3, seen, i4, i5, i6⟩ := ih
    have ecfg : (spaTakeAll s xs).cfg = s.cfg := spaTakeAll_cfg s xs
    have ehist : shiftIn (spaTakeAll s xs).spa.hist x = lastOf s.cfg.spaWin (s.spa.hist ++ (xs ++ [x])) := by
      rw [i1, shiftIn_lastOf x hw (by simp; omega), List.append_assoc]
    have hp : ∀ k, k ≤ (s.spa.hcnt + xs.length) / s.cfg.spaHop →
        publishedPair s (xs ++ [x]) k = publishedPair s xs k := fun k hk =>
      publishedPair_append hl (le_trans (Nat.mul_le_mul_right _ hk) (Nat.div_mul_le_self _ _))
    have hmap : seen.map (publishedPair s (xs ++ [x])) = seen.map (publishedPair s xs) :=
      List.map_congr_left fun k hk => hp k (i5 k hk).2
    have hd := Nat.div_add_mod (s.spa.hcnt + xs.length) s.cfg.spaHop
    rw [spaTakeAll_append, List.length_append, List.length_singleton, ← Nat.add_assoc]
    simp only [spaTakeAll]
    generalize hu : spaTakeAll s xs = u at *
    by_cases hop : u.spa.hcnt + 1 = u.cfg.spaHop
    · rw [ecfg, i2] at hop
      obtain ⟨hq, hm⟩ : (s.spa.hcnt + xs.length + 1) / s.cfg.spaHop =
          (s.spa.hcnt + xs.length) / s.cfg.spaHop + 1 ∧ (s.spa.hcnt + xs.length + 1) % s.cfg.spaHop = 0 :=
        (Nat.div_mod_unique hH).2 ⟨by rw [Nat.mul_succ]; omega, hH⟩
      obtain ⟨e1, e2, e3, n, e4⟩ := spaTake_publish (s := u) (x := x) (by rw [ecfg, i2]; exact hop)
      rw [hq, hm]
      have pair : publishedPair s (xs ++ [x]) ((s.spa.hcnt + xs.length) / s.cfg.spaHop + 1) =
          { seq := u.spaSeq + 1#32, bins := Config.num.dftmag u.cfg (shiftIn u.spa.hist x) } := by
        have eseq : u.spaSeq = s.spaSeq + BitVec.ofNat 32 ((s.spa.hcnt + xs.length) / s.cfg.spaHop) :=
          congrArg Snapshot.seq i3
        have elen : (s.spa.hist ++ (xs ++ [x])).length = s.cfg.spaWin +
            ((s.spa.hcnt + xs.length) / s.cfg.spaHop + 1) * s.cfg.spaHop - s.spa.hcnt := by
          rw [Nat.mul_comm, Nat.mul_succ]; simp; omega
        unfold publishedPair
        rw [if_neg (Nat.succ_ne_zero _), List.take_of_length_le (le_of_eq elen), ecfg, ehist, eseq,
          BitVec.ofNat_add, BitVec.add_assoc]
      refine ⟨by rw [e1]; exact ehist, by rw [e1], by rw [e2, e3, pair],
        List.replicate n ((s.spa.hcnt + xs.length) / s.cfg.spaHop + 1) ++ seen, ?_, ?_, ?_⟩
      · rw [e4, i4, List.map_append, hmap, List.map_replicate, pair, List.append_assoc]
      · intro k hk
        rcases List.mem_append.1 hk with hk | hk
        · rw [List.eq_of_mem_replicate hk]; exact ⟨Nat.succ_pos _, le_refl _⟩
        · exact ⟨(i5 k hk).1, Nat.le_succ_of_le (i5 k hk).2⟩
      · refine List.pairwise_append.2 ⟨List.pairwise_replicate.2 (.inr (le_refl _)), i6, ?_⟩
        intro a ha b hb
        rw [List.eq_of_mem_replicate ha]
        exact Nat.le_succ_of_le (i5 b hb).2
    · rw [spaTake_quiet hop]
      rw [ecfg, i2] at hop
      have hlt := Nat.mod_lt (s.spa.hcnt + xs.length) hH
      obtain ⟨hq, hm⟩ : (s.spa.hcnt + xs.length + 1) / s.cfg.spaHop =
          (s.spa.hcnt + xs.length) / s.cfg.spaHop ∧
          (s.spa.hcnt + xs.length + 1) % s.cfg.spaHop = (s.spa.hcnt + xs.length) % s.cfg.spaHop + 1 :=
        (Nat.div_mod_unique hH).2 ⟨by omega, by omega⟩
      rw [hq, hm]
      exact ⟨ehist, by simp [i2], by rw [hp _ (le_refl _), ← i3], seen, by rw [hmap]; exact i4, i5, i6⟩

end Sys2Proof.Machine
end

