-- ==== Sys2Proof/Laws/Exact.lean ====
section
/-! SUPPORT. The comparisons of the exact reading (40_numerics.md R110), and that its transform magnitude is
the exact value the properties of R256 speak of. -/

namespace Sys2Proof

@[simp] theorem exactReading_lt (a b : ℝ) : exactReading.lt a b = true ↔ a < b := by
  simp [exactReading]

@[simp] theorem exactReading_le (a b : ℝ) : exactReading.le a b = true ↔ a ≤ b := by
  simp [exactReading]

/-- R100's exchanged carrier, at the drive unit (R242): its output in the exact reading. -/
theorem drvStep_exact (cap : Nat) (D : Machine.Drive ℝ) (x : ℝ) :
    (Machine.drvStep exactReading cap D x).1 =
      Real.tanh (x * Machine.Memory.elem 0 D.dl.buf (Machine.dlReadIndex cap D.dl)) := rfl

/-- The exact value `DFT_NAN` names is the magnitude of the exact reading, at the history's real values. -/
theorem isExactMag_iff {c : Config} {hist : List Word} {k : Nat} {r : ℝ} :
    IsExactMag c hist k r ↔ r = exactMag c (hist.map exactValue) k := by
  have zero : exactValue 0 = 0 := by
    unfold exactValue
    rw [show Machine.units 0 = 0 from rfl]
    simp
  have at_ : ∀ n, (hist.map exactValue).getD n 0 = exactValue (hist.getD n 0) := fun n => by
    rw [← zero, List.getD_map]
  constructor
  · rintro ⟨x, hx, h0, rfl⟩
    have e : x = fun n => if n < c.spaWin then
        (hist.map exactValue).getD n 0 * exactValue (c.spaWinFn.getD n 0) else 0 := by
      funext n
      split
      · obtain ⟨h, g, rfl, rfl, hn⟩ := hx n ‹_›
        rw [hn, at_]; rfl
      · exact h0 n (by omega)
    rw [e]; rfl
  · rintro rfl
    refine ⟨_, fun n hn => ⟨_, _, rfl, rfl, ?_⟩, fun n hn => ?_, rfl⟩
    · rw [if_pos hn, at_]; rfl
    · exact if_neg (by omega)

end Sys2Proof
end

