-- ==== Sys2Proof/Laws/Port.lean ====
section
/-! SUPPORT. What stands at each offset of the host port (20_memory.md R61, R63 to R65), and what a step does
with a read or a write there. -/

namespace Sys2Proof.Machine

/-- The window sizes of a configuration that is an ST2 (R6). -/
theorem window_sizes {c : Config} (h : c.ok = true) :
    1 ≤ c.spaBlkMax ∧ c.spaBlkMax ≤ 4096 ∧ c.nbins ≤ 4096 := by
  simp only [Config.ok, Bool.and_eq_true, decide_eq_true_eq] at h; omega

/-- From 0x0030 on, above the registers, only the two windows hold anything (R61). -/
theorem portAt_windows {c : Config} {off : Nat} (h : 0x0030 ≤ off) :
    portAt c off =
      if 0x1000 ≤ off ∧ off ≤ 0x1FFF then
        (if off - 0x1000 < c.spaBlkMax then .spaIn (off - 0x1000) else .reserved)
      else if 0x2000 ≤ off ∧ off ≤ 0x2FFF then
        (if off - 0x2000 < c.nbins then .bin (off - 0x2000) else .reserved)
      else if off ≤ 0x2FFF then .reserved
      else .outside := by
  unfold portAt
  iterate 9 rw [if_neg (by omega)]

/-- The place of each word of the input buffer (R63). -/
theorem portAt_spaIn {c : Config} (hc : c.spaBlkMax ≤ 4096) {i : Nat} (h : i < c.spaBlkMax) :
    portAt c (0x1000 + i) = .spaIn i := by
  rw [portAt_windows (by omega), if_pos (by omega), if_pos (by omega), Nat.add_sub_cancel_left]

/-- The place of each published bin (R64). -/
theorem portAt_bin {c : Config} (hc : c.nbins ≤ 4096) {k : Nat} (h : k < c.nbins) :
    portAt c (0x2000 + k) = .bin k := by
  rw [portAt_windows (by omega), if_neg (by omega), if_pos (by omega), if_pos (by omega),
    Nat.add_sub_cancel_left]

/-- The reserved offsets of R61, R63 and R64. -/
theorem portAt_reserved {c : Config} {off : Nat}
    (h : off = 0x0006 ∨ off = 0x0007 ∨ (0x000D ≤ off ∧ off ≤ 0x000F) ∨ (0x0012 ≤ off ∧ off ≤ 0x001F) ∨
      (0x0030 ≤ off ∧ off ≤ 0x0FFF) ∨ (0x1000 + c.spaBlkMax ≤ off ∧ off ≤ 0x1FFF) ∨
      (0x2000 + c.nbins ≤ off ∧ off ≤ 0x2FFF)) : portAt c off = .reserved := by
  rcases Nat.lt_or_ge off 0x0030 with hl | hl
  · interval_cases off <;> first | rfl | omega
  · rw [portAt_windows hl]
    repeat' split
    all_goals first | rfl | omega

/-- Above 0x2FFF an offset lies outside the block (R65). -/
theorem portAt_outside {c : Config} {off : Nat} (h : 0x3000 ≤ off) : portAt c off = .outside := by
  rw [portAt_windows (by omega)]
  repeat' split
  all_goals first | rfl | omega

/-- Only the offsets above 0x2FFF lie outside the block (R65). -/
theorem portAt_inside {c : Config} {off : Nat} (h : off ≤ 0x2FFF) : portAt c off ≠ .outside := by
  rcases Nat.lt_or_ge off 0x0030 with hl | hl
  · interval_cases off <;> simp [portAt]
  · rw [portAt_windows hl]
    repeat' split
    all_goals first | omega | simp

/-- `CMD` stands at offset 0 only (R61). -/
theorem portAt_cmd {c : Config} {off : Nat} (h : portAt c off = .cmd) : off = 0 := by
  rcases Nat.lt_or_ge off 0x0030 with hl | hl
  · interval_cases off <;> simp [portAt] at h ⊢
  · rw [portAt_windows hl] at h
    repeat' split at h
    all_goals cases h

/-- A read returns its word to the host and changes nothing else (R67). -/
theorem step_read {s : State} {rest : List Event} {off : Nat} {w : Word} (hc : s.cfg.ok = true)
    (hp : s.port = .read off :: rest) (h : regRead { s with port := rest } off = some w) :
    step s = .next { s with port := rest, hostSaw := w :: s.hostSaw } := by
  rw [step_event hc hp]; simp [performEvent, h]

/-- A write is `RegWrite` on the state from which it has been taken (R61). -/
theorem step_write {s : State} {rest : List Event} {off : Nat} {w : Word} (hc : s.cfg.ok = true)
    (hp : s.port = .write off w :: rest) : step s = regWrite { s with port := rest } off w :=
  step_event hc hp

/-- `STATUS` as a sum of its fields (R27). -/
theorem status_eq_add (s : State) :
    s.status = s.mode.code + (if s.diag = 0#9 then 0#32 else 4#32) := by
  unfold State.status Mode.code
  cases s.mode <;> by_cases h : s.diag = 0#9 <;> simp [h]

end Sys2Proof.Machine
end

