-- ==== Sys2Proof/Laws/Exec.lean ====
section
/-! SUPPORT. Everything a command can do, said once: it is discarded in FAULTED mode, ignored with one
diagnostic bit, enters a fault, resets, or has its own effect. Later proofs take these cases instead of
unfolding a meaning. -/

namespace Sys2Proof.Machine

/-- The effect of a command's own rule from state `s`, with the conditions its tests have established. -/
def Effect (i : Instr) (s t : State) : Prop :=
  match i with
  | .sysNop => t = s
  | .sysReset => t = s.doReset
  | .wtsBank =>
    s.mode = .config ∧ s.a0.toNat < s.cfg.nBanks ∧ 2 ≤ s.a1.toNat ∧ s.a1.toNat ≤ s.cfg.ntMax ∧
    s.ntabAt s.a0.toNat = 0 ∧ t = s.setNtab s.a0.toNat s.a1.toNat
  | .wtsWr =>
    s.mode = .config ∧ s.a0.toNat < s.cfg.nBanks ∧ s.ntabAt s.a0.toNat ≠ 0 ∧
    s.a1.toNat < s.ntabAt s.a0.toNat ∧ s.a2.toNat < s.cfg.tableLen ∧ isFinite s.a3 = true ∧
    t = s.setCell s.a0.toNat s.a1.toNat s.a2.toNat s.a3
  | .wtsSeal => s.mode = .config ∧ s.storeComplete = true ∧ t = { s with mode := .run }
  | .envInit j => j < s.cfg.nEnv ∧ t = s.setEnv j Env.reset
  | .envSetp j => j < s.cfg.nEnv ∧
    t = s.setEnv j { s.envAt j with attack := s.a0, decay := s.a1, sustain := s.a2, release := s.a3 }
  | .envProc j => j < s.cfg.nEnv ∧
    t = (s.setEnv j (envStep (b32 s.draw) (s.envAt j) s.a0 s.a1).2).withR01
      (envStep (b32 s.draw) (s.envAt j) s.a0 s.a1).1
      (bitsB (envStep (b32 s.draw) (s.envAt j) s.a0 s.a1).2.finished)
  | .envStat j => j < s.cfg.nEnv ∧ t = s.withR01 (s.envAt j).rsa (bitsB (s.envAt j).finished)
  | .oscInit j => s.mode = .run ∧ j < s.cfg.nOsc ∧ s.a1.toNat < s.cfg.nBanks ∧
    ∃ o : Osc Word, o.bank = s.a1.toNat ∧ o.morph = fZero ∧
      t = (s.setOsc j o).raiseDiag (guardFreq (b32 s.draw) s.cfg.fMin s.a0).2
  | .oscSetf j => j < s.cfg.nOsc ∧ (s.oscAt j).valid = true ∧
    ∃ p q, t = (s.setOsc j { s.oscAt j with spc := p, scale := q }).raiseDiag
      (guardFreq (b32 s.draw) s.cfg.fMin s.a0).2
  | .oscSetm j => j < s.cfg.nOsc ∧ (s.oscAt j).valid = true ∧
    t = (s.setOsc j { s.oscAt j with morph := (clamp01 (b32 s.draw) s.a0).1 }).raiseDiag
      (clamp01 (b32 s.draw) s.a0).2
  | .oscProc j => j < s.cfg.nOsc ∧ (s.oscAt j).valid = true ∧ ∃ w, t = s.withR0 w
  | .bqInit j => j < s.cfg.nBq ∧ t = s.setBq j Biquad.reset
  | .bqSetc j => j < s.cfg.nBq ∧ ∃ B, t = s.setBq j B
  | .bqLp j => j < s.cfg.nBq ∧ ∃ B, t = (s.setBq j B).raiseDiag
      (designPrelude (b32 s.draw) s.cfg.fs s.cfg.fMin s.cfg.qMin s.a0 s.a1).2
  | .bqAp j => j < s.cfg.nBq ∧ ∃ B, t = (s.setBq j B).raiseDiag
      (designPrelude (b32 s.draw) s.cfg.fs s.cfg.fMin s.cfg.qMin s.a0 s.a1).2
  | .bqProc j => j < s.cfg.nBq ∧
    t = (s.setBq j (bqStep (b32 s.draw) (s.bqAt j) s.a0).2).withR0
      (bqStep (b32 s.draw) (s.bqAt j) s.a0).1
  | .dlInit j => j < s.cfg.nDl ∧
    t = (s.setDl j { buf := [], w := 0, delay := s.a0, fb := s.a1 }).raiseDiag
      (DiagBit.delayWrapped.when (delayOutside s.cfg.dlCap s.a0))
  | .dlSet j => j < s.cfg.nDl ∧
    t = (s.setDl j { s.dlAt j with delay := s.a0, fb := s.a1 }).raiseDiag
      (DiagBit.delayWrapped.when (delayOutside s.cfg.dlCap s.a0))
  | .dlProc j => j < s.cfg.nDl ∧
    t = (s.setDl j (dlStep (b32 s.draw) s.cfg.dlCap (s.dlAt j) s.a0).2).withR0
      (dlStep (b32 s.draw) s.cfg.dlCap (s.dlAt j) s.a0).1
  | .rvbInit j => j < s.cfg.nRvb ∧ t = s.setRvb j Reverb.reset
  | .rvbUpd j => j < s.cfg.nRvb ∧
    t = (s.setRvb j (rvbUpdate (b32 s.draw) s.cfg (asS s.a0) s.a1 s.a2 s.a3 (s.rvbAt j)).1).raiseDiag
      (rvbUpdate (b32 s.draw) s.cfg (asS s.a0) s.a1 s.a2 s.a3 (s.rvbAt j)).2
  | .rvbProc j => j < s.cfg.nRvb ∧
    t = (s.setRvb j (rvbChain (b32 s.draw) s.cfg .right
        (rvbChain (b32 s.draw) s.cfg .left (s.rvbAt j) s.a0).2 s.a0).2).withR01
      (rvbChain (b32 s.draw) s.cfg .left (s.rvbAt j) s.a0).1
      (rvbChain (b32 s.draw) s.cfg .right
        (rvbChain (b32 s.draw) s.cfg .left (s.rvbAt j) s.a0).2 s.a0).1
  | .drvInit j => j < s.cfg.nDrv ∧ t = s.setDrv j (Drive.reset s.cfg)
  | .drvProc j => j < s.cfg.nDrv ∧
    t = (s.setDrv j { dl := (dlStep (b32 s.draw) s.cfg.drvDlCap (s.drvAt j).dl s.a0).2 }).withR0
      (Config.num.tanh (fmul s.draw s.a0 (dlStep (b32 s.draw) s.cfg.drvDlCap (s.drvAt j).dl s.a0).1))
  | .spaInit => t = { s with
      spa := Analyzer.reset s.cfg, bins := List.replicate s.cfg.nbins 0#32, spaSeq := 0#32 }
  | .spaProc =>
    t = spaTakeAll (s.raiseDiag (DiagBit.spaClamped.when (decide (s.cfg.spaBlkMax < s.a0.toNat))))
      (spaBlock s 0 (spaCount s))

/-- Everything a command that answers a next state can have done (R86, R306). -/
def Did (i : Instr) (s t : State) : Prop :=
  (s.mode = .faulted ∧ i ≠ .sysReset ∧ t = s) ∨
  (s.mode ≠ .faulted ∧ ∃ b, t = s.ignored b) ∨
  (s.mode ≠ .faulted ∧ ∃ cause, FaultCondition s i cause ∧ t = s.faultEntry cause (encode i)) ∨
  ((s.mode ≠ .faulted ∨ i = .sysReset) ∧ Effect i s t)

theorem did_index {i : Instr} {s t : State} {n j : Nat} {k : Result} (hi : i ≠ .sysReset)
    (h : onIndex s n j k = .next t)
    (hk : s.mode ≠ .faulted → j < n → k = .next t → Did i s t) : Did i s t := by
  rcases onIndex_next h with ⟨hm, rfl⟩ | ⟨hm, _, rfl⟩ | ⟨hm, hj, hk'⟩
  · exact Or.inl ⟨hm, hi, rfl⟩
  · exact Or.inr (Or.inl ⟨hm, _, rfl⟩)
  · exact hk hm hj hk'

theorem did_validOsc {i : Instr} {s t : State} {j : Nat} {k : Result} (hi : i ≠ .sysReset)
    (h : onValidOsc s j k = .next t)
    (hk : s.mode ≠ .faulted → j < s.cfg.nOsc → (s.oscAt j).valid = true → k = .next t → Did i s t) :
    Did i s t := by
  rcases onValidOsc_next h with ⟨hm, rfl⟩ | ⟨hm, _, rfl⟩ | ⟨hm, _, _, rfl⟩ | ⟨hm, hj, hv, hk'⟩
  · exact Or.inl ⟨hm, hi, rfl⟩
  · exact Or.inr (Or.inl ⟨hm, _, rfl⟩)
  · exact Or.inr (Or.inl ⟨hm, _, rfl⟩)
  · exact hk hm hj hv hk'

theorem did_openStore {i : Instr} {s t : State} {k : Result} (hi : i ≠ .sysReset)
    (h : onOpenStore s k = .next t)
    (hk : s.mode = .config → k = .next t → Did i s t) : Did i s t := by
  rcases onOpenStore_next h with ⟨hm, rfl⟩ | ⟨hm, rfl⟩ | ⟨hm, hk'⟩
  · exact Or.inl ⟨hm, hi, rfl⟩
  · exact Or.inr (Or.inl ⟨by simp [hm], _, rfl⟩)
  · exact hk hm hk'

/-- An own effect is one of the things a command can have done. -/
theorem did_effect {i : Instr} {s t : State} (hm : s.mode ≠ .faulted) (h : Effect i s t) : Did i s t :=
  Or.inr (Or.inr (Or.inr ⟨Or.inl hm, h⟩))

/-- A tabled fault is one of the things a command can have done. -/
theorem did_fault {i : Instr} {s : State} (hm : s.mode ≠ .faulted) {cause : Cause}
    (h : FaultCondition s i cause) : Did i s (s.faultEntry cause (encode i)) :=
  Or.inr (Or.inr (Or.inl ⟨hm, cause, h, rfl⟩))

/-- The incomplete stores are those the seal rejects (R136, R301). -/
theorem storeComplete_false {s : State} (h : s.storeComplete = false) :
    ∃ b, b < s.cfg.nBanks ∧
      (s.ntabAt b = 0 ∨ ∃ t k, t < s.ntabAt b ∧ k < s.cfg.tableLen ∧ s.cell b t k = none) := by
  by_contra hc
  have : s.storeComplete = true := by
    rw [storeComplete_iff]
    intro b hb
    refine ⟨fun h0 => hc ⟨b, hb, Or.inl h0⟩, fun t ht k hk => ?_⟩
    cases hcell : s.cell b t k with
    | some v => rfl
    | none => exact absurd ⟨b, hb, Or.inr ⟨t, k, ht, hk, hcell⟩⟩ hc
  rw [h] at this; cases this

theorem isFinite_false {w : Word} (h : isFinite w = false) : isNaN w = true ∨ isInf w = true := by
  simp only [isFinite, isNaN, isInf, decide_eq_false_iff_not, decide_eq_true_eq] at *; omega

theorem isFinite_iff {w : Word} : isFinite w = true ↔ isNaN w = false ∧ isInf w = false := by
  simp only [isFinite, isNaN, isInf, decide_eq_false_iff_not, decide_eq_true_eq]; omega

/-- Everything a command can do: one of the four cases of `Did`. -/
theorem exec_next {i : Instr} {s t : State} (h : exec i s = .next t) : Did i s t := by
  cases i with
  | sysNop =>
    rcases unlessFaulted_next (k := .next s) h with ⟨hm, rfl⟩ | ⟨hm, hk⟩
    · exact Or.inl ⟨hm, by simp, rfl⟩
    · cases hk; exact did_effect hm rfl
  | sysReset => cases h; exact Or.inr (Or.inr (Or.inr ⟨Or.inr rfl, rfl⟩))
  | wtsBank =>
    refine did_openStore (by simp) h fun hm hk => ?_
    have hr : s.mode ≠ .faulted := by simp [hm]
    simp only [State.opA, asU] at hk
    split at hk
    · cases hk; exact did_fault hr ⟨hm, Or.inl ⟨rfl, Or.inl ‹_›⟩⟩
    split at hk
    · cases hk
      exact did_fault hr ⟨hm, Or.inl ⟨rfl, Or.inr (by simp only [asU]; omega)⟩⟩
    split at hk
    · cases hk
      exact did_fault hr ⟨hm, Or.inl ⟨rfl, Or.inr (Or.inr (Or.inr ‹_›))⟩⟩
    · cases hk
      exact did_effect hr ⟨hm, by omega, by omega, by omega, by omega, rfl⟩
  | wtsWr =>
    refine did_openStore (by simp) h fun hm hk => ?_
    have hr : s.mode ≠ .faulted := by simp [hm]
    simp only [State.opA, asU, asF] at hk
    split at hk
    · cases hk
      exact did_fault hr ⟨hm, Or.inr ⟨rfl, by simp only [asU]; omega⟩⟩
    split at hk
    · cases hk
      exact did_fault hr ⟨hm, Or.inr ⟨rfl, by simp only [asU]; omega⟩⟩
    split at hk
    · cases hk
      exact did_fault hr ⟨hm, Or.inr ⟨rfl, by simp only [asU]; omega⟩⟩
    split at hk
    · rename_i hf
      cases hk
      exact did_fault hr ⟨hm, Or.inr ⟨rfl,
        Or.inr (Or.inr (Or.inr (Or.inr (isFinite_false hf))))⟩⟩
    · rename_i hf
      cases hk
      exact did_effect hr ⟨hm, by omega, by omega, by omega, by omega, by simpa using hf, rfl⟩
  | wtsSeal =>
    refine did_openStore (by simp) h fun hm hk => ?_
    have hr : s.mode ≠ .faulted := by simp [hm]
    split at hk
    · cases hk; exact did_effect hr ⟨hm, ‹_›, rfl⟩
    · rename_i hs
      cases hk
      exact did_fault hr ⟨hm, rfl, storeComplete_false (by simpa using hs)⟩
  | envInit j => exact did_index (by simp) h fun hm hj hk => by cases hk; exact did_effect hm ⟨hj, rfl⟩
  | envSetp j => exact did_index (by simp) h fun hm hj hk => by cases hk; exact did_effect hm ⟨hj, rfl⟩
  | envProc j => exact did_index (by simp) h fun hm hj hk => by cases hk; exact did_effect hm ⟨hj, rfl⟩
  | envStat j => exact did_index (by simp) h fun hm hj hk => by cases hk; exact did_effect hm ⟨hj, rfl⟩
  | oscInit j =>
    refine did_index (by simp) h fun hm hj hk => ?_
    split at hk
    · cases hk; exact did_fault hm ⟨‹_›, j, hj, rfl⟩
    · rename_i hc
      have hrun : s.mode = .run := by
        cases hs : s.mode <;> simp_all
      simp only [State.opA, asU, asF] at hk
      split at hk
      · cases hk; exact did_fault hm ⟨hrun, j, hj, rfl, ‹_›⟩
      · cases hk; exact did_effect hm ⟨hrun, hj, by omega, _, rfl, rfl, rfl⟩
  | oscSetf j =>
    exact did_validOsc (by simp) h fun hm hj hv hk => by
      cases hk; exact did_effect hm ⟨hj, hv, _, _, rfl⟩
  | oscSetm j =>
    exact did_validOsc (by simp) h fun hm hj hv hk => by
      cases hk; exact did_effect hm ⟨hj, hv, rfl⟩
  | oscProc j =>
    refine did_validOsc (by simp) h fun hm hj hv hk => ?_
    simp only at hk
    split at hk
    · cases hk; exact did_effect hm ⟨hj, hv, _, rfl⟩
    · cases hk
  | bqInit j => exact did_index (by simp) h fun hm hj hk => by cases hk; exact did_effect hm ⟨hj, rfl⟩
  | bqSetc j => exact did_index (by simp) h fun hm hj hk => by cases hk; exact did_effect hm ⟨hj, _, rfl⟩
  | bqLp j => exact did_index (by simp) h fun hm hj hk => by cases hk; exact did_effect hm ⟨hj, _, rfl⟩
  | bqAp j => exact did_index (by simp) h fun hm hj hk => by cases hk; exact did_effect hm ⟨hj, _, rfl⟩
  | bqProc j => exact did_index (by simp) h fun hm hj hk => by cases hk; exact did_effect hm ⟨hj, rfl⟩
  | dlInit j => exact did_index (by simp) h fun hm hj hk => by cases hk; exact did_effect hm ⟨hj, rfl⟩
  | dlSet j => exact did_index (by simp) h fun hm hj hk => by cases hk; exact did_effect hm ⟨hj, rfl⟩
  | dlProc j => exact did_index (by simp) h fun hm hj hk => by cases hk; exact did_effect hm ⟨hj, rfl⟩
  | rvbInit j => exact did_index (by simp) h fun hm hj hk => by cases hk; exact did_effect hm ⟨hj, rfl⟩
  | rvbUpd j => exact did_index (by simp) h fun hm hj hk => by cases hk; exact did_effect hm ⟨hj, rfl⟩
  | rvbProc j => exact did_index (by simp) h fun hm hj hk => by cases hk; exact did_effect hm ⟨hj, rfl⟩
  | drvInit j => exact did_index (by simp) h fun hm hj hk => by cases hk; exact did_effect hm ⟨hj, rfl⟩
  | drvProc j => exact did_index (by simp) h fun hm hj hk => by cases hk; exact did_effect hm ⟨hj, rfl⟩
  | spaInit =>
    rcases unlessFaulted_next h with ⟨hm, rfl⟩ | ⟨hm, hk⟩
    · exact Or.inl ⟨hm, by simp, rfl⟩
    · cases hk; exact did_effect hm rfl
  | spaProc =>
    rcases unlessFaulted_next h with ⟨hm, rfl⟩ | ⟨hm, hk⟩
    · exact Or.inl ⟨hm, by simp, rfl⟩
    · cases hk; exact did_effect hm rfl

end Sys2Proof.Machine
end

