-- ==== Sys2Proof/Laws/Float.lean ====
section
/-! SUPPORT. The small laws of binary32 on words: a drawn NaN is a NaN, comparisons with a NaN are false,
what a rounded word is, and that rounding a representable value gives it back. -/

namespace Sys2Proof.Machine

@[simp] theorem isNaN_nanWord (r : Word) : isNaN (nanWord r) = true := by
  have h1 : (if r.toNat % 2 ^ 23 = 0 then 1 else r.toNat % 2 ^ 23) < 2 ^ 23 := by
    split
    · decide
    · exact Nat.mod_lt _ (by decide)
  have h2 : 0 < (if r.toNat % 2 ^ 23 = 0 then 1 else r.toNat % 2 ^ 23) := by split <;> omega
  have h3 : infBits = 0x7F800000 := rfl
  rw [isNaN, nanWord, magBits_packSign _ (by omega), decide_eq_true_eq]
  omega

@[simp] theorem isNaN_drawNaN (d : Nat) (op : FOp) (a b : Word) : isNaN (drawNaN d op a b) = true :=
  isNaN_nanWord _

/-- Every NaN is the NaN of some draw bits: its own. -/
theorem nanWord_self {w : Word} (h : isNaN w = true) : nanWord w = w := by
  have hw : w.toNat < 2 ^ 32 := w.isLt
  have hm : infBits < w.toNat % 2 ^ 31 := of_decide_eq_true h
  have h3 : infBits = 255 * 2 ^ 23 := rfl
  have hs : signBit w = decide (2 ^ 31 ≤ w.toNat) := by
    rw [signBit, ← BitVec.testBit_toNat, Nat.testBit_eq_decide_div_mod_eq]
    congr 1; apply propext; omega
  have hf : w.toNat % 2 ^ 23 ≠ 0 := by omega
  apply BitVec.eq_of_toNat_eq
  rw [nanWord, if_neg hf, packSign, hs, BitVec.toNat_ofNat]
  by_cases hb : 2 ^ 31 ≤ w.toNat
  · rw [if_pos (by simpa using hb)]; omega
  · rw [if_neg (by simpa using hb)]; omega

/-! Comparisons (R102). -/

theorem flt_nan_left {a : Word} (b : Word) (h : isNaN a = true) : flt a b = false := by simp [flt, h]

theorem flt_nan_right (a : Word) {b : Word} (h : isNaN b = true) : flt a b = false := by simp [flt, h]

theorem fle_nan_left {a : Word} (b : Word) (h : isNaN a = true) : fle a b = false := by simp [fle, h]

theorem fle_nan_right (a : Word) {b : Word} (h : isNaN b = true) : fle a b = false := by simp [fle, h]

theorem flt_iff {a b : Word} :
    flt a b = true ↔ isNaN a = false ∧ isNaN b = false ∧ orderKey a < orderKey b := by
  simp [flt, and_assoc]

theorem fle_iff {a b : Word} :
    fle a b = true ↔ isNaN a = false ∧ isNaN b = false ∧ orderKey a ≤ orderKey b := by
  simp [fle, and_assoc]

/-! Rounded words. -/

theorem roundBits_le (p q : Nat) : roundBits p q ≤ infBits := Nat.min_le_right _ _

theorem isNaN_packSign (s : Bool) {b : Nat} (h : b ≤ infBits) : isNaN (packSign s b) = false := by
  have h3 : infBits = 0x7F800000 := rfl
  rw [isNaN, magBits_packSign _ (by omega), decide_eq_false_iff_not]
  omega

/-- A word is its sign and its magnitude. -/
theorem packSign_self (w : Word) : packSign (signBit w) (magBits w) = w := by
  have hw : w.toNat < 2 ^ 32 := w.isLt
  have hs : signBit w = decide (2 ^ 31 ≤ w.toNat) := by
    rw [signBit, ← BitVec.testBit_toNat, Nat.testBit_eq_decide_div_mod_eq]
    congr 1; apply propext; omega
  apply BitVec.eq_of_toNat_eq
  rw [packSign, hs, magBits, BitVec.toNat_ofNat]
  by_cases hb : 2 ^ 31 ≤ w.toNat
  · rw [if_pos (by simpa using hb)]; omega
  · rw [if_neg (by simpa using hb)]; omega

/-- Rounding a representable value gives its encoding back. -/
theorem roundBits_exact {b q : Nat} (hb : b < infBits) (hq : 0 < q) :
    roundBits (magUnits b * q) q = b := by
  have h3 : infBits = 255 * 2 ^ 23 := rfl
  have key : ∀ j k : Nat, (magUnits b).log2 - 23 = j → magUnits b = k * 2 ^ j →
      j * 2 ^ 23 + k = b → roundBits (magUnits b * q) q = b := by
    intro j k hj hk hbk
    have hdiv : magUnits b * q / q = magUnits b := Nat.mul_div_cancel _ hq
    have hden : 0 < q * 2 ^ j := Nat.mul_pos hq (Nat.two_pow_pos j)
    have hp : magUnits b * q = k * (q * 2 ^ j) := by rw [hk]; ring
    simp only [roundBits, hdiv, hj]
    rw [hp, Nat.mul_mod_left, Nat.mul_div_cancel _ hden, if_neg (by omega), hbk]
    exact Nat.min_eq_left (by omega)
  by_cases hlt : b < 2 ^ 24
  · have hm : magUnits b = b := by rw [magUnits, if_pos hlt]
    refine key 0 b ?_ (by rw [hm]; simp) (by omega)
    rw [hm]
    have : b.log2 < 24 := by
      rcases Nat.eq_zero_or_pos b with h0 | h0
      · subst h0; decide
      · exact (Nat.log2_lt (by omega)).mpr hlt
    omega
  · have hm : magUnits b = (2 ^ 23 + b % 2 ^ 23) * 2 ^ (b / 2 ^ 23 - 1) := by
      rw [magUnits, if_neg hlt]
    refine key (b / 2 ^ 23 - 1) (2 ^ 23 + b % 2 ^ 23) ?_ hm (by omega)
    have hlog : (magUnits b).log2 = 23 + (b / 2 ^ 23 - 1) := by
      rw [hm]
      have h1 : 2 ^ 23 + b % 2 ^ 23 < 2 ^ 24 := by omega
      refine (Nat.log2_eq_iff (by positivity)).mpr ⟨?_, ?_⟩
      · rw [pow_add]; exact Nat.mul_le_mul_right _ (by omega)
      · rw [show 23 + (b / 2 ^ 23 - 1) + 1 = 24 + (b / 2 ^ 23 - 1) by omega, pow_add]
        exact Nat.mul_lt_mul_of_pos_right h1 (Nat.two_pow_pos _)
    omega

end Sys2Proof.Machine
end

