-- ==== Sys2Proof/Laws/PerInstr.lean ====
section
/-! SUPPORT. The statements made once per instruction: the shape of every encoded command word
(30_encoding.md R80), one lemma per constructor of Instr. -/

namespace Sys2Proof.Laws

/-- The fields of the word of an opcode byte and a 16-bit index (R80). -/
theorem fields_of_word {op idx : Nat} (ho : op < 256) (hi : idx < 65536) :
    opField (BitVec.ofNat 32 (op * 2 ^ 24 + idx)) = op ∧
    rsvField (BitVec.ofNat 32 (op * 2 ^ 24 + idx)) = 0 ∧
    idxField (BitVec.ofNat 32 (op * 2 ^ 24 + idx)) = idx := by
  simp only [opField, rsvField, idxField, BitVec.toNat_ofNat]
  omega

/-- A well-formed command's word has its opcode in OP, 0 in RSV and its index in IDX. -/
def EncodedShape.Statement (i : Instr) : Prop :=
  i.wellFormed = true →
    opField (encode i) = i.op ∧ rsvField (encode i) = 0 ∧ idxField (encode i) = i.idx

theorem EncodedShape.sysNop : EncodedShape.Statement .sysNop :=
  fun _ => fields_of_word (op := 0x00) (by decide) (by decide)

theorem EncodedShape.sysReset : EncodedShape.Statement .sysReset :=
  fun _ => fields_of_word (op := 0x01) (by decide) (by decide)

theorem EncodedShape.wtsBank : EncodedShape.Statement .wtsBank :=
  fun _ => fields_of_word (op := 0x10) (by decide) (by decide)

theorem EncodedShape.wtsWr : EncodedShape.Statement .wtsWr :=
  fun _ => fields_of_word (op := 0x11) (by decide) (by decide)

theorem EncodedShape.wtsSeal : EncodedShape.Statement .wtsSeal :=
  fun _ => fields_of_word (op := 0x12) (by decide) (by decide)

theorem EncodedShape.envInit (j : Nat) : EncodedShape.Statement (.envInit j) :=
  fun h => fields_of_word (op := 0x20) (by decide) (of_decide_eq_true h)

theorem EncodedShape.envSetp (j : Nat) : EncodedShape.Statement (.envSetp j) :=
  fun h => fields_of_word (op := 0x21) (by decide) (of_decide_eq_true h)

theorem EncodedShape.envProc (j : Nat) : EncodedShape.Statement (.envProc j) :=
  fun h => fields_of_word (op := 0x22) (by decide) (of_decide_eq_true h)

theorem EncodedShape.envStat (j : Nat) : EncodedShape.Statement (.envStat j) :=
  fun h => fields_of_word (op := 0x23) (by decide) (of_decide_eq_true h)

theorem EncodedShape.oscInit (j : Nat) : EncodedShape.Statement (.oscInit j) :=
  fun h => fields_of_word (op := 0x30) (by decide) (of_decide_eq_true h)

theorem EncodedShape.oscSetf (j : Nat) : EncodedShape.Statement (.oscSetf j) :=
  fun h => fields_of_word (op := 0x31) (by decide) (of_decide_eq_true h)

theorem EncodedShape.oscSetm (j : Nat) : EncodedShape.Statement (.oscSetm j) :=
  fun h => fields_of_word (op := 0x32) (by decide) (of_decide_eq_true h)

theorem EncodedShape.oscProc (j : Nat) : EncodedShape.Statement (.oscProc j) :=
  fun h => fields_of_word (op := 0x33) (by decide) (of_decide_eq_true h)

theorem EncodedShape.bqInit (j : Nat) : EncodedShape.Statement (.bqInit j) :=
  fun h => fields_of_word (op := 0x40) (by decide) (of_decide_eq_true h)

theorem EncodedShape.bqSetc (j : Nat) : EncodedShape.Statement (.bqSetc j) :=
  fun h => fields_of_word (op := 0x41) (by decide) (of_decide_eq_true h)

theorem EncodedShape.bqLp (j : Nat) : EncodedShape.Statement (.bqLp j) :=
  fun h => fields_of_word (op := 0x42) (by decide) (of_decide_eq_true h)

theorem EncodedShape.bqAp (j : Nat) : EncodedShape.Statement (.bqAp j) :=
  fun h => fields_of_word (op := 0x43) (by decide) (of_decide_eq_true h)

theorem EncodedShape.bqProc (j : Nat) : EncodedShape.Statement (.bqProc j) :=
  fun h => fields_of_word (op := 0x44) (by decide) (of_decide_eq_true h)

theorem EncodedShape.dlInit (j : Nat) : EncodedShape.Statement (.dlInit j) :=
  fun h => fields_of_word (op := 0x50) (by decide) (of_decide_eq_true h)

theorem EncodedShape.dlSet (j : Nat) : EncodedShape.Statement (.dlSet j) :=
  fun h => fields_of_word (op := 0x51) (by decide) (of_decide_eq_true h)

theorem EncodedShape.dlProc (j : Nat) : EncodedShape.Statement (.dlProc j) :=
  fun h => fields_of_word (op := 0x52) (by decide) (of_decide_eq_true h)

theorem EncodedShape.rvbInit (j : Nat) : EncodedShape.Statement (.rvbInit j) :=
  fun h => fields_of_word (op := 0x60) (by decide) (of_decide_eq_true h)

theorem EncodedShape.rvbUpd (j : Nat) : EncodedShape.Statement (.rvbUpd j) :=
  fun h => fields_of_word (op := 0x61) (by decide) (of_decide_eq_true h)

theorem EncodedShape.rvbProc (j : Nat) : EncodedShape.Statement (.rvbProc j) :=
  fun h => fields_of_word (op := 0x62) (by decide) (of_decide_eq_true h)

theorem EncodedShape.drvInit (j : Nat) : EncodedShape.Statement (.drvInit j) :=
  fun h => fields_of_word (op := 0x70) (by decide) (of_decide_eq_true h)

theorem EncodedShape.drvProc (j : Nat) : EncodedShape.Statement (.drvProc j) :=
  fun h => fields_of_word (op := 0x71) (by decide) (of_decide_eq_true h)

theorem EncodedShape.spaInit : EncodedShape.Statement .spaInit :=
  fun _ => fields_of_word (op := 0x80) (by decide) (by decide)

theorem EncodedShape.spaProc : EncodedShape.Statement .spaProc :=
  fun _ => fields_of_word (op := 0x81) (by decide) (by decide)

end Sys2Proof.Laws
end

