-- ==== Sys2Proof/Laws/Rounding.lean ====
section
/-! SUPPORT. Rounding to nearest even, said once: encodings order as their values, the rounded encoding is
nearest to the exact rational, and the word of a sign and a rounded magnitude is the rounding of the signed
rational (40_numerics.md R101). -/

namespace Sys2Proof.Machine

/-- Next encoding, next value: encodings of magnitudes order as their values. -/
theorem magUnits_lt_succ (b : Nat) : magUnits b < magUnits (b + 1) := by
  unfold magUnits
  by_cases h1 : b + 1 < 2 ^ 24
  · rw [if_pos (by omega), if_pos h1]; omega
  · rw [if_neg h1]
    by_cases h2 : b < 2 ^ 24
    · rw [if_pos h2]
      have : b + 1 = 2 ^ 24 := by omega
      rw [this]; norm_num; omega
    · rw [if_neg h2]
      by_cases h3 : (b + 1) % 2 ^ 23 = 0
      · have hd : (b + 1) / 2 ^ 23 - 1 = (b / 2 ^ 23 - 1) + 1 := by omega
        have hm : b % 2 ^ 23 < 2 ^ 23 := Nat.mod_lt _ (by decide)
        rw [h3, hd, Nat.add_zero, Nat.pow_succ (n := 2) (m := b / 2 ^ 23 - 1)]
        generalize b % 2 ^ 23 = m at hm
        have hP : 0 < 2 ^ (b / 2 ^ 23 - 1) := Nat.two_pow_pos _
        generalize 2 ^ (b / 2 ^ 23 - 1) = P at *
        rw [Nat.mul_comm P 2, ← Nat.mul_assoc]
        exact Nat.mul_lt_mul_of_pos_right (by omega) hP
      · have hd : (b + 1) / 2 ^ 23 = b / 2 ^ 23 := by omega
        have hm : (b + 1) % 2 ^ 23 = b % 2 ^ 23 + 1 := by omega
        rw [hm, hd]
        exact Nat.mul_lt_mul_of_pos_right (by omega) (Nat.two_pow_pos _)

theorem magUnits_strictMono : StrictMono magUnits := strictMono_nat_of_lt_succ magUnits_lt_succ

/-- The value of the encoding of significand `k` at exponent `j`. -/
theorem magUnits_of_parts {j k : Nat} (hk : k ≤ 2 ^ 24) (hj : j = 0 ∨ 2 ^ 23 ≤ k) :
    magUnits (j * 2 ^ 23 + k) = k * 2 ^ j := by
  have small : ∀ {j k : Nat}, k < 2 ^ 24 → (j = 0 ∨ 2 ^ 23 ≤ k) →
      magUnits (j * 2 ^ 23 + k) = k * 2 ^ j := by
    intro j k hk hj
    unfold magUnits
    rcases Nat.eq_zero_or_pos j with rfl | hpos
    · rw [if_pos (by omega)]; simp
    · have h23 : 2 ^ 23 ≤ k := by omega
      rw [if_neg (by omega)]
      have h1 : (j * 2 ^ 23 + k) / 2 ^ 23 - 1 = j := by omega
      have h2 : 2 ^ 23 + (j * 2 ^ 23 + k) % 2 ^ 23 = k := by omega
      rw [h1, h2]
  rcases Nat.lt_or_ge k (2 ^ 24) with h | h
  · exact small h hj
  · have hk' : k = 2 ^ 24 := by omega
    have h1 := small (j := j + 1) (k := 2 ^ 23) (by decide) (Or.inr (le_refl _))
    have h2 : (j + 1) * 2 ^ 23 + 2 ^ 23 = j * 2 ^ 23 + k := by omega
    rw [h2] at h1
    rw [h1, hk', pow_succ]; ring

/-- The quotient and remainder that `roundBits` forms. -/
theorem roundBits_parts (p : Nat) {q : Nat} (hq : 0 < q) :
    ∃ j k r : Nat, p = k * (q * 2 ^ j) + r ∧ r < q * 2 ^ j ∧ k < 2 ^ 24 ∧ (j = 0 ∨ 2 ^ 23 ≤ k) ∧
      roundBits p q = min (j * 2 ^ 23 +
        (if 2 * r > q * 2 ^ j ∨ (2 * r = q * 2 ^ j ∧ k % 2 = 1) then k + 1 else k)) infBits := by
  refine ⟨(p / q).log2 - 23, p / (q * 2 ^ ((p / q).log2 - 23)), p % (q * 2 ^ ((p / q).log2 - 23)),
    ?_, ?_, ?_, ?_, rfl⟩
  · rw [Nat.mul_comm]; exact (Nat.div_add_mod _ _).symm
  · exact Nat.mod_lt _ (Nat.mul_pos hq (Nat.two_pow_pos _))
  · rw [← Nat.div_div_eq_div_mul, Nat.div_lt_iff_lt_mul (Nat.two_pow_pos _), ← pow_add]
    refine lt_of_lt_of_le Nat.lt_log2_self (Nat.pow_le_pow_right (by decide) (by omega))
  · by_cases h : (p / q).log2 ≤ 23
    · exact Or.inl (by omega)
    · refine Or.inr ?_
      have hn : p / q ≠ 0 := by
        intro h0; rw [h0] at h; exact h (by decide)
      rw [← Nat.div_div_eq_div_mul, Nat.le_div_iff_mul_le (Nat.two_pow_pos _), ← pow_add]
      exact le_trans (Nat.pow_le_pow_right (by decide) (by omega)) (Nat.log2_self_le hn)

/-- No representable value lies strictly between two neighbours. -/
theorem magUnits_gap {j k : Nat} (hk : k < 2 ^ 24) (hj : j = 0 ∨ 2 ^ 23 ≤ k) (c : Nat) :
    magUnits c ≤ k * 2 ^ j ∨ (k + 1) * 2 ^ j ≤ magUnits c := by
  rw [← magUnits_of_parts (by omega) hj, ← magUnits_of_parts (j := j) (k := k + 1) (by omega) (by omega)]
  rcases Nat.lt_or_ge (j * 2 ^ 23 + k) c with h | h
  · exact Or.inr (magUnits_strictMono.monotone (by omega))
  · exact Or.inl (magUnits_strictMono.monotone h)

/-- A finite rounded encoding is nearest to the rational `p / q` among all encodings, and even where another
is as near (R101). -/
theorem roundBits_nearest (p : Nat) {q : Nat} (hq : 0 < q) (hb : roundBits p q < infBits) (c : Nat)
    (hne : magUnits c ≠ magUnits (roundBits p q)) :
    ((magUnits (roundBits p q) * q : Nat) - p : Int).natAbs < ((magUnits c * q : Nat) - p : Int).natAbs ∨
    (((magUnits (roundBits p q) * q : Nat) - p : Int).natAbs = ((magUnits c * q : Nat) - p : Int).natAbs ∧
      roundBits p q % 2 = 0) := by
  obtain ⟨j, k, r, hp, hr, hk, hj, hround⟩ := roundBits_parts p hq
  have hval : ∀ m, (m * 2 ^ j) * q = m * (q * 2 ^ j) := fun m => by ring
  generalize hD : q * 2 ^ j = D at *
  have hup : (k + 1) * D = k * D + D := by ring
  have hgap : magUnits c * q ≤ k * D ∨ k * D + D ≤ magUnits c * q := by
    rcases magUnits_gap hk hj c with h | h
    · left; rw [← hval]; exact Nat.mul_le_mul_right _ h
    · right; rw [← hup, ← hval]; exact Nat.mul_le_mul_right _ h
  by_cases hdir : 2 * r > D ∨ (2 * r = D ∧ k % 2 = 1)
  · rw [if_pos hdir] at hround
    have hb' : roundBits p q = j * 2 ^ 23 + (k + 1) := by omega
    have hv : magUnits (roundBits p q) = (k + 1) * 2 ^ j := by
      rw [hb']; exact magUnits_of_parts (by omega) (by omega)
    have hne' : magUnits c * q ≠ k * D + D := by
      intro h
      apply hne
      rw [hv]
      refine Nat.eq_of_mul_eq_mul_right hq ?_
      rw [h, hval, hup]
    rw [hv, hval, hup]
    omega
  · rw [if_neg hdir] at hround
    have hb' : roundBits p q = j * 2 ^ 23 + k := by omega
    have hv : magUnits (roundBits p q) = k * 2 ^ j := by
      rw [hb']; exact magUnits_of_parts (by omega) hj
    have hne' : magUnits c * q ≠ k * D := by
      intro h
      apply hne
      rw [hv]
      refine Nat.eq_of_mul_eq_mul_right hq ?_
      rw [h, hval]
    rw [hv, hval]
    omega

theorem roundBits_zero (q : Nat) : roundBits 0 q = 0 := by
  simp only [roundBits, Nat.zero_div, Nat.zero_mod]
  rw [show Nat.log2 0 - 23 = 0 from rfl, if_neg (by omega)]
  exact Nat.min_eq_left (Nat.zero_le _)

/-- The rounded encoding is infinity exactly from half a unit above the largest finite value on (R101). -/
theorem roundBits_inf (p : Nat) {q : Nat} (hq : 0 < q) :
    roundBits p q = infBits ↔ (2 ^ 25 - 1) * 2 ^ 252 * q ≤ p := by
  obtain ⟨j, k, r, hp, hr, hk, hj, hround⟩ := roundBits_parts p hq
  obtain ⟨k', hk', hround⟩ : ∃ k', ((k' = k + 1 ∧ (2 * r > q * 2 ^ j ∨ (2 * r = q * 2 ^ j ∧ k % 2 = 1))) ∨
      (k' = k ∧ ¬(2 * r > q * 2 ^ j ∨ (2 * r = q * 2 ^ j ∧ k % 2 = 1)))) ∧
      roundBits p q = min (j * 2 ^ 23 + k') infBits := by
    by_cases h : 2 * r > q * 2 ^ j ∨ (2 * r = q * 2 ^ j ∧ k % 2 = 1)
    · rw [if_pos h] at hround; exact ⟨_, Or.inl ⟨rfl, h⟩, hround⟩
    · rw [if_neg h] at hround; exact ⟨_, Or.inr ⟨rfl, h⟩, hround⟩
  have hiff : roundBits p q = infBits ↔ 2139095040 ≤ j * 8388608 + k' := by
    rw [hround, min_eq_right_iff]; rfl
  rw [hiff, Nat.mul_assoc]
  clear hiff hround
  rcases Nat.lt_trichotomy j 253 with h | h | h
  · have h2 : q * 2 ^ j ≤ 2 ^ 252 * q := by
      rw [Nat.mul_comm]
      exact Nat.mul_le_mul_right _ (Nat.pow_le_pow_right (by decide) (by omega))
    generalize 2 ^ 252 * q = E at *
    generalize q * 2 ^ j = D at *
    have h3 : (k + 1) * D ≤ 16777216 * E := Nat.mul_le_mul (by omega) h2
    have h4 : (k + 1) * D = k * D + D := by ring
    have h5 : 33554431 * E = 16777216 * E + 16777215 * E := by ring
    change _ ↔ 33554431 * E ≤ p
    omega
  · have hD : q * 2 ^ j = 2 * (2 ^ 252 * q) := by
      rw [h, Nat.mul_comm q, show 253 = 252 + 1 from rfl, Nat.pow_succ, Nat.mul_comm (2 ^ 252) 2,
        Nat.mul_assoc]
    generalize 2 ^ 252 * q = E at *
    generalize q * 2 ^ j = D at *
    change _ ↔ 33554431 * E ≤ p
    constructor
    · intro hb
      obtain rfl : k = 16777215 := by omega
      omega
    · intro hb
      have h1 : k = 16777215 := by
        by_contra hn
        have h5 : (k + 1) * D ≤ 16777215 * D := Nat.mul_le_mul_right _ (by omega)
        have h4 : (k + 1) * D = k * D + D := by ring
        omega
      subst h1
      omega
  · have h2 : 4 * (2 ^ 252 * q) ≤ q * 2 ^ j := by
      have h1 : 2 ^ 254 ≤ 2 ^ j := Nat.pow_le_pow_right (by decide) (by omega)
      rw [Nat.mul_comm q, ← Nat.mul_assoc]
      refine Nat.mul_le_mul_right _ (le_trans (le_of_eq ?_) h1)
      rw [show 254 = 252 + 2 from rfl, Nat.pow_add, Nat.mul_comm]
    generalize 2 ^ 252 * q = E at *
    generalize q * 2 ^ j = D at *
    have h3 : 8388608 * (4 * E) ≤ k * D := Nat.mul_le_mul (by omega) h2
    change _ ↔ 33554431 * E ≤ p
    omega

/-- The word of a sign and a rounded magnitude is the rounding of the signed rational (R101). -/
theorem rounds_packSign {p : Int} {q : Nat} (hq : 0 < q) (neg : Bool)
    (hs : p ≠ 0 → neg = decide (p < 0)) : Rounds p q (packSign neg (roundBits p.natAbs q)) := by
  have hle := roundBits_le p.natAbs q
  have hinf : infBits = 255 * 2 ^ 23 := rfl
  have hlt : roundBits p.natAbs q < 2 ^ 31 := by omega
  have hmag := magBits_packSign neg hlt
  have hsig := signBit_packSign neg hlt
  refine ⟨isNaN_packSign _ hle, ?_, fun hp => by rw [hsig]; exact hs hp, ?_⟩
  · rw [isInf, hmag, decide_eq_true_eq, roundBits_inf _ hq]
  · intro hf v hv hne
    have hb : roundBits p.natAbs q < infBits := by
      rw [isFinite, hmag, decide_eq_true_eq] at hf; exact hf
    obtain ⟨w, hw⟩ : ∃ w, w = packSign neg (roundBits p.natAbs q) := ⟨_, rfl⟩
    rw [← hw] at hmag hsig hne ⊢
    have huw : units w = if neg then -(magUnits (roundBits p.natAbs q) : Int)
        else magUnits (roundBits p.natAbs q) := by simp only [units, absUnits, hmag, hsig]
    have huv : units v = magUnits (magBits v) ∨ units v = -(magUnits (magBits v) : Int) := by
      unfold units absUnits; split <;> simp
    -- the sign of `w` is that of `p`, so distances are distances of magnitudes
    have hpn : p = if neg then -(p.natAbs : Int) else p.natAbs := by
      by_cases hp : p = 0
      · subst hp; simp
      · rw [hs hp]; split <;> rename_i h <;> simp at h <;> omega
    have habs : ∀ m : Nat, ((m * q : Nat) : Int) = (m : Int) * q := fun m => by push_cast; rfl
    have hdw : (units w * q - p).natAbs =
        ((magUnits (roundBits p.natAbs q) * q : Nat) - p.natAbs : Int).natAbs := by
      rw [huw, habs]
      cases neg
      · rw [if_neg (by simp)] at hpn ⊢; rw [← hpn]
      · rw [if_pos rfl] at hpn ⊢
        rw [neg_mul]
        generalize (magUnits (roundBits p.natAbs q) : Int) * q = x
        omega
    have hdv : ((magUnits (magBits v) * q : Nat) - p.natAbs : Int).natAbs ≤ (units v * q - p).natAbs := by
      have h0 : (0 : Int) ≤ (magUnits (magBits v) * q : Nat) := Int.natCast_nonneg _
      rw [habs] at h0 ⊢
      rcases huv with h | h
      · rw [h]
        generalize (magUnits (magBits v) : Int) * q = x at *
        omega
      · rw [h, neg_mul]
        generalize (magUnits (magBits v) : Int) * q = x at *
        omega
    have hq' : (0 : Int) < q := by exact_mod_cast hq
    by_cases heq : magUnits (magBits v) = magUnits (roundBits p.natAbs q)
    · -- the other sign of the same magnitude, farther away because neither it nor `p` is zero
      have hv' : units v = -units w := by
        rw [heq] at huv
        generalize (magUnits (roundBits p.natAbs q) : Int) = x at huw huv
        cases neg
        · rw [if_neg (by simp)] at huw; rcases huv with h | h
          · exact absurd (h.trans huw.symm) hne
          · rw [h, huw]
        · rw [if_pos rfl] at huw; rcases huv with h | h
          · rw [h, huw, neg_neg]
          · exact absurd (h.trans huw.symm) hne
      have hw0 : units w ≠ 0 := fun h => hne (by rw [hv', h]; rfl)
      have hp0 : p ≠ 0 := by
        rintro rfl
        apply hw0
        rw [huw]
        have h0 : magUnits (roundBits (0 : Int).natAbs q) = 0 := by
          rw [Int.natAbs_zero, roundBits_zero]; rfl
        rw [h0]; cases neg <;> rfl
      left
      rw [hv', neg_mul]
      have hpos : units w * q ≠ 0 := mul_ne_zero hw0 (by omega)
      have hx : (neg = true → units w * q ≤ 0 ∧ p ≤ 0) ∧ (neg = false → 0 ≤ units w * q ∧ 0 ≤ p) := by
        rw [huw]
        constructor
        · rintro rfl
          refine ⟨?_, by rw [if_pos rfl] at hpn; omega⟩
          rw [if_pos rfl, neg_mul]
          exact Int.neg_nonpos_of_nonneg (Int.mul_nonneg (Int.natCast_nonneg _) (Int.natCast_nonneg _))
        · rintro rfl
          refine ⟨?_, by rw [if_neg (by simp)] at hpn; omega⟩
          rw [if_neg (by simp)]
          exact Int.mul_nonneg (Int.natCast_nonneg _) (Int.natCast_nonneg _)
      generalize units w * q = x at *
      cases neg
      · have := hx.2 rfl; omega
      · have := hx.1 rfl; omega
    · rcases roundBits_nearest p.natAbs hq hb (magBits v) heq with h | ⟨h, he⟩
      · left; omega
      · rw [hmag]
        rcases Nat.lt_or_ge (units w * q - p).natAbs (units v * q - p).natAbs with hl | hl
        · exact Or.inl hl
        · exact Or.inr ⟨by omega, he⟩

end Sys2Proof.Machine
end

