-- ==== Sys2Proof/Tests/Slice0.lean ====
section
/-! SUPPORT. Tests of the model: ill-formed terms, words written out from the opcode map, single steps on
small states with results taken from the spec's own examples, and for every statement with hypotheses a
concrete state that meets them. -/

namespace Sys2Proof.Tests

open Machine

/-! Well-formedness (30_encoding.md R80). -/

/-- The commands that take an instance, at one index. -/
def indexed (j : Nat) : List Instr :=
  [.envInit j, .envSetp j, .envProc j, .envStat j, .oscInit j, .oscSetf j, .oscSetm j, .oscProc j,
    .bqInit j, .bqSetc j, .bqLp j, .bqAp j, .bqProc j, .dlInit j, .dlSet j, .dlProc j] ++
  [.rvbInit j, .rvbUpd j, .rvbProc j, .drvInit j, .drvProc j]

theorem test_index_too_large_refused : (indexed 65536).map Instr.wellFormed = List.replicate 21 false := by
  decide

theorem test_largest_index_accepted : (indexed 65535).map Instr.wellFormed = List.replicate 21 true := by
  decide

/-! Decoding (30_encoding.md R80, R82): UNIT, FN, RSV and IDX written out bit by bit. -/

theorem test_decode_sys :
    decode 0b0000_0000_00000000_0000000000000000#32 = .ok .sysNop ∧
    decode 0b0000_0001_00000000_0000000000000000#32 = .ok .sysReset := by decide

theorem test_decode_wts :
    decode 0b0001_0000_00000000_0000000000000000#32 = .ok .wtsBank ∧
    decode 0b0001_0001_00000000_0000000000000000#32 = .ok .wtsWr ∧
    decode 0b0001_0010_00000000_0000000000000000#32 = .ok .wtsSeal := by decide

theorem test_decode_env :
    decode 0b0010_0000_00000000_0000000000000001#32 = .ok (.envInit 1) ∧
    decode 0b0010_0001_00000000_0000000000000010#32 = .ok (.envSetp 2) ∧
    decode 0b0010_0010_00000000_1000000000000000#32 = .ok (.envProc 32768) ∧
    decode 0b0010_0011_00000000_1111111111111111#32 = .ok (.envStat 65535) := by decide

theorem test_decode_osc :
    decode 0b0011_0000_00000000_0000000100000000#32 = .ok (.oscInit 256) ∧
    decode 0b0011_0001_00000000_0000000000000000#32 = .ok (.oscSetf 0) ∧
    decode 0b0011_0010_00000000_0000000000000111#32 = .ok (.oscSetm 7) ∧
    decode 0b0011_0011_00000000_0000000000000011#32 = .ok (.oscProc 3) := by decide

theorem test_decode_bq :
    decode 0b0100_0000_00000000_0000000000000000#32 = .ok (.bqInit 0) ∧
    decode 0b0100_0001_00000000_0000000000000001#32 = .ok (.bqSetc 1) ∧
    decode 0b0100_0010_00000000_0000000000000010#32 = .ok (.bqLp 2) ∧
    decode 0b0100_0011_00000000_0000000000000100#32 = .ok (.bqAp 4) ∧
    decode 0b0100_0100_00000000_0000000000001000#32 = .ok (.bqProc 8) := by decide

theorem test_decode_dl :
    decode 0b0101_0000_00000000_0000000000000101#32 = .ok (.dlInit 5) ∧
    decode 0b0101_0001_00000000_0000000000000000#32 = .ok (.dlSet 0) ∧
    decode 0b0101_0010_00000000_0000000010000000#32 = .ok (.dlProc 128) := by decide

theorem test_decode_rvb :
    decode 0b0110_0000_00000000_0000000000000000#32 = .ok (.rvbInit 0) ∧
    decode 0b0110_0001_00000000_0000000000000001#32 = .ok (.rvbUpd 1) ∧
    decode 0b0110_0010_00000000_0000000000000011#32 = .ok (.rvbProc 3) := by decide

theorem test_decode_drv :
    decode 0b0111_0000_00000000_0000000000000000#32 = .ok (.drvInit 0) ∧
    decode 0b0111_0001_00000000_0000000000000001#32 = .ok (.drvProc 1) := by decide

theorem test_decode_spa :
    decode 0b1000_0000_00000000_0000000000000000#32 = .ok .spaInit ∧
    decode 0b1000_0001_00000000_0000000000000000#32 = .ok .spaProc := by decide

theorem test_reserved_words_rejected :
    decode 0x02000000#32 = .error .badOp ∧ decode 0x45000000#32 = .error .badOp ∧
    decode 0x90000000#32 = .error .badOp ∧ decode 0xFFFFFFFF#32 = .error .badOp ∧
    decode 0x33010000#32 = .error .rsvNotZero ∧ decode 0x00800000#32 = .error .rsvNotZero ∧
    decode 0x81000001#32 = .error .idxNotZero ∧ decode 0x12008000#32 = .error .idxNotZero := by decide

/-! Small states. -/

/-- The next state of a command, `none` if it stops. -/
def after (i : Instr) (s : State) : Option State :=
  match exec i s with
  | .next t => some t
  | .fault _ => none
  | .refused _ => none

/-- The next state of a step, `none` if it stops. -/
def stepped (s : State) : Option State :=
  match step s with
  | .next t => some t
  | .fault _ => none
  | .refused _ => none

/-- The reset state with operands. -/
def operands (w0 w1 w2 w3 w4 : Word) (s : State) : State :=
  { s with a0 := w0, a1 := w1, a2 := w2, a3 := w3, a4 := w4 }

/-- The reset state with one word to come at `CMD`. -/
def commanding (c : Word) (s : State) : State := { s with port := [.write 0x0000 c] }

/-- The state after `RVB.INIT` and the like, with one event to come. -/
def facing (e : Event) : State := { State.reset with port := [e] }

/-- A sealed store under CFG_T: bank 0 with two tables, bank 1 with three; a cell holds its own key. -/
def sealedStore : Memory Word := (List.range 16 ++ List.range' 24 24).map fun k => (k, i2f k)

/-- RUN mode with that store and oscillator 0 as in R173's and R176's examples. -/
def running : State :=
  { State.reset with
    mode := .run, ntab := [2, 3], wt := sealedStore,
    osc := [{ valid := true, bank := 1, tps := 0x3D800000#32, spc := 0x41000000#32,
              scale := 0x3F800000#32, morph := 0x3E800000#32 }, Osc.reset] }

/-- FAULTED mode. -/
def stopped : State :=
  { State.reset with mode := .faulted, fault := .wtsRange, faultInfo := 0x10000000#32 }

/-! Single commands, expected results from the rules' own examples. -/

theorem test_nop_keeps_result : (after .sysNop { State.reset with r0 := fOne }).map (·.r0) = some fOne := by
  decide

theorem test_reset_leaves_faulted : (after .sysReset stopped).map (·.status) = some 0x00000000#32 := by
  decide

/-- R134's example. -/
theorem test_bank : (after .wtsBank (operands 1#32 3#32 0#32 0#32 0#32 State.reset)).map (·.ntab) =
    some [0, 3] := by decide

theorem test_bank_of_one_table_faults :
    (after .wtsBank (operands 1#32 1#32 0#32 0#32 0#32 State.reset)).map
      (fun t => (t.mode, t.fault, t.faultInfo)) = some (.faulted, .wtsRange, 0x10000000#32) := by decide

/-- R135's example. -/
theorem test_write_cell :
    (after .wtsWr (operands 0#32 1#32 4#32 0xBF800000#32 0#32
      { State.reset with ntab := [2, 0] })).map (fun t => t.cell 0 1 4) = some (some 0xBF800000#32) := by
  decide

theorem test_write_infinity_faults :
    (after .wtsWr (operands 0#32 1#32 4#32 0x7F800000#32 0#32
      { State.reset with ntab := [2, 0] })).map (fun t => (t.fault, t.wt)) = some (.wtsRange, []) := by
  decide

theorem test_seal_complete :
    (after .wtsSeal { running with mode := .config }).map (·.status) = some 0x00000001#32 := by decide

theorem test_seal_short_table_faults :
    (after .wtsSeal { running with mode := .config, wt := sealedStore.drop 1 }).map
      (fun t => (t.mode, t.fault)) = some (.faulted, .wtsIncomplete) := by decide

/-- Envelope 0 with R152's parameters. -/
def enveloped : State :=
  { State.reset with env := [{ attack := fHalf, decay := 0x3E800000#32, sustain := fHalf, release := fHalf,
                               rsa := fHalf, finished := false }, Env.reset] }

theorem test_env_init : (after (.envInit 0) enveloped).map (·.envAt 0) = some Env.reset := by decide

theorem test_env_setp_keeps_rsa :
    (after (.envSetp 0) (operands 1#32 2#32 3#32 4#32 5#32 enveloped)).map
      (fun t => ((t.envAt 0).release, (t.envAt 0).rsa)) = some (4#32, fHalf) := by decide

/-- R153's example: 0.625 seconds into (0.5, 0.25, 0.5, 0.5) gives 0.75. -/
theorem test_env_decay :
    (after (.envProc 0) (operands 0x3F200000#32 0#32 0#32 0#32 0#32 enveloped)).map
      (fun t => (t.r0, t.r1, (t.envAt 0).rsa)) = some (0x3F400000#32, 0#32, 0x3F400000#32) := by
  decide +kernel

/-- R155: 0.5 seconds after the release of 0.5 seconds began the amplitude is +0.0 and `finished` is set. -/
theorem test_env_release_ends :
    (after (.envProc 0) (operands 0x3FC00000#32 fOne 0#32 0#32 0#32 enveloped)).map
      (fun t => (t.r0, t.r1, (t.envAt 0).rsa)) = some (0#32, 1#32, fHalf) := by decide +kernel

theorem test_env_stat : (after (.envStat 0) enveloped).map (fun t => (t.r0, t.r1)) =
    some (fHalf, 0#32) := by decide

/-- R173's example: frequency 2, bank 1. -/
theorem test_osc_init :
    (after (.oscInit 0) (operands fTwo 1#32 0#32 0#32 0#32 running)).map (·.oscAt 0) =
    some { valid := true, bank := 1, tps := 0x3D800000#32, spc := 0x41000000#32,
           scale := 0x3F800000#32, morph := 0#32 } := by decide +kernel

theorem test_osc_init_bad_bank :
    (after (.oscInit 1) (operands fTwo 2#32 0#32 0#32 0#32 running)).map
      (fun t => (t.mode, t.fault, t.faultInfo)) = some (.faulted, .cfgBank, 0x30000001#32) := by decide

/-- R174's example: frequency 4. -/
theorem test_osc_setf :
    (after (.oscSetf 0) (operands 0x40800000#32 0#32 0#32 0#32 0#32 running)).map
      (fun t => ((t.oscAt 0).spc, (t.oscAt 0).scale, t.diag)) =
    some (0x40800000#32, fTwo, 0#9) := by decide +kernel

theorem test_osc_setf_zero_is_clamped :
    (after (.oscSetf 0) (operands 0#32 0#32 0#32 0#32 0#32 running)).map (·.diag) = some 0x010#9 := by
  decide +kernel

/-- R175's example: position 1.5. -/
theorem test_osc_setm :
    (after (.oscSetm 0) (operands 0x3FC00000#32 0#32 0#32 0#32 0#32 running)).map
      (fun t => ((t.oscAt 0).morph, t.diag)) = some (fOne, 0x080#9) := by decide

/-- R176's example: index 3, half of each of the cells 27 and 35. -/
theorem test_osc_proc :
    (after (.oscProc 0) (operands 0x3E400000#32 0#32 0#32 0#32 0#32 running)).map (·.r0) =
    some 0x41F80000#32 := by decide +kernel

theorem test_osc_proc_not_init :
    (after (.oscProc 1) { running with r0 := fOne }).map (fun t => (t.r0, t.diag)) =
    some (0#32, 0x004#9) := by decide

/-- R192's coefficients. -/
def filtered : State :=
  { State.reset with bq := [{ coefs := { b0 := fHalf, b1 := 0x3E800000#32, b2 := 0x3E000000#32,
                                         a1 := 0xBF000000#32, a2 := 0x3E800000#32 },
                              s1 := 0#32, s2 := 0#32 }, Biquad.reset] }

theorem test_bq_init : (after (.bqInit 0) filtered).map (fun t => (t.bqAt 0).coefs) =
    some { b0 := fOne, b1 := 0#32, b2 := 0#32, a1 := 0#32, a2 := 0#32 } := by decide

theorem test_bq_setc_keeps_taps :
    (after (.bqSetc 1) (operands 1#32 2#32 3#32 4#32 5#32
      { State.reset with bq := [Biquad.reset, { Biquad.reset with s1 := fOne }] })).map (·.bqAt 1) =
    some { coefs := { b0 := 1#32, b1 := 2#32, b2 := 3#32, a1 := 4#32, a2 := 5#32 },
           s1 := fOne, s2 := 0#32 } := by decide

/-- R196's example: the first output for input 1 is 0.5; the taps then are 0.5 and 0. -/
theorem test_bq_proc :
    (after (.bqProc 0) (operands fOne 0#32 0#32 0#32 0#32 filtered)).map
      (fun t => (t.r0, (t.bqAt 0).s1, (t.bqAt 0).s2)) = some (fHalf, fHalf, 0#32) := by decide +kernel

theorem test_bq_lp_clamps_both :
    (after (.bqLp 0) (operands 0#32 0x7FC00000#32 0#32 0#32 0#32 filtered)).map (·.diag) =
    some 0x030#9 := by decide

theorem test_bq_ap_keeps_taps :
    (after (.bqAp 0) (operands fTwo fOne 0#32 0#32 0#32 filtered)).map
      (fun t => (t.diag, (t.bqAt 0).s1)) = some (0#9, 0#32) := by decide

theorem test_dl_init :
    (after (.dlInit 0) (operands 3#32 fHalf 0#32 0#32 0#32
      { State.reset with dl := [{ buf := [(2, fOne)], w := 5, delay := 1#32, fb := fOne }, DelayLine.reset] })).map
      (·.dlAt 0) = some { buf := [], w := 0, delay := 3#32, fb := fHalf } := by decide

/-- R214's example: 11 with capacity 8. -/
theorem test_dl_set :
    (after (.dlSet 0) (operands 11#32 0#32 0#32 0#32 0#32 State.reset)).map
      (fun t => ((t.dlAt 0).delay, t.diag, dlReadIndex 8 (t.dlAt 0))) =
    some (11#32, 0x040#9, 5) := by decide

/-- R215's example, the step that returns the first input: delay 3, feedback 0.5, one sample stored. -/
theorem test_dl_proc :
    (after (.dlProc 0) (operands 0#32 0#32 0#32 0#32 0#32
      { State.reset with dl := [{ buf := [(0, fOne)], w := 3, delay := 3#32, fb := fHalf }, DelayLine.reset] })).map
      (fun t => (t.r0, (t.dlAt 0).buf, (t.dlAt 0).w)) = some (fOne, [(0, fOne), (3, fHalf)], 4) := by
  decide +kernel

theorem test_rvb_init :
    (after (.rvbInit 0) { State.reset with rvb := [Reverb.reset.setLine .left .s2
      { DelayLine.reset with fb := fOne }] }).map (·.rvbAt 0) = some Reverb.reset := by decide

/-- R226's example: stage delays 8, 4, 2 and feedbacks 0.5, 0.25, 0.75. -/
theorem test_rvb_upd :
    (after (.rvbUpd 0) (operands 4#32 fHalf 0x40800000#32 fHalf 0#32 State.reset)).map
      (fun t => [Stage.s1, .s2, .s3].map fun g =>
        (((t.rvbAt 0).line .right g).delay, ((t.rvbAt 0).line .right g).fb)) =
    some [(8#32, fHalf), (4#32, 0x3E800000#32), (2#32, 0x3F400000#32)] := by decide +kernel

/-- R227: with the impulse waiting at the read place of the first line of each chain it moves to the second
line of each: the write of stage 2. -/
theorem test_rvb_proc :
    (after (.rvbProc 0) { State.reset with rvb :=
      [(Reverb.reset.setLine .right .s3 { DelayLine.reset with buf := [(0, fOne)] }).setLine .left .s3
        { DelayLine.reset with buf := [(0, fOne)] }] }).map
      (fun t => (t.r0, ((t.rvbAt 0).line .left .s2).buf, ((t.rvbAt 0).line .right .s3).buf)) =
    some (0#32, [(0, fOne)], []) := by decide +kernel

theorem test_drv_init :
    (after (.drvInit 0) { State.reset with drv := [{ dl := { DelayLine.reset with w := 3 } }] }).map
      (fun t => ((t.drvAt 0).dl.delay, (t.drvAt 0).dl.w)) = some (2#32, 0) := by decide

/-- R242: the delay line of the drive takes the input as it is. -/
theorem test_drv_proc :
    (after (.drvProc 0) (operands fHalf 0#32 0#32 0#32 0#32 State.reset)).map
      (fun t => ((t.drvAt 0).dl.buf, (t.drvAt 0).dl.w)) = some ([(0, fHalf)], 1) := by decide +kernel

theorem test_spa_init :
    (after .spaInit { State.reset with spaSeq := 7#32, spa := { hist := [1#32, 2#32, 3#32, 4#32], hcnt := 1 } }).map
      (fun t => (t.spaSeq, t.spa, t.bins)) =
    some (0#32, { hist := [0#32, 0#32, 0#32, 0#32], hcnt := 0 }, [0#32, 0#32, 0#32, 0#32]) := by decide

/-- R253's example: samples 1, 0, 0, 0 make two publishes; the history ends as (1, 0, 0, 0). -/
theorem test_spa_proc :
    (after .spaProc (operands 4#32 0#32 0#32 0#32 0#32 { State.reset with spaIn := [(0, fOne)] })).map
      (fun t => (t.spaSeq, t.spa)) =
    some (2#32, { hist := [fOne, 0#32, 0#32, 0#32], hcnt := 0 }) := by decide

/-! Witnesses: for every statement with hypotheses, a state and operands that meet them together, clause by
clause where the statement has clauses, at the ends of each range. -/

/-- Reset has the block accept commands. -/
theorem ready_reset : Ready State.reset := (by decide : State.reset.mode ≠ .faulted)

theorem ready_running : Ready running := (by decide : running.mode ≠ .faulted)

/-- The sealed state with the valid oscillator meets the invariant. -/
theorem running_inv : BlockInv running where
  cfg_ok := by decide
  ntab_length := by decide
  ntab_range := by decide
  store_wf := by decide
  store_finite := by decide
  osc_length := by decide
  env_length := by decide
  bq_length := by decide
  dl_length := by decide
  rvb_length := by decide
  drv_length := by decide
  osc_bank := by decide
  osc_morph := by unfold InUnit; decide
  osc_config := by decide
  dl_ok := by unfold DelayLineOk; decide
  rvb_ok := by
    intro V hV c g
    obtain rfl : V = Reverb.reset := List.mem_singleton.mp hV
    unfold DelayLineOk
    cases c <;> cases g <;> decide
  drv_ok := by unfold DelayLineOk; decide
  drv_fixed := by decide
  hist_length := by decide
  hcnt_range := by decide
  spaIn_wf := by decide
  spaIn_below := by decide
  bins_length := by decide
  fault_iff := by decide
  faultInfo_zero := by decide
  sealed := by decide

/-- The sealed state with other operands, inputs and oscillator morph. -/
def runningWith (w0 morph : Word) (p : List Event) : State :=
  { running with
    a0 := w0, port := p,
    osc := [{ valid := true, bank := 1, tps := 0x3D800000#32, spc := 0x41000000#32,
              scale := 0x3F800000#32, morph := morph }, Osc.reset] }

theorem runningWith_inv (w0 morph : Word) (p : List Event) (h : InUnit morph) :
    BlockInv (runningWith w0 morph p) :=
  { running_inv with
    osc_bank := by
      intro o ho
      rcases List.mem_cons.mp ho with rfl | ho
      · exact (by decide : 1 < 2)
      · rw [List.mem_singleton.mp ho]; exact (by decide : 0 < 2)
    osc_morph := by
      intro o ho
      rcases List.mem_cons.mp ho with rfl | ho
      · exact h
      · rw [List.mem_singleton.mp ho]; exact (by unfold InUnit; decide)
    osc_config := by intro hc; cases hc
    sealed := fun _ => running_inv.sealed rfl }

theorem witness_illegal_words_bad_op :
    Ready State.reset ∧
    ∀ k ∈ [0x02000000, 0x0F000000, 0x13000000, 0x24000000, 0x34000000, 0x45000000, 0x53000000,
        0x63000000, 0x72000000, 0x82000000, 0xFF000000],
      let c := BitVec.ofNat 32 k
      Commanded (commanding c State.reset) c [] ∧ decode c = .error .badOp ∧
      c.toNat / 2 ^ 24 ∉ [0x00, 0x01, 0x10, 0x11, 0x12, 0x20, 0x21, 0x22, 0x23, 0x30, 0x31, 0x32, 0x33,
        0x40, 0x41, 0x42, 0x43, 0x44, 0x50, 0x51, 0x52, 0x60, 0x61, 0x62, 0x70, 0x71, 0x80, 0x81] := by
  unfold Ready Commanded; decide +kernel

theorem witness_illegal_words_rsv_and_idx :
    Ready running ∧
    (∀ k ∈ [0x00010000, 0x22FF0001],
      let c := BitVec.ofNat 32 k
      Commanded (commanding c running) c [] ∧
      c.toNat / 2 ^ 16 % 2 ^ 8 ≠ 0) ∧
    (∀ k ∈ [0x00000001, 0x1000FFFF, 0x81000001],
      let c := BitVec.ofNat 32 k
      Commanded (commanding c running) c [] ∧
      c.toNat / 2 ^ 24 ∈ [0x00, 0x01, 0x10, 0x11, 0x12, 0x80, 0x81] ∧ c.toNat % 2 ^ 16 ≠ 0) := by
  unfold Ready Commanded; decide +kernel

theorem witness_step_runs_decoded_command :
    (Commanded (commanding 0x33000000#32 running) 0x33000000#32 [] ∧
      decode 0x33000000#32 = .ok (.oscProc 0) ∧ Ready (commanding 0x33000000#32 running)) ∧
    (Commanded (commanding 0x01000000#32 stopped) 0x01000000#32 [] ∧
      decode 0x01000000#32 = .ok .sysReset) ∧
    (State.reset.cfg.ok = true ∧ 0x81000000 < 2 ^ 32 ∧
      decodeTableWord 32 0x81000000 = some .spaProc ∧ Ready State.reset) := by
  unfold Ready Commanded; decide +kernel

theorem witness_faulted_mode_discards :
    ∀ k ∈ [0x00000000, 0x01000001, 0x22000000, 0xFFFFFFFF],
      let c := BitVec.ofNat 32 k
      Commanded (commanding c stopped) c [] ∧ (commanding c stopped).mode = .faulted ∧
      c ≠ 0x01000000#32 := by
  unfold Commanded; decide +kernel

theorem witness_violations_ignored :
    Ready running ∧ Ready State.reset ∧
    (Commanded (commanding 0x02000000#32 running) 0x02000000#32 [] ∧
      decode 0x02000000#32 = .error .badOp) ∧
    (instanceOf cfgT (.envProc 2) = some (2, 2) ∧ instanceOf cfgT (.rvbProc 65535) = some (65535, 1)) ∧
    (1 < running.cfg.nOsc ∧ (running.oscAt 1).valid = false ∧ (State.reset.oscAt 0).valid = false) ∧
    running.mode = .run := by
  unfold Ready Commanded; decide +kernel

/-- Every clause of the read map at the ends of its range: what is returned under CFG_T. -/
theorem test_read_map :
    ([0x0000, 0x0001, 0x0005, 0x0006, 0x0007, 0x0008, 0x000C, 0x000D, 0x000F, 0x0011, 0x0012, 0x001F] ++
      [0x0020, 0x0021, 0x002E, 0x002F, 0x0030, 0x0FFF, 0x1000, 0x1007, 0x1008, 0x1FFF, 0x2000, 0x2003,
        0x2004, 0x2FFF]).map (fun off => (stepped { operands 8#32 9#32 10#32 11#32 12#32 (facing (.read off))
          with spaSeq := 5#32, r1 := 17#32, diag := 0x100#9, spaIn := [(0, 1#32), (7, 2#32)],
               bins := [3#32, 4#32, 5#32, 6#32] }).map State.hostSaw) =
    ([0, 4, 5, 0, 0, 8, 12, 0, 0, 17, 0, 0].map fun n => some [BitVec.ofNat 32 n]) ++
    ([0x41800000, 8, 8, 4, 0, 0, 1, 2, 0, 0, 3, 6, 0, 0].map fun n => some [BitVec.ofNat 32 n]) := by
  decide +kernel

theorem witness_register_map_reads (off : Nat) :
    (facing (.read off)).cfg.ok = true ∧ (facing (.read off)).port = .read off :: [] ∧
    (∃ i, i < cfgT.spaBlkMax ∧ 0x1000 = 0x1000 + i) ∧ (∃ i, i < cfgT.spaBlkMax ∧ 0x1007 = 0x1000 + i) ∧
    (∃ k, k < cfgT.nbins ∧ 0x2000 = 0x2000 + k) ∧ (∃ k, k < cfgT.nbins ∧ 0x2003 = 0x2000 + k) ∧
    (0x1000 + cfgT.spaBlkMax ≤ 0x1008 ∧ 0x1000 + cfgT.spaBlkMax ≤ 0x1FFF) ∧
    (0x2000 + cfgT.nbins ≤ 0x2004 ∧ 0x2000 + cfgT.nbins ≤ 0x2FFF) :=
  ⟨(by decide : cfgT.ok = true), rfl, ⟨0, by decide⟩, ⟨7, by decide⟩, ⟨0, by decide⟩, ⟨3, by decide⟩,
    by decide, by decide⟩

theorem witness_register_map_writes (off : Nat) (w : Word) :
    (facing (.write off w)).cfg.ok = true ∧ (facing (.write off w)).port = .write off w :: [] ∧
    (facing (.read off)).port = .read off :: [] ∧
    (0x1000 + cfgT.spaBlkMax ≤ 0x1008 ∧ 0x1008 ≤ 0x2FFF) :=
  ⟨(by decide : cfgT.ok = true), rfl, rfl, by decide⟩

/-- Writes to read-only and reserved offsets at the ends of their ranges change nothing. -/
theorem test_write_map :
    ∀ off ∈ [0x0001, 0x0003, 0x0005, 0x0007, 0x000D, 0x0010, 0x0020, 0x0FFF, 0x1008, 0x2000, 0x2FFF],
      stepped (facing (.write off 1#32)) = some State.reset := by decide +kernel

theorem witness_diag_write_one_to_clear :
    (facing (.write 0x0004 0x101#32)).cfg.ok = true ∧
    (facing (.write 0x0004 0x101#32)).port = .write 0x0004 0x101#32 :: [] := by decide

theorem test_diag_write :
    (stepped { facing (.write 0x0004 0xFFFFFF01#32) with diag := 0x0FF#9 }).map (·.diag) = some 0x0FE#9 := by
  decide

theorem witness_spa_in_window (w : Word) :
    cfgT.ok = true ∧ Memory.wf zeroBlank State.reset.spaIn = true ∧
    (0 < cfgT.spaBlkMax ∧ 7 < cfgT.spaBlkMax ∧ cfgT.spaBlkMax ≤ 8 ∧ cfgT.spaBlkMax ≤ 0xFFF) ∧
    (facing (.write 0x1000 w)).port = .write (0x1000 + 0) w :: [] ∧
    (facing (.read 0x1007)).port = .read (0x1000 + 7) :: [] ∧
    (facing (.write 0x1008 w)).port = .write (0x1000 + 8) w :: [] ∧
    (facing (.read 0x1FFF)).port = .read (0x1000 + 0xFFF) :: [] :=
  ⟨by decide, by decide, by decide, rfl, rfl, rfl, rfl⟩

theorem witness_fault_entry_is_precise :
    Commanded (commanding 0x10000000#32 State.reset) 0x10000000#32 [] ∧
    Ready (commanding 0x10000000#32 State.reset) ∧
    (stepped (commanding 0x10000000#32 State.reset)).map (·.mode) = some .faulted := by
  unfold Ready Commanded; decide +kernel

/-- Each condition of R301's table, at the ends of its range. -/
theorem witness_faults_exactly_as_tabled :
    (∀ s ∈ [operands 2#32 2#32 0#32 0#32 0#32 State.reset, operands 0#32 1#32 0#32 0#32 0#32 State.reset,
        operands 0#32 4#32 0#32 0#32 0#32 State.reset,
        operands 0#32 2#32 0#32 0#32 0#32 { State.reset with ntab := [2, 0] }],
      Ready s ∧ FaultCondition s .wtsBank .wtsRange) ∧
    (∀ s ∈ [operands 2#32 0#32 0#32 fOne 0#32 State.reset, operands 1#32 0#32 0#32 fOne 0#32 State.reset,
        operands 0#32 2#32 0#32 fOne 0#32 { State.reset with ntab := [2, 0] },
        operands 0#32 0#32 8#32 fOne 0#32 { State.reset with ntab := [2, 0] },
        operands 0#32 0#32 0#32 0x7FC00000#32 0#32 { State.reset with ntab := [2, 0] },
        operands 0#32 0#32 0#32 0xFF800000#32 0#32 { State.reset with ntab := [2, 0] }],
      Ready s ∧ FaultCondition s .wtsWr .wtsRange) ∧
    (∃ b, b < 2 ∧ State.reset.ntabAt b = 0) ∧
    FaultCondition State.reset .wtsSeal .wtsIncomplete ∧
    FaultCondition State.reset (.oscInit 1) .wtsMissing ∧
    (Ready running ∧ FaultCondition { running with a1 := 2#32 } (.oscInit 1) .cfgBank) := by
  refine ⟨?_, ?_, ⟨1, by decide⟩, ⟨rfl, rfl, 1, by decide, Or.inl (by decide)⟩,
    ⟨rfl, 1, by decide, rfl⟩, ready_running, ⟨rfl, 1, by decide, rfl, by decide⟩⟩
  · unfold Ready FaultCondition; decide
  · unfold Ready FaultCondition; decide

/-- A way through every clause of the mode transitions. -/
theorem witness_mode_transitions :
    (stepped (commanding 0x00000000#32 running)).map (·.mode) = some running.mode ∧
    (stepped (commanding 0x01000000#32 stopped)).map (·.mode) = some .config ∧
    (stepped { stopped with port := [.powerOn] }).map (·.mode) = some .config ∧
    (stepped (commanding 0x12000000#32 { running with mode := .config })).map (·.mode) = some .run ∧
    (stepped (commanding 0x12000000#32 State.reset)).map (fun t => (t.mode, t.fault)) =
      some (.faulted, .wtsIncomplete) ∧
    (stepped (commanding 0x30000000#32 State.reset)).map (fun t => (t.mode, t.fault)) =
      some (.faulted, .wtsMissing) ∧
    (stepped (commanding 0x30000000#32 { running with a1 := 2#32 })).map (fun t => (t.mode, t.fault)) =
      some (.faulted, .cfgBank) := by decide

theorem witness_diag_bits_sticky :
    Instr.spaProc ≠ .sysReset ∧ after .spaProc { State.reset with a0 := 9#32, diag := 0x001#9 } ≠ none ∧
    (0x001#9).getLsbD 0 = true := by
  refine ⟨by decide, ?_, by decide⟩
  intro h; cases h

theorem witness_diag_never_read :
    after (.dlSet 0) { State.reset with a0 := 8#32 } ≠ none := by intro h; cases h

theorem witness_commands_keep_operands :
    Instr.bqProc 0 ≠ .sysReset ∧ after (.bqProc 0) State.reset ≠ none := by
  refine ⟨by decide, ?_⟩
  intro h; cases h

theorem witness_units_are_private :
    Instr.drvInit 0 ≠ .sysReset ∧ after (.drvInit 0) State.reset ≠ none ∧ (Instr.drvInit 0).op / 16 ≠ 1 := by
  refine ⟨by decide, ?_, by decide⟩
  intro h; cases h

theorem witness_sealed_store_immutable :
    (∃ t, Reaches 2 { running with port := [.write 0x0000 0x11000000#32, .write 0x0008 1#32] } t) ∧
    running.mode ≠ .config ∧
    ∀ e ∈ [Event.write 0x0000 0x11000000#32, .write 0x0008 1#32], isReset e = false :=
  ⟨⟨_, .step rfl (.step rfl (.refl _))⟩, by decide, by decide⟩

theorem witness_reset_restores_everything :
    Commanded (commanding 0x01000000#32 stopped) 0x01000000#32 [] ∧
    (facing .powerOn).cfg.ok = true ∧ (facing .powerOn).port = .powerOn :: [] := by
  unfold Commanded; decide +kernel

theorem witness_init_gives_reset_value :
    Ready running ∧ 1 < cfgT.nEnv ∧ 1 < cfgT.nBq ∧ 0 < cfgT.nRvb ∧ 0 < cfgT.nDrv ∧
    (1 < cfgT.nDl ∧ 1 ≤ running.cfg.dlCap ∧ running.a0 = 0#32 ∧ running.a1 = fZero) := by
  unfold Ready; decide

theorem witness_bank_declared :
    ∀ n ∈ [2, 3], ∀ b ∈ [0, 1],
      let s := operands (bitsU b) (bitsU n) 0#32 0#32 0#32 State.reset
      s.mode = .config ∧ s.ntab.length = s.cfg.nBanks ∧ s.a0.toNat < s.cfg.nBanks ∧ 2 ≤ s.a1.toNat ∧
      s.a1.toNat ≤ s.cfg.ntMax ∧ s.ntabAt s.a0.toNat = 0 := by decide +kernel

theorem witness_cell_written :
    ∀ v ∈ [0, 0x80000000, 0x7F7FFFFF],
      let s := operands 0#32 1#32 7#32 (bitsU v) 0#32 { State.reset with ntab := [2, 0] }
      s.mode = .config ∧ Memory.wf storeBlank s.wt = true ∧ s.a0.toNat < s.cfg.nBanks ∧
      s.ntabAt s.a0.toNat ≠ 0 ∧ s.a1.toNat < s.ntabAt s.a0.toNat ∧ s.a2.toNat < s.cfg.tableLen ∧
      isFinite s.a3 = true ∧ s.ntabAt s.a0.toNat ≤ s.cfg.ntMax := by decide +kernel

theorem witness_seal_decides :
    (∀ b, b < running.cfg.nBanks → running.ntabAt b ≠ 0 ∧
      ∀ t, t < running.ntabAt b → ∀ i, i < running.cfg.tableLen → running.cell b t i ≠ none) ∧
    (1 < State.reset.cfg.nBanks ∧ State.reset.ntabAt 1 = 0) ∧
    (let s := { State.reset with ntab := [2, 3] }
     1 < s.cfg.nBanks ∧ 2 < s.ntabAt 1 ∧ 7 < s.cfg.tableLen ∧ s.cell 1 2 7 = none) := by decide +kernel

theorem witness_sealed_store_is_whole :
    BlockInv running ∧ running.mode = .run ∧ 1 < running.cfg.nBanks ∧ 2 < running.ntabAt 1 ∧
    7 < running.cfg.tableLen :=
  ⟨running_inv, by decide, by decide, by decide, by decide⟩

/-- Ready, an index below its count, and the instance arrays as long as the counts: what the unit statements
ask, at reset and for the last instance of each unit. -/
theorem witness_last_instances :
    Ready State.reset ∧ State.reset.cfg.ok = true ∧
    (1 < cfgT.nEnv ∧ 1 < State.reset.env.length) ∧ (1 < cfgT.nBq ∧ 1 < State.reset.bq.length) ∧
    (1 < cfgT.nDl ∧ 1 < State.reset.dl.length) ∧ (0 < cfgT.nRvb ∧ 0 < State.reset.rvb.length) ∧
    (0 < cfgT.nDrv ∧ 0 < State.reset.drv.length) ∧ 1 < cfgT.nOsc := by
  unfold Ready; decide

theorem witness_envelope_parameters : Ready enveloped ∧ 1 < enveloped.cfg.nEnv := by
  unfold Ready; decide

/-- Inside the ramp, at its end, and held at the three phases (R153's example values). -/
theorem witness_envelope_amplitude :
    (Ready enveloped ∧ 0 < enveloped.cfg.nEnv) ∧
    (let E := enveloped.envAt 0
     (flt fZero fOne = true ∧
        (flt fZero E.release && flt (fsub 0 0x3FA00000#32 fOne) E.release) = true) ∧
     (flt fZero fOne = true ∧
        (flt fZero E.release && flt (fsub 0 0x3FC00000#32 fOne) E.release) = false) ∧
     flt fZero fZero = false ∧ flt fZero 0x7FC00000#32 = false) := by
  unfold Ready; decide +kernel

theorem witness_finished_flag :
    (Ready enveloped ∧ 0 < enveloped.cfg.nEnv ∧ 0 < enveloped.env.length ∧
      after (.envProc 0) enveloped ≠ none) ∧
    (let s := { enveloped with env := [{ Env.reset with finished := true }, Env.reset] }
     after (.envSetp 0) s ≠ none ∧ Instr.envSetp 0 ≠ .envInit 0 ∧ Instr.envSetp 0 ≠ .sysReset ∧
      (s.envAt 0).finished = true) := by
  refine ⟨⟨by unfold Ready; decide, by decide, by decide, ?_⟩, ?_, by decide, by decide, by decide⟩
  · intro h; cases h
  · intro h; cases h

/-- The first and the last time before the end of an attack, and its end, with and without a decay. -/
theorem witness_attack_is_linear :
    (let E : Env ℝ := { attack := 2, decay := 1, sustain := 1 / 2, release := 1, rsa := 0, finished := false }
     0 < E.attack ∧ (0 : ℝ) ≤ 0 ∧ (0 : ℝ) < E.attack ∧ (0 : ℝ) ≤ 1 ∧ (1 : ℝ) < E.attack ∧ 0 < E.decay ∧
      ({ E with decay := 0 } : Env ℝ).decay = 0) ∧
    (let E := enveloped.envAt 0
     isFinite E.attack = true ∧ flt fZero E.attack = true ∧ fle fZero fNegZero = true ∧
      fle fNegZero 0x3EFFFFFF#32 = true ∧ flt 0x3EFFFFFF#32 E.attack = true) := by
  refine ⟨?_, by decide⟩
  norm_num

theorem witness_oscillator_constructed :
    running.mode = .run ∧ 1 < running.cfg.nOsc ∧
    { running with a1 := 1#32 }.a1.toNat < running.cfg.nBanks := by decide

theorem witness_oscillator_settings :
    Ready running ∧ 0 < running.cfg.nOsc ∧ (running.oscAt 0).valid = true := by
  unfold Ready; decide

theorem witness_oscillator_sample :
    BlockInv running ∧ running.mode = .run ∧ 0 < running.cfg.nOsc ∧ (running.oscAt 0).valid = true :=
  ⟨running_inv, by decide, by decide, by decide⟩

/-- The least sizes. -/
theorem witness_every_index_in_range : 0 < 1 ∧ 2 ≤ 2 := by decide

/-- Bank 1 has three tables: positions 0, 0.5 and 1 fall on tables 0, 1 and 2. -/
theorem witness_morph_boundary (w : Word) :
    ∀ p ∈ [(fZero.toNat, 0), (fHalf.toNat, 1), (fOne.toNat, 2)],
      let s := runningWith w (BitVec.ofNat 32 p.1) []
      let seg := fmul s.draw (s.oscAt 0).morph (i2f ((s.ntabAt (s.oscAt 0).bank : Int) - 1))
      BlockInv s ∧ s.mode = .run ∧ 0 < s.cfg.nOsc ∧ (s.oscAt 0).valid = true ∧
      p.2 ≤ s.ntabAt (s.oscAt 0).bank - 1 ∧ isFinite seg = true ∧ units seg = (p.2 : Int) * 2 ^ 149 := by
  intro p hp
  have hu : InUnit (BitVec.ofNat 32 p.1) := by
    revert hp; unfold InUnit; revert p; decide +kernel
  refine ⟨runningWith_inv w _ [] hu, rfl, (by decide : 0 < 2), rfl, ?_⟩
  show p.2 ≤ 2 ∧ isFinite (fmul 0 (BitVec.ofNat 32 p.1) (i2f 2)) = true ∧
    units (fmul 0 (BitVec.ofNat 32 p.1) (i2f 2)) = (p.2 : Int) * 2 ^ 149
  clear hu
  revert p
  decide +kernel

theorem witness_biquad : Ready filtered ∧ 1 < filtered.cfg.nBq := by
  unfold Ready; decide

theorem witness_identity_passes_through :
    State.reset.cfg.ok = true ∧ Ready State.reset ∧ 1 < State.reset.cfg.nBq ∧ 1 < State.reset.bq.length ∧
    ∀ x ∈ [fZero, 0x00000001#32, 0xFF7FFFFF#32], isFinite x = true ∧ x ≠ fNegZero := by
  refine ⟨by decide, ready_reset, by decide, by decide, ?_⟩
  intro x hx
  simp only [List.mem_cons, List.not_mem_nil, or_false] at hx
  rcases hx with rfl | rfl | rfl <;> decide

/-- A delay at each end of both ranges (R214's capacity 8). -/
theorem test_delay_bit :
    [0#32, 7#32, 8#32, 0x7FFFFFFF#32, 0xFFFFFFFF#32, 0x80000000#32].map
      (fun d => (after (.dlSet 1) { State.reset with a0 := d }).map (·.diag)) =
    [some 0#9, some 0#9, some 0x040#9, some 0x040#9, some 0x040#9, some 0x040#9] := by decide

theorem witness_delay_step :
    Ready State.reset ∧ 1 < State.reset.cfg.nDl ∧ 1 < State.reset.dl.length ∧
    Memory.wf zeroBlank (State.reset.dlAt 1).buf = true := by
  unfold Ready; decide

theorem witness_delay_reproduces_input :
    ∀ d ∈ [1, 7],
      let s := operands (bitsU d) fZero 0#32 0#32 0#32 State.reset
      s.cfg.ok = true ∧ Ready s ∧ 1 < s.cfg.nDl ∧ 1 < s.dl.length ∧ 1 ≤ s.a0.toInt ∧
      s.a0.toInt ≤ (s.cfg.dlCap : Int) - 1 ∧ s.a1 = fZero ∧ isFinite fOne = true ∧
      isFinite fNegZero = true := by
  unfold Ready; decide +kernel

/-- Three inputs through a delay of one step. -/
theorem test_delay_stream :
    (match after (.dlInit 0) { State.reset with a0 := 1#32 } with
      | some u => (feed (.dlProc 0) [fOne, fTwo, fHalf] u).map (fun r => r.1.map (·.1))
      | none => none) = some [fZero, fOne, fTwo] := by decide +kernel

theorem witness_reverb_updated_and_sampled :
    Ready State.reset ∧ 0 < State.reset.cfg.nRvb ∧ 0 < State.reset.rvb.length := by
  unfold Ready; decide

theorem witness_reverb_channels_equal :
    State.reset.cfg.ok = true ∧ State.reset.cfg.rvbMap = mapReadingA ∧ Ready State.reset ∧
    0 < State.reset.cfg.nRvb ∧ 0 < State.reset.rvb.length ∧ Mirrored (State.reset.rvbAt 0) := by
  refine ⟨by decide, by decide, ready_reset, by decide, by decide, ?_⟩
  intro g
  cases g <;> exact ⟨rfl, rfl⟩

theorem witness_drive_sample :
    Ready State.reset ∧ 0 < State.reset.cfg.nDrv ∧ 0 < State.reset.drv.length ∧
    Memory.wf zeroBlank (State.reset.drvAt 0).dl.buf = true := by
  unfold Ready; decide

theorem witness_drive_is_silent_and_bounded :
    (State.reset.cfg.ok = true ∧ Ready State.reset ∧ 0 < State.reset.cfg.nDrv ∧
      0 < State.reset.drv.length ∧ [fOne, 0xFF7FFFFF#32].length ≤ State.reset.cfg.drvDelay ∧
      isFinite fOne = true ∧ isFinite 0xFF7FFFFF#32 = true) ∧
    (let L := (State.reset.drvAt 0).dl
     isNaN (fmul 0 fOne (Memory.word L.buf (dlReadIndex State.reset.cfg.drvDlCap L))) = false) := by
  unfold Ready; decide +kernel

theorem witness_analyzer_counts : BlockInv running ∧ Ready running := ⟨running_inv, ready_running⟩

/-- No sample, one short of a publish, the whole buffer, and one more than the buffer. -/
theorem test_analyzer_counts :
    [0#32, 1#32, 8#32, 9#32].map (fun n => (after .spaProc { running with a0 := n }).map
      (fun t => (t.spaSeq, t.spa.hcnt, t.diag))) =
    [some (0#32, 0, 0#9), some (0#32, 1, 0#9), some (4#32, 0, 0#9), some (4#32, 0, 0x100#9)] := by decide

/-- Blocks of 3 and 5 samples, and an empty second block. -/
theorem witness_analyzer_blocks_split :
    BlockInv running ∧ Ready running ∧ 3 + 5 ≤ running.cfg.spaBlkMax ∧ 8 + 0 ≤ running.cfg.spaBlkMax ∧
    (∀ i, i < 5 → Memory.word [] i = running.spaInAt (3 + i)) ∧
    (∃ t u, exec .spaProc { running with a0 := bitsU 3 } = .next t ∧
      exec .spaProc { t with a0 := bitsU 5, spaIn := [] } = .next u) :=
  ⟨running_inv, ready_running, by decide, by decide, by decide, _, _, rfl, rfl⟩

theorem witness_reader_sees_whole_pairs :
    ((facing .snapshot).cfg.ok = true ∧ (facing .snapshot).port = .snapshot :: []) ∧
    (BlockInv running ∧ ∃ t, exec .spaProc running = .next t) :=
  ⟨by decide, running_inv, _, rfl⟩

/-- Two publishes inside one command, one reader operation after the first and two after the second. -/
theorem test_reader_inside_command :
    (after .spaProc { running with a0 := 4#32, midSnaps := [1, 2] }).map
      (fun t => t.readerSaw.map (·.seq)) = some [2#32, 2#32, 1#32] := by decide

theorem witness_sums_rounded_once :
    (isFinite 0x7F7FFFFF#32 = true ∧ isFinite 0x00000001#32 = true) ∧
    (units fOne + units fNegOne = 0 ∧ units fNegZero + units fNegZero = 0) ∧
    (isInf 0x7F800000#32 = true ∧ isInf 0xFF800000#32 = true) ∧ isNaN 0x7F800001#32 = true := by
  decide +kernel

theorem witness_products_rounded_once :
    (isFinite 0x7F7FFFFF#32 = true ∧ isFinite 0x00000001#32 = true ∧ isZero 0x00000001#32 = false) ∧
    (isZero fZero = true ∧ isZero fNegZero = true) ∧ isInf 0xFF800000#32 = true ∧
    isNaN 0xFFFFFFFF#32 = true := by decide

theorem witness_remainder_exact :
    (isFinite 0x40B00000#32 = true ∧ isFinite fTwo = true ∧ isZero fTwo = false) ∧
    isInf 0x7F800000#32 = true ∧ isNaN 0x7FC00000#32 = true ∧ isZero fNegZero = true := by decide

/-- R105's example: the remainder of −5.5 by 2 is −1.5. -/
theorem test_remainder : frem 0 0xC0B00000#32 fTwo = 0xBFC00000#32 := by decide +kernel

theorem witness_guards_replace :
    positiveFinite 0x3A800000#32 = true ∧ positiveFinite 0x00000001#32 = true ∧
    fle 0x3A800000#32 0x3A800000#32 = true ∧ fle 0x3A800000#32 0x3A7FFFFF#32 = false ∧
    (fle fZero fOne = true ∧ fle fOne fOne = true) ∧ flt fOne 0x3F800001#32 = true ∧
    flt 0x80000001#32 fZero = true ∧ isNaN 0x7FC00000#32 = true ∧ isZero fNegZero = true ∧
    signBit fNegOne = true := by decide

theorem witness_conversions_round_right :
    isNaN 0x7FC00000#32 = true ∧ isInf 0xFF800000#32 = true ∧ isFinite 0x4F000000#32 = true ∧
    (-16777216 : Int).natAbs ≤ 2 ^ 24 := by decide

/-- R106's limits and R107's first inexact integers. -/
theorem test_conversions :
    [0x4F000000#32, 0xCF000000#32, 0x4EFFFFFF#32, 0xBFFFFFFF#32].map f2i =
      [2147483647, -2147483648, 2147483520, -1] ∧
    [16777217, 16777219, -16777217].map i2f = [0x4B800000#32, 0x4B800002#32, 0xCB800000#32] := by
  decide +kernel

theorem witness_reset_meets_invariant : cfgT.ok = true := by decide

theorem witness_step_keeps_invariant :
    BlockInv (runningWith 0#32 fZero [.write 0x0000 0x31000000#32]) ∧
    ∃ t, step (runningWith 0#32 fZero [.write 0x0000 0x31000000#32]) = .next t :=
  ⟨runningWith_inv _ _ _ (by unfold InUnit; decide), _, rfl⟩

theorem witness_no_step_stops (w : Word) :
    let s := runningWith 0#32 fZero [.write 0x2FFF w]
    BlockInv s ∧ (∀ off rest, s.port = .read off :: rest → off ≤ 0x2FFF) ∧
    (∀ off v rest, s.port = .write off v :: rest → off ≤ 0x2FFF) := by
  refine ⟨runningWith_inv _ _ _ (by unfold InUnit; decide), ?_, ?_⟩
  · intro off rest h; cases h
  · intro off v rest h; cases h; exact Nat.le_refl _

theorem witness_instances_isolated :
    Ready running ∧ running.draw = State.reset.draw ∧ running.cfg = State.reset.cfg ∧
    [(Instr.envProc 1, { running with env := [enveloped.envAt 0, Env.reset] }),
      (.envStat 1, { running with env := [enveloped.envAt 0, Env.reset] }),
      (.oscProc 0, { running with dl := [] }),
      (.bqProc 1, { running with bq := [filtered.bqAt 0, Biquad.reset] }),
      (.dlProc 1, { running with dl := [{ DelayLine.reset with w := 3 }, DelayLine.reset] }),
      (.rvbProc 0, { running with rvb := running.rvb ++ [Reverb.reset] }),
      (.drvProc 0, { running with drv := running.drv ++ running.drv })].all
        (fun p => (after p.1 running).isSome && (after p.1 p.2).isSome) = true ∧
    1 < min running.bq.length (min running.dl.length running.env.length) ∧
    0 < min running.rvb.length running.drv.length ∧
    1 < min running.cfg.nBq (min running.cfg.nDl running.cfg.nEnv) ∧
    0 < min running.cfg.nOsc (min running.cfg.nRvb running.cfg.nDrv) :=
  ⟨ready_running, rfl, rfl, by decide +kernel, by decide⟩

end Sys2Proof.Tests
end

/-! SUPPORT. What a command and a port event leave alone (10_state.md R21, R22, R26, R30, R38): the host's
side of the state, the result registers, the sealed store; and the three statements that rest on it. -/

namespace Sys2Proof.Proofs

open Machine

/-! The port: everything a write can do, said once. -/

/-- The one word that spells `SYS.RESET` (R82). -/
theorem eq_resetWord_of_decode {c : Word} (h : decode c = .ok .sysReset) : c = 0x01000000#32 := by
  have row : ∀ {op : Nat} {r : OpRow}, opRow op = some r →
      (r = .noIdx .sysReset → op = 1) ∧ ∀ f, r = .withIdx f → f (idxField c) ≠ .sysReset := by
    intro op r hr
    unfold opRow at hr
    split at hr <;> cases hr <;> simp
  unfold decode at h
  split at h
  · cases h
  next r hr =>
    obtain ⟨hop, hidx⟩ := row hr
    split at h
    · cases h
    next hrsv =>
      cases r with
      | withIdx f => exact absurd (Except.ok.inj h) (hidx f rfl)
      | noIdx i =>
        simp only at h
        split at h
        · cases h
        next hi =>
          have hop := hop (congrArg OpRow.noIdx (Except.ok.inj h))
          simp only [opField, rsvField, idxField, not_not] at hop hrsv hi
          apply BitVec.eq_of_toNat_eq
          simp only [BitVec.toNat_ofNat]
          omega

/-- If a word written to `CMD` answers a next state, it was discarded, was illegal, or ran a command,
`SYS.RESET` for its own word only (R86, R90). -/
theorem cmdWrite_next {s t : State} {c : Word} (h : cmdWrite s c = .next t) :
    t = s ∨ t = s.ignored .illegal ∨
    ∃ i, (i = .sysReset → c = 0x01000000#32) ∧ exec i s = .next t := by
  unfold cmdWrite at h
  split at h
  case h_1 =>
    split at h
    · exact Or.inr (Or.inr ⟨.sysReset, fun _ => ‹_›, h⟩)
    · cases h; exact Or.inl rfl
  all_goals
    split at h
    · exact Or.inr (Or.inr ⟨_, fun hi => eq_resetWord_of_decode (hi ▸ ‹_›), h⟩)
    · cases h; exact Or.inr (Or.inl rfl)

/-- If a host write answers a next state, it was ignored, cleared `DIAG` bits, stored an operand or an input
sample, or was the command write at offset 0 (R61). -/
theorem regWrite_next {s t : State} {off : Nat} {w : Word} (h : regWrite s off w = .next t) :
    t = s ∨ t = s.clearDiag w ∨ (∃ k, t = s.setA k w) ∨ (∃ i, t = s.setSpaIn i w) ∨
    (off = 0 ∧ cmdWrite { s with draw := s.draw + 1 } w = .next t) := by
  unfold regWrite at h
  split at h
  case h_1 hp => exact Or.inr (Or.inr (Or.inr (Or.inr ⟨portAt_cmd hp, h⟩)))
  case h_2 => cases h; exact Or.inr (Or.inl rfl)
  case h_3 k _ => cases h; exact Or.inr (Or.inr (Or.inl ⟨k, rfl⟩))
  case h_4 i _ => cases h; exact Or.inr (Or.inr (Or.inr (Or.inl ⟨i, rfl⟩)))
  case h_13 => cases h
  all_goals
    cases h
    exact Or.inl rfl

/-! What a command leaves alone. -/

/-- The fields only the host, reset and the port itself write: operands (R21), `SPA_IN` (R38), the
configuration, the events to come and the words the host has read. -/
structure HostSideKept (s t : State) : Prop where
  a0 : t.a0 = s.a0
  a1 : t.a1 = s.a1
  a2 : t.a2 = s.a2
  a3 : t.a3 = s.a3
  a4 : t.a4 = s.a4
  spaIn : t.spaIn = s.spaIn
  cfg : t.cfg = s.cfg
  port : t.port = s.port
  hostSaw : t.hostSaw = s.hostSaw

/-- `R0` and `R1` stay, or the command is one whose rule names them (R22). -/
def ResultsNamed (i : Instr) (s t : State) : Prop :=
  (t.r0 = s.r0 ∧ t.r1 = s.r1) ∨ (∃ j, i = .envProc j ∨ i = .envStat j ∨ i = .rvbProc j) ∨
  ((∃ j, i = .oscProc j ∨ i = .bqProc j ∨ i = .dlProc j ∨ i = .drvProc j) ∧ t.r1 = s.r1)

/-- The table counts and the cells stay and CONFIG mode is not entered (R30, R71); the port stays too, so
that the events of a run are counted off by the steps alone. -/
structure StoreKept (s t : State) : Prop where
  ntab : t.ntab = s.ntab
  wt : t.wt = s.wt
  mode : t.mode ≠ .config
  port : t.port = s.port

/-- What the own rule of a command leaves alone: the host's side, the results it does not name and, outside
CONFIG mode, the store. -/
theorem effect_frame {i : Instr} {s t : State} (hi : i ≠ .sysReset) (h : Effect i s t) :
    HostSideKept s t ∧ ResultsNamed i s t ∧ (s.mode ≠ .config → StoreKept s t) := by
  cases i with
  | sysReset => exact absurd rfl hi
  | wtsBank =>
    obtain ⟨hc, -, -, -, -, rfl⟩ := h
    exact ⟨by constructor <;> rfl, Or.inl ⟨rfl, rfl⟩, fun hm => absurd hc hm⟩
  | wtsWr =>
    obtain ⟨hc, -, -, -, -, -, rfl⟩ := h
    exact ⟨by constructor <;> rfl, Or.inl ⟨rfl, rfl⟩, fun hm => absurd hc hm⟩
  | wtsSeal =>
    obtain ⟨hc, -, rfl⟩ := h
    exact ⟨by constructor <;> rfl, Or.inl ⟨rfl, rfl⟩, fun hm => absurd hc hm⟩
  | envProc j | envStat j | rvbProc j =>
    obtain ⟨-, rfl⟩ := h
    exact ⟨by constructor <;> rfl, Or.inr (Or.inl ⟨j, by simp⟩), fun hm => ⟨rfl, rfl, hm, rfl⟩⟩
  | oscProc j =>
    obtain ⟨-, -, _, rfl⟩ := h
    exact ⟨by constructor <;> rfl, Or.inr (Or.inr ⟨⟨j, by simp⟩, rfl⟩), fun hm => ⟨rfl, rfl, hm, rfl⟩⟩
  | bqProc j | dlProc j | drvProc j =>
    obtain ⟨-, rfl⟩ := h
    exact ⟨by constructor <;> rfl, Or.inr (Or.inr ⟨⟨j, by simp⟩, rfl⟩), fun hm => ⟨rfl, rfl, hm, rfl⟩⟩
  | spaProc =>
    subst h
    exact ⟨by constructor <;> simp, Or.inl (by simp), fun hm => by constructor <;> simp [hm]⟩
  | sysNop | spaInit =>
    subst h
    exact ⟨by constructor <;> rfl, Or.inl ⟨rfl, rfl⟩, fun hm => ⟨rfl, rfl, hm, rfl⟩⟩
  | oscInit =>
    obtain ⟨-, -, -, _, -, -, rfl⟩ := h
    exact ⟨by constructor <;> rfl, Or.inl ⟨rfl, rfl⟩, fun hm => ⟨rfl, rfl, hm, rfl⟩⟩
  | oscSetf =>
    obtain ⟨-, -, _, _, rfl⟩ := h
    exact ⟨by constructor <;> rfl, Or.inl ⟨rfl, rfl⟩, fun hm => ⟨rfl, rfl, hm, rfl⟩⟩
  | oscSetm =>
    obtain ⟨-, -, rfl⟩ := h
    exact ⟨by constructor <;> rfl, Or.inl ⟨rfl, rfl⟩, fun hm => ⟨rfl, rfl, hm, rfl⟩⟩
  | bqSetc | bqLp | bqAp =>
    obtain ⟨-, _, rfl⟩ := h
    exact ⟨by constructor <;> rfl, Or.inl ⟨rfl, rfl⟩, fun hm => ⟨rfl, rfl, hm, rfl⟩⟩
  | envInit | envSetp | bqInit | dlInit | dlSet | rvbInit | rvbUpd | drvInit =>
    obtain ⟨-, rfl⟩ := h
    exact ⟨by constructor <;> rfl, Or.inl ⟨rfl, rfl⟩, fun hm => ⟨rfl, rfl, hm, rfl⟩⟩

/-- No command but reset writes the host's side of the state (R21, R38). -/
theorem hostSideKept_exec {i : Instr} {s t : State} (hi : i ≠ .sysReset) (h : exec i s = .next t) :
    HostSideKept s t := by
  rcases exec_next h with ⟨-, -, rfl⟩ | ⟨-, _, rfl⟩ | ⟨-, _, -, rfl⟩ | ⟨-, he⟩
  · constructor <;> rfl
  · constructor <;> rfl
  · constructor <;> rfl
  · exact (effect_frame hi he).1

/-! The sealed store along a run. -/

/-- Outside CONFIG mode no command but reset touches the store (R133). -/
theorem storeKept_exec {i : Instr} {s t : State} (hm : s.mode ≠ .config) (hi : i ≠ .sysReset)
    (h : exec i s = .next t) : StoreKept s t := by
  rcases exec_next h with ⟨-, -, rfl⟩ | ⟨-, _, rfl⟩ | ⟨-, _, -, rfl⟩ | ⟨-, he⟩
  · exact ⟨rfl, rfl, hm, rfl⟩
  · exact ⟨rfl, rfl, hm, rfl⟩
  · exact ⟨rfl, rfl, by simp, rfl⟩
  · obtain ⟨-, -, hstore⟩ := effect_frame hi he
    exact hstore hm

theorem storeKept_cmdWrite {s t : State} {c : Word} (hm : s.mode ≠ .config) (hc : c ≠ 0x01000000#32)
    (h : cmdWrite s c = .next t) : StoreKept s t := by
  rcases cmdWrite_next h with rfl | rfl | ⟨i, hi, he⟩
  · exact ⟨rfl, rfl, hm, rfl⟩
  · exact ⟨rfl, rfl, hm, rfl⟩
  · exact storeKept_exec hm (fun hr => hc (hi hr)) he

theorem storeKept_regWrite {s t : State} {off : Nat} {w : Word} (hm : s.mode ≠ .config)
    (hr : ¬ (off = 0 ∧ w = 0x01000000#32)) (h : regWrite s off w = .next t) : StoreKept s t := by
  rcases regWrite_next h with rfl | rfl | ⟨k, rfl⟩ | ⟨i, rfl⟩ | ⟨h0, hc⟩
  · exact ⟨rfl, rfl, hm, rfl⟩
  · exact ⟨rfl, rfl, hm, rfl⟩
  · constructor <;> simp [hm]
  · exact ⟨rfl, rfl, hm, rfl⟩
  · obtain ⟨hn, hw, hmode, hp⟩ :=
      storeKept_cmdWrite (s := { s with draw := s.draw + 1 }) hm (fun hw => hr ⟨h0, hw⟩) hc
    exact ⟨hn, hw, hmode, hp⟩

/-- Outside CONFIG mode no event but a reset touches the store (R71, R330). -/
theorem storeKept_performEvent {s t : State} {e : Event} (hm : s.mode ≠ .config)
    (he : isReset e = false) (h : performEvent e s = .next t) : StoreKept s t := by
  cases e with
  | read off =>
    unfold performEvent at h
    simp only at h
    split at h
    · cases h; exact ⟨rfl, rfl, hm, rfl⟩
    · cases h
  | write off w => exact storeKept_regWrite hm (by simpa [isReset] using he) h
  | snapshot => cases h; exact ⟨rfl, rfl, hm, rfl⟩
  | powerOn => simp [isReset] at he

/-- Settles O18, by induction over the run: each step takes one event off the port, and an event that is no
reset keeps the store and stays out of CONFIG mode. -/
theorem sealedStoreImmutable : Obligations.SealedStoreImmutable := by
  intro n s t hrun
  induction hrun with
  | refl s => exact fun hm _ => ⟨rfl, rfl, hm⟩
  | @step n s u t hstep _ ih =>
    intro hm hreset
    obtain ⟨-, ⟨hp, rfl⟩ | ⟨e, rest, hp, he⟩⟩ := step_next hstep
    · exact ih hm (by simp [hp])
    · rw [hp, List.take_succ_cons] at hreset
      obtain ⟨hn, hw, hmode, hport⟩ :=
        storeKept_performEvent (s := { s with port := rest }) hm (hreset e List.mem_cons_self) he
      obtain ⟨hn', hw', hmode'⟩ := ih hmode
        (fun e' h' => hreset e' (List.mem_cons_of_mem _ (by rwa [hport] at h')))
      exact ⟨hn'.trans hn, hw'.trans hw, hmode'⟩

/-- Settles O16, by the four things a command can have done: discarded, ignored, faulted, or its own
effect. -/
theorem commandsKeepOperands : Obligations.CommandsKeepOperands := by
  intro i s t hi h
  obtain ⟨h0, h1, h2, h3, h4, hspa, hcfg, hport, hsaw⟩ := hostSideKept_exec hi h
  refine ⟨⟨h0, h1, h2, h3, h4⟩, hspa, hcfg, hport, hsaw, ?_⟩
  rcases exec_next h with ⟨-, -, rfl⟩ | ⟨-, b, rfl⟩ | ⟨hm, _, -, rfl⟩ | ⟨-, he⟩
  · exact Or.inl ⟨rfl, rfl⟩
  · exact Or.inr (Or.inl ⟨b, rfl⟩)
  · exact Or.inr (Or.inr (Or.inl ⟨hm, rfl, rfl, rfl⟩))
  · obtain ⟨-, hres, -⟩ := effect_frame hi he
    rcases hres with hkept | hboth | hone
    · exact Or.inl hkept
    · exact Or.inr (Or.inr (Or.inr (Or.inl hboth)))
    · exact Or.inr (Or.inr (Or.inr (Or.inr hone)))

/-- Settles O9: the write is `clearDiag`, an AND with the complement of the word. -/
theorem diagWriteOneToClear : Obligations.DiagWriteOneToClear := by
  intro s rest w hc hp
  refine ⟨State.clearDiag { s with port := rest } w, step_write hc hp, rfl, fun k hk => ?_⟩
  simp [hk]

end Sys2Proof.Proofs

/-! SUPPORT. The register map (20_memory.md R61, R63 to R65) as the host meets it: what a read returns and what
a write does at each kind of offset; every index in its range (R66); every unit's state its own (R60); and what
the reader gets (R70, 60_exceptions.md R320). -/

namespace Sys2Proof.Proofs

open Machine

/-! The register map: reads and writes by the kind of offset. -/

theorem regRead_spaIn {s : State} (hc : s.cfg.ok = true) {i : Nat} (h : i < s.cfg.spaBlkMax) :
    regRead s (0x1000 + i) = some (s.spaInAt i) := by
  rw [regRead, portAt_spaIn (window_sizes hc).2.1 h]

theorem regRead_bin {s : State} (hc : s.cfg.ok = true) {k : Nat} (h : k < s.cfg.nbins) :
    regRead s (0x2000 + k) = some (s.bins.getD k 0#32) := by
  rw [regRead, portAt_bin (window_sizes hc).2.2 h]

/-- Where nothing stands a read returns 0 (R65). -/
theorem regRead_reserved {s : State} {off : Nat} (h : portAt s.cfg off = .reserved) :
    regRead s off = some 0#32 := by
  rw [regRead, h]

theorem regRead_outside {s : State} {off : Nat} (h : 0x3000 ≤ off) : regRead s off = none := by
  rw [regRead, portAt_outside h]

theorem regWrite_spaIn {s : State} (hc : s.cfg.ok = true) {i : Nat} (h : i < s.cfg.spaBlkMax) (w : Word) :
    regWrite s (0x1000 + i) w = .next (s.setSpaIn i w) := by
  rw [regWrite, portAt_spaIn (window_sizes hc).2.1 h]

theorem regWrite_bin {s : State} (hc : s.cfg.ok = true) {k : Nat} (h : k < s.cfg.nbins) (w : Word) :
    regWrite s (0x2000 + k) w = .next s := by
  rw [regWrite, portAt_bin (window_sizes hc).2.2 h]

theorem regWrite_reserved {s : State} {off : Nat} (h : portAt s.cfg off = .reserved) (w : Word) :
    regWrite s off w = .next s := by
  rw [regWrite, h]

theorem regWrite_outside {s : State} {off : Nat} (h : 0x3000 ≤ off) (w : Word) :
    regWrite s off w = .refused (.outsideBlock off) := by
  rw [regWrite, portAt_outside h]

/-- At a read-only or reserved offset a write is ignored (R61, R65). -/
theorem regWrite_ignored {s : State} (hc : s.cfg.ok = true) {off : Nat}
    (h : off = 0x0001 ∨ off = 0x0002 ∨ off = 0x0003 ∨ (0x0005 ≤ off ∧ off ≤ 0x0007) ∨
      (0x000D ≤ off ∧ off ≤ 0x0FFF) ∨ (0x1000 + s.cfg.spaBlkMax ≤ off ∧ off ≤ 0x2FFF)) (w : Word) :
    regWrite s off w = .next s := by
  have hmax := window_sizes hc
  obtain rfl | rfl | rfl | ⟨hlo, hhi⟩ | ⟨hlo, hhi⟩ | ⟨hlo, hhi⟩ := h
  · rfl
  · rfl
  · rfl
  · interval_cases off <;> rfl
  · rcases Nat.lt_or_ge off 0x0030 with hregs | hregs
    · interval_cases off <;> rfl
    · exact regWrite_reserved (portAt_reserved (by omega)) w
  · by_cases hbin : 0x2000 ≤ off ∧ off < 0x2000 + s.cfg.nbins
    · obtain ⟨k, rfl⟩ := Nat.exists_eq_add_of_le hbin.1
      exact regWrite_bin hc (by omega) w
    · exact regWrite_reserved (portAt_reserved (by omega)) w

/-- Settles O7, range by range: the registers by evaluating the map, the windows and the reserved ranges by
what stands there. -/
theorem registerMapReads : Obligations.RegisterMapReads := by
  intro s rest off w hc hp h
  refine step_read hc hp ?_
  rcases h with ⟨rfl, rfl⟩ | ⟨rfl, rfl⟩ | h
  · rfl
  · exact congrArg some (status_eq_add s)
  -- the registers after `STATUS`, one at a time
  iterate 27
    obtain ⟨rfl, rfl⟩ | h := h
    · rfl
  obtain ⟨i, hi, rfl, rfl⟩ | ⟨k, hk, rfl, rfl⟩ | ⟨hr, rfl⟩ := h
  · exact regRead_spaIn (s := { s with port := rest }) hc hi
  · exact regRead_bin (s := { s with port := rest }) hc hk
  · exact regRead_reserved (portAt_reserved hr)

/-- Settles O8: the operand registers by evaluating the map, the others by `regWrite_ignored`
and `portAt_outside`. -/
theorem registerMapWrites : Obligations.RegisterMapWrites := by
  intro s rest off w hc
  refine ⟨fun hp => ?_, fun hoff hp => ?_⟩
  · rw [step_write hc hp]
    refine ⟨?_, ?_, ?_, ?_, ?_, fun h => regWrite_ignored (s := { s with port := rest }) hc h w⟩
    all_goals
      rintro rfl
      rfl
  · rcases hp with hp | hp
    · rw [step_write hc hp, regWrite_outside hoff]
    · rw [step_event hc hp, performEvent, regRead_outside hoff]

/-- Settles O10, by the law of a read after a write in a canonical memory. -/
theorem spaInWindow : Obligations.SpaInWindow := by
  intro s rest i w hc hwf hi
  have hmax := window_sizes hc
  have hres : s.cfg.spaBlkMax ≤ i → portAt s.cfg (0x1000 + i) = .reserved := fun h =>
    portAt_reserved (by omega)
  refine ⟨fun h hp => ?_, fun h hp => ?_, fun h hp => ?_, fun h hp => ?_⟩
  · refine ⟨State.setSpaIn { s with port := rest } i w, ?_, rfl, fun k => Memory.word_write hwf i k w⟩
    rw [step_write hc hp]
    exact regWrite_spaIn (s := { s with port := rest }) hc h w
  · exact step_read hc hp (regRead_spaIn hc h)
  · rw [step_write hc hp]
    exact regWrite_reserved (s := { s with port := rest }) (hres h) w
  · exact step_read hc hp (regRead_reserved (hres h))

/-! Indexes (R66). -/

/-- An integer cut to the range from 0 to `hi`, as R178 and R179 cut an index. -/
theorem toNat_cut_le (i : Int) {hi : Int} (h : 0 ≤ hi) :
    ((if (if hi < i then hi else i) < 0 then 0 else if hi < i then hi else i).toNat : Int) ≤ hi := by
  split_ifs <;> omega

theorem tableIndex_lt {F : Type} (N : Arith F) {len : Nat} (O : Osc F) (t : F) (h : 0 < len) :
    tableIndex N len O t < len := by
  have hcut : (tableIndex N len O t : Int) ≤ (len : Int) - 1 := toNat_cut_le _ (by omega)
  omega

/-- The lower table of the morph pair has a neighbour above it (R179). -/
theorem morphPair_lt {F : Type} (N : Arith F) {n : Nat} (m : F) (h : 2 ≤ n) : (morphPair N n m).1 + 1 < n := by
  have hcut : ((morphPair N n m).1 : Int) ≤ (n : Int) - 2 := toNat_cut_le _ (by omega)
  omega

/-- `emod` is the remainder of the division that rounds down (R111). -/
theorem emod_eq (n : Int) {m : Nat} (h : 0 < m) : (emod n m : Int) = n - n / m * m := by
  have hnn : 0 ≤ n % m := Int.emod_nonneg n (by omega)
  rw [emod, Int.toNat_of_nonneg hnn, Int.emod_def, Int.mul_comm]

/-- Settles O34, index by index. -/
theorem everyIndexInRange : Obligations.EveryIndexInRange :=
  ⟨fun _ N _ O t h => tableIndex_lt N O t h, fun _ N _ m h => morphPair_lt N m h,
    fun _ _ _ h => emod_lt _ h, fun _ => Nat.min_le_right _ _,
    fun n m h => ⟨emod_lt n h, n / m, by rw [emod_eq n h]; omega⟩⟩

/-! Private state (R60). -/

/-- The private state of every unit but unit `u` is as before (R60). -/
structure OtherUnitsKept (u : Nat) (s t : State) : Prop where
  store : u ≠ 1 → t.ntab = s.ntab ∧ t.wt = s.wt
  env : u ≠ 2 → t.env = s.env
  osc : u ≠ 3 → t.osc = s.osc
  bq : u ≠ 4 → t.bq = s.bq
  dl : u ≠ 5 → t.dl = s.dl
  rvb : u ≠ 6 → t.rvb = s.rvb
  drv : u ≠ 7 → t.drv = s.drv
  spa : u ≠ 8 → t.spa = s.spa ∧ t.bins = s.bins ∧ t.spaSeq = s.spaSeq ∧ t.readerSaw = s.readerSaw

/-- The own rule of a command writes the private state of its own unit only. -/
theorem effect_otherUnitsKept {i : Instr} {s t : State} (hi : i ≠ .sysReset) (h : Effect i s t) :
    OtherUnitsKept (i.op / 16) s t := by
  cases i with
  | sysReset => exact absurd rfl hi
  | sysNop | spaInit | spaProc =>
    subst h
    constructor <;> simp [Instr.op]
  | wtsBank =>
    obtain ⟨-, -, -, -, -, rfl⟩ := h
    constructor <;> simp [Instr.op]
  | wtsWr =>
    obtain ⟨-, -, -, -, -, -, rfl⟩ := h
    constructor <;> simp [Instr.op]
  | oscInit =>
    obtain ⟨-, -, -, _, -, -, rfl⟩ := h
    constructor <;> simp [Instr.op]
  | oscSetf =>
    obtain ⟨-, -, _, _, rfl⟩ := h
    constructor <;> simp [Instr.op]
  | oscProc =>
    obtain ⟨-, -, _, rfl⟩ := h
    constructor <;> simp [Instr.op]
  | wtsSeal | oscSetm =>
    obtain ⟨-, -, rfl⟩ := h
    constructor <;> simp [Instr.op]
  | bqSetc | bqLp | bqAp =>
    obtain ⟨-, _, rfl⟩ := h
    constructor <;> simp [Instr.op]
  | envInit | envSetp | envProc | envStat | bqInit | bqProc | dlInit | dlSet | dlProc | rvbInit | rvbUpd | rvbProc
  | drvInit | drvProc =>
    obtain ⟨-, rfl⟩ := h
    constructor <;> simp [Instr.op]

/-- Settles O17: a command discarded, ignored or faulting writes no private state, and an own effect only that
of its unit. -/
theorem unitsArePrivate : Obligations.UnitsArePrivate := by
  intro i s t hi h
  have kept : OtherUnitsKept (i.op / 16) s t := by
    rcases exec_next h with ⟨-, -, rfl⟩ | ⟨-, _, rfl⟩ | ⟨-, _, -, rfl⟩ | ⟨-, he⟩
    · constructor <;> simp
    · constructor <;> simp
    · constructor <;> simp
    · exact effect_otherUnitsKept hi he
  exact ⟨kept.store, kept.env, kept.osc, kept.bq, kept.dl, kept.rvb, kept.drv, kept.spa⟩

/-! The reader (R70, R320). -/

theorem spaBlock_eq_map (s : State) (i m : Nat) : spaBlock s i m = (List.range' i m).map s.spaInAt := by
  induction m generalizing i with
  | zero => rfl
  | succ m ih => rw [spaBlock, ih, List.range'_succ, List.map_cons]

/-- The samples `SPA.PROC` takes are the first words of `SPA_IN` (R253). -/
theorem spaBlock_zero (s : State) (m : Nat) : spaBlock s 0 m = inputBlock s m := by
  rw [spaBlock_eq_map, inputBlock, List.range_eq_range']

@[simp] theorem length_inputBlock (s : State) (m : Nat) : (inputBlock s m).length = m := by
  simp [inputBlock]

theorem analyzerSizes_of_blockInv {s : State} (h : BlockInv s) : AnalyzerSizes s :=
  ⟨h.hist_length, h.hcnt_range, h.bins_length⟩

theorem one_le_spaWin {c : Config} (h : c.ok = true) : 1 ≤ c.spaWin := by
  simp only [Config.ok, Bool.and_eq_true, decide_eq_true_eq] at h; omega

/-- `SPA.PROC` outside FAULTED mode takes the first min(`A0`, `SPA_BLK_MAX`) words of `SPA_IN`, `SPA_CLAMPED`
raised before them (R253, R254). -/
theorem exec_spaProc_ready {s : State} (h : s.mode ≠ .faulted) :
    exec .spaProc s = .next (spaTakeAll
      (s.raiseDiag (DiagBit.spaClamped.when (decide (s.cfg.spaBlkMax < s.a0.toNat))))
      (inputBlock s (min s.a0.toNat s.cfg.spaBlkMax))) := by
  rw [← spaBlock_zero]
  exact unlessFaulted_ready h _

/-- Settles O49: between commands by the step rule of an event; inside `SPA.PROC` by what a block of samples
leaves and lets the reader see (`spaTakeAll_spec`); in FAULTED mode nothing happens. -/
theorem readerSeesWholePairs : Obligations.ReaderSeesWholePairs := by
  refine ⟨fun s rest hc hp => step_event hc hp, fun s hinv => ?_⟩
  by_cases hm : s.mode = .faulted
  · refine ⟨s, [], unlessFaulted_faulted hm _, ?_, rfl, by simp, .nil⟩
    simp [hm]
  · have hsizes : AnalyzerSizes s := analyzerSizes_of_blockInv hinv
    obtain ⟨-, -, hlast, seen, hseen, hrange, hsorted⟩ :=
      spaTakeAll_spec (s := s.raiseDiag (DiagBit.spaClamped.when (decide (s.cfg.spaBlkMax < s.a0.toNat))))
        (one_le_spaWin hinv.cfg_ok) hsizes (inputBlock s (min s.a0.toNat s.cfg.spaBlkMax))
    rw [length_inputBlock] at hlast hrange
    simp only [if_neg hm]
    exact ⟨_, seen, exec_spaProc_ready hm, hlast, hseen, hrange, hsorted⟩

end Sys2Proof.Proofs

/-! SUPPORT. Command words (30_encoding.md R80, R82, R83, R86, R90): a word spells a command exactly when its
fields are the command's; and what a step does with a word written to `CMD`, legal, illegal or discarded. -/

namespace Sys2Proof.Proofs

open Machine

/-! The opcode map (R82). -/

/-- The row of a command without an index: its own opcode, and index 0. -/
theorem fields_of_noIdx {op : Nat} {i : Instr} (h : opRow op = some (.noIdx i)) : op = i.op ∧ i.idx = 0 := by
  unfold opRow at h
  split at h <;> cases h <;> exact ⟨rfl, rfl⟩

/-- The row of a command with an index: its own opcode, and the index it is given. -/
theorem fields_of_withIdx {op : Nat} {f : Nat → Instr} (h : opRow op = some (.withIdx f)) (j : Nat) :
    op = (f j).op ∧ j = (f j).idx := by
  unfold opRow at h
  split at h <;> cases h <;> exact ⟨rfl, rfl⟩

/-- Every command stands in the row of its opcode. -/
theorem opRow_op (i : Instr) :
    (opRow i.op = some (.noIdx i) ∧ i.idx = 0) ∨ ∃ f, opRow i.op = some (.withIdx f) ∧ f i.idx = i := by
  cases i
  case sysNop | sysReset | wtsBank | wtsWr | wtsSeal | spaInit | spaProc => exact Or.inl ⟨rfl, rfl⟩
  all_goals exact Or.inr ⟨_, rfl, rfl⟩

/-- The 28 opcodes of R82. -/
def opcodes : List Nat :=
  [0x00, 0x01, 0x10, 0x11, 0x12, 0x20, 0x21, 0x22, 0x23, 0x30, 0x31, 0x32, 0x33,
    0x40, 0x41, 0x42, 0x43, 0x44, 0x50, 0x51, 0x52, 0x60, 0x61, 0x62, 0x70, 0x71, 0x80, 0x81]

/-- The opcodes of the commands without an index (R82). -/
def opcodesWithoutIdx : List Nat := [0x00, 0x01, 0x10, 0x11, 0x12, 0x80, 0x81]

theorem op_mem_opcodes (i : Instr) : i.op ∈ opcodes := by
  cases i <;> simp [Instr.op, opcodes]

theorem op_lt (i : Instr) : i.op < 256 :=
  (by decide : ∀ op ∈ opcodes, op < 256) _ (op_mem_opcodes i)

theorem idx_eq_zero_of_op_mem {i : Instr} (h : i.op ∈ opcodesWithoutIdx) : i.idx = 0 := by
  rcases opRow_op i with ⟨-, h0⟩ | ⟨f, hf, -⟩
  · exact h0
  · simp only [opcodesWithoutIdx, List.mem_cons, List.not_mem_nil, or_false] at h
    rcases h with h | h | h | h | h | h | h <;> rw [h] at hf <;> cases hf

theorem wellFormed_iff (i : Instr) : i.wellFormed = true ↔ i.idx < 65536 := by
  cases i <;> simp [Instr.wellFormed, Instr.idx, idxFits]

/-! Words and commands (R80, R83). -/

/-- The command `i` is spelt by the word `c`: `OP` and `IDX` are its own and `RSV` is 0 (R80). -/
structure Spells (c : Word) (i : Instr) : Prop where
  op : opField c = i.op
  rsv : rsvField c = 0
  idx : idxField c = i.idx

/-- The decoder answers the command a word spells and no other. -/
theorem decode_ok_iff {c : Word} {i : Instr} : decode c = .ok i ↔ Spells c i := by
  constructor
  · intro h
    unfold decode at h
    split at h
    · cases h
    next row hrow =>
      cases row with
      | noIdx k =>
        obtain ⟨hop, h0⟩ := fields_of_noIdx hrow
        dsimp only at h
        split_ifs at h with hrsv hidx
        cases h
        exact ⟨hop, not_not.mp hrsv, (not_not.mp hidx).trans h0.symm⟩
      | withIdx f =>
        obtain ⟨hop, hidx⟩ := fields_of_withIdx hrow (idxField c)
        dsimp only at h
        split_ifs at h with hrsv
        cases h
        exact ⟨hop, not_not.mp hrsv, hidx⟩
  · rintro ⟨hop, hrsv, hidx⟩
    rcases opRow_op i with ⟨hrow, h0⟩ | ⟨f, hrow, hf⟩
    · simp [decode, hop, hrow, hrsv, hidx, h0]
    · simp [decode, hop, hrow, hrsv, hidx, hf]

/-- The fields are the whole of a word (R80). -/
theorem word_eq_fields (c : Word) :
    c.toNat = opField c * 2 ^ 24 + rsvField c * 2 ^ 16 + idxField c := by
  simp only [opField, rsvField, idxField]
  omega

/-- A word spells a command exactly when the command fits a word and the word is its encoding. -/
theorem spells_iff {c : Word} {i : Instr} : Spells c i ↔ i.wellFormed = true ∧ encode i = c := by
  constructor
  · rintro ⟨hop, hrsv, hidx⟩
    refine ⟨(wellFormed_iff i).mpr (hidx ▸ Nat.mod_lt _ (by decide)), ?_⟩
    have hc : c.toNat = i.op * 2 ^ 24 + i.idx := by rw [word_eq_fields, hop, hrsv, hidx]; omega
    rw [encode, ← hc, BitVec.ofNat_toNat, BitVec.setWidth_eq]
  · rintro ⟨hw, rfl⟩
    obtain ⟨hop, hrsv, hidx⟩ := Laws.fields_of_word (op_lt i) ((wellFormed_iff i).mp hw)
    exact ⟨hop, hrsv, hidx⟩

/-- Settles O1: both sides say that the word's fields are the command's. -/
theorem decodeInvertsEncode : Obligations.DecodeInvertsEncode :=
  fun _ _ => decode_ok_iff.trans spells_iff

/-- Settles O2, field by field. -/
theorem opcodeMapWords : Obligations.OpcodeMapWords := by
  refine ⟨?_, ?_, ?_, ?_, ?_, ?_, ?_, ?_, ?_, ?_, ?_, ?_⟩ <;> exact decode_ok_iff.mpr ⟨rfl, rfl, rfl⟩

/-! A word written to `CMD` (R86). -/

/-- A step whose next event writes `CMD` handles the word in the state that has accepted it. -/
theorem step_commanded {s : State} {c : Word} {rest : List Event} (h : Commanded s c rest) :
    step s = cmdWrite (accepted s rest) c :=
  step_write h.1 h.2

/-- Outside FAULTED mode a word that spells no command is ignored with `ILLEGAL` (R90). -/
theorem cmdWrite_illegal {s : State} {c : Word} (hm : s.mode ≠ .faulted) (h : ∀ i, decode c ≠ .ok i) :
    cmdWrite s c = .next (s.ignored .illegal) := by
  unfold cmdWrite
  cases hd : decode c with
  | ok i => exact absurd hd (h i)
  | error r =>
    cases hmode : s.mode with
    | faulted => exact absurd hmode hm
    | config | run => rfl

/-- In FAULTED mode a word that is not `SYS.RESET`'s is discarded (R86 step 1). -/
theorem cmdWrite_faulted {s : State} {c : Word} (hm : s.mode = .faulted) (hc : c ≠ 0x01000000#32) :
    cmdWrite s c = .next s := by
  simp [cmdWrite, hm, hc]

/-- A table word is read by the decoder (R82). -/
theorem decode_of_decodeTableWord {nbits w : Nat} {i : Instr} (h : decodeTableWord nbits w = some i) :
    decode (BitVec.ofNat 32 w) = .ok i := by
  unfold decodeTableWord at h
  split_ifs at h
  split at h
  next hd => exact hd.trans (congrArg _ (Option.some.inj h))
  next => cases h

/-- Settles O3: each illegal form denies one field of every command the word could spell. -/
theorem illegalWordsIgnored : Obligations.IllegalWordsIgnored := by
  intro s c rest hcmd hready hillegal
  have hno : ∀ i, decode c ≠ .ok i := by
    intro i hd
    obtain ⟨hop, hrsv, hidx⟩ := decode_ok_iff.mp hd
    have hmem : opField c ∈ opcodes := hop ▸ op_mem_opcodes i
    have hidx0 : opField c ∈ opcodesWithoutIdx → idxField c = 0 := fun h =>
      hidx.trans (idx_eq_zero_of_op_mem (hop ▸ h))
    rcases hillegal with hbad | hbad | ⟨hnone, hbad⟩
    · exact hbad hmem
    · exact hbad hrsv
    · exact hbad (hidx0 hnone)
  rw [step_commanded hcmd]
  exact cmdWrite_illegal hready hno

/-- A step that takes the word of command `i` from the port is `i`'s execution, outside FAULTED mode or for
`SYS.RESET`. -/
theorem step_commanded_ok {s : State} {c : Word} {rest : List Event} {i : Instr} (h : Commanded s c rest)
    (hd : decode c = .ok i) (hr : Ready s ∨ i = .sysReset) : step s = exec i (accepted s rest) := by
  rw [step_commanded h]
  exact cmdWrite_ok hd ((decodeInvertsEncode c i).mp hd).2 hr

/-- Settles O4; a table word is fetched as such a write in front of the port's events. -/
theorem stepRunsDecodedCommand : Obligations.StepRunsDecodedCommand :=
  ⟨fun _ _ _ _ => step_commanded_ok, fun s w _ hc _ hd hr =>
    step_commanded_ok (s := s.withFetchWord 32 w) ⟨hc, rfl⟩ (decode_of_decodeTableWord hd) hr⟩

/-- Settles O5: the port discards the word in the state that has accepted it. -/
theorem faultedModeDiscards : Obligations.FaultedModeDiscards := by
  intro s c rest hcmd hm hc
  rw [step_commanded hcmd]
  exact cmdWrite_faulted hm hc

end Sys2Proof.Proofs

/-! SUPPORT. The invariant of the block (10_state.md R30 to R39, 40_numerics.md R111, 60_exceptions.md R322): each
update of the state keeps it, so do reset, every command and every port event. -/

namespace Sys2Proof.Proofs

open Machine

/-! Updates the invariant does not look at. -/

theorem blockInv_withR0 {s : State} (h : BlockInv s) (w : Word) : BlockInv (s.withR0 w) := by
  apply blockInv_congr h <;> rfl

theorem blockInv_withR01 {s : State} (h : BlockInv s) (w v : Word) : BlockInv (s.withR01 w v) := by
  apply blockInv_congr h <;> rfl

theorem blockInv_raiseDiag {s : State} (h : BlockInv s) (m : BitVec 9) : BlockInv (s.raiseDiag m) := by
  apply blockInv_congr h <;> rfl

theorem blockInv_ignored {s : State} (h : BlockInv s) (b : DiagBit) : BlockInv (s.ignored b) := by
  apply blockInv_congr h <;> rfl

theorem blockInv_clearDiag {s : State} (h : BlockInv s) (w : Word) : BlockInv (s.clearDiag w) := by
  apply blockInv_congr h <;> rfl

theorem blockInv_snapshots {s : State} (h : BlockInv s) (n : Nat) : BlockInv (s.snapshots n) := by
  apply blockInv_congr h <;> rfl

theorem blockInv_setA {s : State} (h : BlockInv s) (k : Nat) (w : Word) : BlockInv (s.setA k w) := by
  apply blockInv_congr h <;> simp

theorem blockInv_withDraw {s : State} (h : BlockInv s) (d : Nat) : BlockInv { s with draw := d } := by
  apply blockInv_congr h <;> rfl

theorem blockInv_withPort {s : State} (h : BlockInv s) (p : List Event) : BlockInv { s with port := p } := by
  apply blockInv_congr h <;> rfl

theorem blockInv_withHostSaw {s : State} (h : BlockInv s) (ws : List Word) :
    BlockInv { s with hostSaw := ws } := by
  apply blockInv_congr h <;> rfl

/-! Reset. -/

/-- What R5 asks of the sizes that reset values and samples rest on. -/
theorem sizes_pos {c : Config} (h : c.ok = true) :
    0 < c.nBanks ∧ 0 < c.dlCap ∧ 0 < c.rvbDlCap ∧ 0 < c.drvDlCap ∧ 0 < c.spaHop := by
  simp only [Config.ok, Bool.and_eq_true, decide_eq_true_eq] at h; omega

theorem inUnit_fZero : InUnit fZero := by unfold InUnit; decide

/-- A silent line is in its ranges (R34). -/
theorem delayLineOk_silent {cap : Nat} (h : 0 < cap) (d g : Word) :
    DelayLineOk cap { buf := [], w := 0, delay := d, fb := g } :=
  ⟨rfl, rfl, h⟩

theorem delayLineOk_line_reset {cap : Nat} (h : 0 < cap) (c : Chan) (g : Stage) :
    DelayLineOk cap (Reverb.reset.line c g) := by
  cases c <;> cases g <;> exact delayLineOk_silent h _ _

/-- The reset state of an ST2 meets the invariant (R331). -/
theorem blockInv_resetOf {c : Config} (h : c.ok = true) : BlockInv (State.resetOf c) := by
  obtain ⟨hbanks, hdl, hrvb, hdrv, hhop⟩ := sizes_pos h
  constructor
  case cfg_ok => exact h
  case ntab_range => exact fun n hn => Or.inl (List.eq_of_mem_replicate hn)
  case osc_bank => exact fun o ho => List.eq_of_mem_replicate ho ▸ hbanks
  case osc_morph => exact fun o ho => List.eq_of_mem_replicate ho ▸ inUnit_fZero
  case osc_config => exact fun _ o ho => List.eq_of_mem_replicate ho ▸ rfl
  case dl_ok => exact fun L hL => List.eq_of_mem_replicate hL ▸ delayLineOk_silent hdl _ _
  case rvb_ok => exact fun V hV => List.eq_of_mem_replicate hV ▸ delayLineOk_line_reset hrvb
  case drv_ok => exact fun D hD => List.eq_of_mem_replicate hD ▸ delayLineOk_silent hdrv _ _
  case drv_fixed => exact fun D hD => List.eq_of_mem_replicate hD ▸ ⟨rfl, rfl⟩
  case hcnt_range => exact hhop
  all_goals simp [State.resetOf, Analyzer.reset, Memory.below]

theorem blockInv_doReset {s : State} (h : BlockInv s) : BlockInv s.doReset := by
  apply blockInv_congr (blockInv_resetOf h.cfg_ok) <;> rfl

/-! The store and the mode. -/

/-- A fault keeps the invariant: FAULTED mode asks nothing of the store or the oscillators (R303). -/
theorem blockInv_faultEntry {s : State} (h : BlockInv s) {cause : Cause} (hc : cause ≠ .none) (c : Word) :
    BlockInv (s.faultEntry cause c) :=
  { h with
    osc_config := nofun
    fault_iff := ⟨fun _ => hc, fun _ => rfl⟩
    faultInfo_zero := fun hm => absurd rfl hm
    sealed := nofun }

/-- A declared bank keeps the invariant (R134). -/
theorem blockInv_setNtab {s : State} (h : BlockInv s) (hm : s.mode = .config) (b : Nat) {n : Nat}
    (h2 : 2 ≤ n) (hmax : n ≤ s.cfg.ntMax) : BlockInv (s.setNtab b n) :=
  { h with
    ntab_length := by simp [State.setNtab, h.ntab_length]
    ntab_range := fun m hmem => by
      rcases List.mem_or_eq_of_mem_set hmem with hold | rfl
      · exact h.ntab_range m hold
      · exact Or.inr ⟨h2, hmax⟩
    sealed := fun hrun => by cases hm.symm.trans hrun }

/-- A finite value in a cell keeps the invariant (R135). -/
theorem blockInv_setCell {s : State} (h : BlockInv s) (hm : s.mode = .config) (b t i : Nat) {v : Word}
    (hv : isFinite v = true) : BlockInv (s.setCell b t i v) :=
  { h with
    store_wf := Memory.wf_write h.store_wf _ _
    store_finite := fun c hc => by
      rcases Memory.mem_write (show c ∈ Memory.write storeBlank s.wt _ _ from hc) with ⟨rfl, -⟩ | hold
      · exact hv
      · exact h.store_finite c hold
    sealed := fun hrun => by cases hm.symm.trans hrun }

/-- Sealing a complete store keeps the invariant (R136). -/
theorem blockInv_seal {s : State} (h : BlockInv s) (hm : s.mode = .config) (hs : s.storeComplete = true) :
    BlockInv { s with mode := .run } :=
  { h with
    osc_config := nofun
    fault_iff := ⟨nofun, fun hf => absurd (h.fault_iff.mpr hf) (by simp [hm])⟩
    faultInfo_zero := fun _ => h.faultInfo_zero (by simp [hm])
    sealed := fun _ => (storeComplete_congr (s := s) (t := { s with mode := .run }) rfl rfl rfl).trans hs }

/-! The instances. -/

/-- The store stays complete in RUN mode where the table counts and the cells stay (R136). -/
theorem sealed_of_store {s t : State} (h : BlockInv s) (hc : t.cfg = s.cfg) (hn : t.ntab = s.ntab)
    (hw : t.wt = s.wt) (hrun : s.mode = .run) : t.storeComplete = true :=
  (storeComplete_congr hc hn hw).trans (h.sealed hrun)

/-- A property of every element of an array holds of every element after one is replaced by an element that
has it. -/
theorem forall_mem_set {α : Type} {P : α → Prop} {xs : List α} (h : ∀ x ∈ xs, P x) (j : Nat) {y : α}
    (hy : P y) : ∀ x ∈ xs.set j y, P x := by
  intro x hx
  rcases List.mem_or_eq_of_mem_set hx with hold | rfl
  · exact h x hold
  · exact hy

/-- The element at an index in range is one of the array's. -/
theorem getD_mem {α : Type} {xs : List α} {j : Nat} (h : j < xs.length) (d : α) : xs.getD j d ∈ xs := by
  rw [List.getD_eq_getElem _ _ h]
  exact List.getElem_mem h

theorem blockInv_setEnv {s : State} (h : BlockInv s) (j : Nat) (e : Env Word) : BlockInv (s.setEnv j e) :=
  { h with
    env_length := (List.length_set ..).trans h.env_length
    sealed := sealed_of_store (s := s) h rfl rfl rfl }

theorem blockInv_setBq {s : State} (h : BlockInv s) (j : Nat) (b : Biquad Word) : BlockInv (s.setBq j b) :=
  { h with
    bq_length := (List.length_set ..).trans h.bq_length
    sealed := sealed_of_store (s := s) h rfl rfl rfl }

theorem blockInv_setOsc {s : State} (h : BlockInv s) (j : Nat) {o : Osc Word} (hm : s.mode ≠ .config)
    (hb : o.bank < s.cfg.nBanks) (hu : InUnit o.morph) : BlockInv (s.setOsc j o) :=
  { h with
    osc_length := (List.length_set ..).trans h.osc_length
    osc_bank := forall_mem_set h.osc_bank j hb
    osc_morph := forall_mem_set h.osc_morph j hu
    osc_config := fun hcfg => absurd hcfg hm
    sealed := sealed_of_store (s := s) h rfl rfl rfl }

theorem blockInv_setDl {s : State} (h : BlockInv s) (j : Nat) {L : DelayLine Word}
    (hL : DelayLineOk s.cfg.dlCap L) : BlockInv (s.setDl j L) :=
  { h with
    dl_length := (List.length_set ..).trans h.dl_length
    dl_ok := forall_mem_set h.dl_ok j hL
    sealed := sealed_of_store (s := s) h rfl rfl rfl }

theorem blockInv_setRvb {s : State} (h : BlockInv s) (j : Nat) {V : Reverb Word}
    (hV : ∀ c g, DelayLineOk s.cfg.rvbDlCap (V.line c g)) : BlockInv (s.setRvb j V) :=
  { h with
    rvb_length := (List.length_set ..).trans h.rvb_length
    rvb_ok := forall_mem_set h.rvb_ok j hV
    sealed := sealed_of_store (s := s) h rfl rfl rfl }

theorem blockInv_setDrv {s : State} (h : BlockInv s) (j : Nat) {D : Drive Word}
    (hD : DelayLineOk s.cfg.drvDlCap D.dl)
    (hfix : D.dl.delay = BitVec.ofNat 32 s.cfg.drvDelay ∧ D.dl.fb = fZero) : BlockInv (s.setDrv j D) :=
  { h with
    drv_length := (List.length_set ..).trans h.drv_length
    drv_ok := forall_mem_set h.drv_ok j hD
    drv_fixed := forall_mem_set h.drv_fixed j hfix
    sealed := sealed_of_store (s := s) h rfl rfl rfl }

theorem blockInv_setSpaIn {s : State} (h : BlockInv s) {i : Nat} (hi : i < s.cfg.spaBlkMax) (w : Word) :
    BlockInv (s.setSpaIn i w) :=
  { h with
    spaIn_wf := Memory.wf_write h.spaIn_wf i w
    spaIn_below := Memory.below_write h.spaIn_below hi w
    sealed := sealed_of_store (s := s) h rfl rfl rfl }

/-- The analyzer and its snapshot may change while their sizes stay (R37, R39). -/
theorem blockInv_withAnalyzer {s : State} (h : BlockInv s) {A : Analyzer Word} {bins : List Word}
    (hA : AnalyzerSizes { s with spa := A, bins := bins }) (seq : Word) (snaps : List Nat)
    (saw : List Snapshot) :
    BlockInv { s with spa := A, bins := bins, spaSeq := seq, midSnaps := snaps, readerSaw := saw } := by
  obtain ⟨hhist, hcnt, hbins⟩ := hA
  exact { h with
    hist_length := hhist
    hcnt_range := hcnt
    bins_length := hbins
    sealed := sealed_of_store (s := s) h rfl rfl rfl }

/-- A block of samples keeps the invariant (R253). -/
theorem blockInv_spaTakeAll {s : State} (h : BlockInv s) (xs : List Word) : BlockInv (spaTakeAll s xs) := by
  obtain ⟨-, -, -, -, hhop⟩ := sizes_pos h.cfg_ok
  have hsizes : AnalyzerSizes (spaTakeAll s xs) :=
    analyzerSizes_takeAll (one_le_spaWin h.cfg_ok) hhop (analyzerSizes_of_blockInv h)
  rw [spaTakeAll_frame] at hsizes ⊢
  exact blockInv_withAnalyzer h hsizes _ _ _

/-! Commands and steps. -/

/-- A command on a valid oscillator acts outside CONFIG mode, on one of the array's (R31, R172). -/
theorem valid_osc {s : State} (h : BlockInv s) {j : Nat} (hj : j < s.cfg.nOsc)
    (hv : (s.oscAt j).valid = true) : s.oscAt j ∈ s.osc ∧ s.mode ≠ .config := by
  have hmem : s.oscAt j ∈ s.osc := getD_mem (by rwa [h.osc_length]) _
  exact ⟨hmem, fun hm => by cases hv.symm.trans (h.osc_config hm _ hmem)⟩

/-- The own rule of a command keeps the invariant. -/
theorem blockInv_effect {i : Instr} {s t : State} (h : BlockInv s) (he : Effect i s t) : BlockInv t := by
  have hdlAt : ∀ {j}, j < s.cfg.nDl → DelayLineOk s.cfg.dlCap (s.dlAt j) := fun hj =>
    h.dl_ok _ (getD_mem (by rwa [h.dl_length]) _)
  have hrvbAt : ∀ {j}, j < s.cfg.nRvb → ∀ c g, DelayLineOk s.cfg.rvbDlCap ((s.rvbAt j).line c g) := fun hj =>
    h.rvb_ok _ (getD_mem (by rwa [h.rvb_length]) _)
  have hdrvAt : ∀ {j}, j < s.cfg.nDrv → s.drvAt j ∈ s.drv := fun hj =>
    getD_mem (by rwa [h.drv_length]) _
  obtain ⟨-, hdl, hrvb, hdrv, hhop⟩ := sizes_pos h.cfg_ok
  cases i with
  | sysNop => exact he ▸ h
  | sysReset => exact he ▸ blockInv_doReset h
  | wtsBank =>
    obtain ⟨hm, -, h2, hmax, -, rfl⟩ := he
    exact blockInv_setNtab h hm _ h2 hmax
  | wtsWr =>
    obtain ⟨hm, -, -, -, -, hv, rfl⟩ := he
    exact blockInv_setCell h hm _ _ _ hv
  | wtsSeal =>
    obtain ⟨hm, hs, rfl⟩ := he
    exact blockInv_seal h hm hs
  | envInit j | envSetp j =>
    obtain ⟨-, rfl⟩ := he
    exact blockInv_setEnv h j _
  | envProc j =>
    obtain ⟨-, rfl⟩ := he
    exact blockInv_withR01 (blockInv_setEnv h j _) _ _
  | envStat j =>
    obtain ⟨-, rfl⟩ := he
    exact blockInv_withR01 h _ _
  | oscInit j =>
    obtain ⟨hm, -, hb, o, hbank, hmorph, rfl⟩ := he
    exact blockInv_raiseDiag
      (blockInv_setOsc h j (by simp [hm]) (hbank ▸ hb) (hmorph ▸ inUnit_fZero)) _
  | oscSetf j =>
    obtain ⟨hj, hv, _, _, rfl⟩ := he
    obtain ⟨hmem, hm⟩ := valid_osc h hj hv
    refine blockInv_raiseDiag (blockInv_setOsc h j hm ?_ ?_) _
    · exact h.osc_bank (s.oscAt j) hmem
    · exact h.osc_morph (s.oscAt j) hmem
  | oscSetm j =>
    obtain ⟨hj, hv, rfl⟩ := he
    obtain ⟨hmem, hm⟩ := valid_osc h hj hv
    refine blockInv_raiseDiag (blockInv_setOsc h j hm ?_ ?_) _
    · exact h.osc_bank (s.oscAt j) hmem
    · exact inUnit_clamp01 _ _
  | oscProc j =>
    obtain ⟨-, -, _, rfl⟩ := he
    exact blockInv_withR0 h _
  | bqInit j =>
    obtain ⟨-, rfl⟩ := he
    exact blockInv_setBq h j _
  | bqSetc j =>
    obtain ⟨-, _, rfl⟩ := he
    exact blockInv_setBq h j _
  | bqLp j | bqAp j =>
    obtain ⟨-, _, rfl⟩ := he
    exact blockInv_raiseDiag (blockInv_setBq h j _) _
  | bqProc j =>
    obtain ⟨-, rfl⟩ := he
    exact blockInv_withR0 (blockInv_setBq h j _) _
  | dlInit j =>
    obtain ⟨-, rfl⟩ := he
    exact blockInv_raiseDiag (blockInv_setDl h j (delayLineOk_silent hdl _ _)) _
  | dlSet j =>
    obtain ⟨hj, rfl⟩ := he
    refine blockInv_raiseDiag (blockInv_setDl h j ?_) _
    exact hdlAt hj
  | dlProc j =>
    obtain ⟨hj, rfl⟩ := he
    exact blockInv_withR0 (blockInv_setDl h j (delayLineOk_step (hdlAt hj))) _
  | rvbInit j =>
    obtain ⟨-, rfl⟩ := he
    exact blockInv_setRvb h j (delayLineOk_line_reset hrvb)
  | rvbUpd j =>
    obtain ⟨hj, rfl⟩ := he
    exact blockInv_raiseDiag (blockInv_setRvb h j (rvbUpdate_lines (hrvbAt hj))) _
  | rvbProc j =>
    obtain ⟨hj, rfl⟩ := he
    exact blockInv_withR01 (blockInv_setRvb h j (rvbChain_lines (rvbChain_lines (hrvbAt hj)))) _ _
  | drvInit j =>
    obtain ⟨-, rfl⟩ := he
    exact blockInv_setDrv h j (delayLineOk_silent hdrv _ _) ⟨rfl, rfl⟩
  | drvProc j =>
    obtain ⟨hj, rfl⟩ := he
    have hmem := hdrvAt hj
    refine blockInv_withR0 (blockInv_setDrv h j ?_ ?_) _
    · exact delayLineOk_step (h.drv_ok _ hmem)
    · exact h.drv_fixed (s.drvAt j) hmem
  | spaInit =>
    subst he
    exact blockInv_withAnalyzer h ⟨List.length_replicate, hhop, List.length_replicate⟩ _ _ _
  | spaProc =>
    subst he
    exact blockInv_spaTakeAll (blockInv_raiseDiag h _) _

/-- A command keeps the invariant, whether discarded, ignored, faulting or carried out. -/
theorem blockInv_exec {i : Instr} {s t : State} (h : BlockInv s) (hx : exec i s = .next t) : BlockInv t := by
  rcases exec_next hx with ⟨-, -, rfl⟩ | ⟨-, b, rfl⟩ | ⟨-, cause, hf, rfl⟩ | ⟨-, he⟩
  · exact h
  · exact blockInv_ignored h b
  · refine blockInv_faultEntry h ?_ _
    rintro rfl
    exact hf
  · exact blockInv_effect h he

theorem blockInv_cmdWrite {s t : State} {c : Word} (h : BlockInv s) (hw : cmdWrite s c = .next t) :
    BlockInv t := by
  rcases cmdWrite_next hw with rfl | rfl | ⟨i, -, hx⟩
  · exact h
  · exact blockInv_ignored h _
  · exact blockInv_exec h hx

/-- Only the offsets of the `SPA_IN` window stand for input samples (R63). -/
theorem lt_of_portAt_spaIn {c : Config} {off i : Nat} (h : portAt c off = .spaIn i) : i < c.spaBlkMax := by
  rcases Nat.lt_or_ge off 0x0030 with hl | hl
  · interval_cases off <;> simp [portAt] at h
  · rw [portAt_windows hl] at h
    split_ifs at h
    simp only [PortReg.spaIn.injEq] at h
    omega

/-- A host write keeps the invariant (R61). -/
theorem blockInv_regWrite {s t : State} {off : Nat} {w : Word} (h : BlockInv s)
    (hw : regWrite s off w = .next t) : BlockInv t := by
  unfold regWrite at hw
  split at hw
  case h_1 => exact blockInv_cmdWrite (blockInv_withDraw h _) hw
  case h_2 => cases hw; exact blockInv_clearDiag h w
  case h_3 k _ => cases hw; exact blockInv_setA h k w
  case h_4 i hp => cases hw; exact blockInv_setSpaIn h (lt_of_portAt_spaIn hp) w
  case h_13 => cases hw
  all_goals
    cases hw
    exact h

theorem blockInv_performEvent {s t : State} {e : Event} (h : BlockInv s)
    (he : performEvent e s = .next t) : BlockInv t := by
  cases e with
  | read off =>
    unfold performEvent at he
    simp only at he
    split at he
    · cases he; exact blockInv_withHostSaw h _
    · cases he
  | write off w => exact blockInv_regWrite h he
  | snapshot => cases he; exact blockInv_snapshots h 1
  | powerOn => cases he; exact blockInv_doReset h

/-- Settles O56: a step is idle or performs the next event, which keeps the invariant. -/
theorem stepKeepsInvariant : Obligations.StepKeepsInvariant := by
  intro s t h hstep
  obtain ⟨-, ⟨-, rfl⟩ | ⟨e, rest, -, he⟩⟩ := step_next hstep
  · exact h
  · exact blockInv_performEvent (blockInv_withPort h rest) he

end Sys2Proof.Proofs

/-! SUPPORT. Binary32 as the rules state it (40_numerics.md R101, R105 to R107, R113): the value of a word by its
sign and magnitude, which values are representable, sums, products, quotients and remainders, the guards and
the conversions. -/

namespace Sys2Proof.Proofs

open Machine

/-! Signs, classes and values of a word. -/

theorem infBits_lt : infBits < 2 ^ 31 := by decide

@[simp] theorem isNaN_fneg (w : Word) : isNaN (fneg w) = isNaN w := by simp [isNaN]

@[simp] theorem isInf_fneg (w : Word) : isInf (fneg w) = isInf w := by simp [isInf]

@[simp] theorem isFinite_fneg (w : Word) : isFinite (fneg w) = isFinite w := by simp [isFinite]

@[simp] theorem absUnits_fneg (w : Word) : absUnits (fneg w) = absUnits w := by simp [absUnits]

@[simp] theorem units_fneg (w : Word) : units (fneg w) = -units w := by
  cases h : signBit w <;> simp [units, h]

/-- Unary minus is one bit of the word (R101). -/
theorem fneg_eq_xor (w : Word) : fneg w = w ^^^ 0x80000000#32 := by
  have hsign : signBit (w ^^^ 0x80000000#32) = !signBit w := by simp [signBit]
  have hmag : magBits (w ^^^ 0x80000000#32) = magBits w := by
    simp [magBits, BitVec.toNat_xor, Nat.xor_mod_two_pow (n := 31)]
  rw [← packSign_self (w ^^^ 0x80000000#32), hsign, hmag, fneg]

/-! An infinity is neither a NaN nor a zero, and a zero is finite (R100). -/

theorem not_nan_of_inf {w : Word} (h : isInf w = true) : isNaN w = false := by
  have hmag : magBits w = infBits := of_decide_eq_true h
  simp [isNaN, hmag]

theorem not_zero_of_inf {w : Word} (h : isInf w = true) : isZero w = false := by
  have hmag : magBits w = infBits := of_decide_eq_true h
  simp [isZero, hmag, infBits]

theorem isFinite_of_isZero {w : Word} (h : isZero w = true) : isFinite w = true := by
  simp only [isZero, decide_eq_true_eq] at h
  simp [isFinite, h, infBits]

theorem magUnits_eq_zero {b : Nat} : magUnits b = 0 ↔ b = 0 :=
  magUnits_strictMono.injective.eq_iff' (by decide : magUnits 0 = 0)

theorem absUnits_eq_zero {w : Word} : absUnits w = 0 ↔ isZero w = true := by
  rw [absUnits, magUnits_eq_zero, isZero, decide_eq_true_eq]

theorem natAbs_units (w : Word) : (units w).natAbs = absUnits w := by
  unfold units; split <;> simp

/-- The sign bit of a word that is no zero is the sign of its value. -/
theorem signBit_eq_units_neg {w : Word} (h : units w ≠ 0) : signBit w = decide (units w < 0) := by
  have habs : absUnits w ≠ 0 := by rwa [← natAbs_units, Int.natAbs_ne_zero]
  cases hs : signBit w
  · simp [units, hs]
  · simp [units, hs, Nat.pos_iff_ne_zero, habs]

/-! Rounded words. -/

theorem roundBits_lt (p q : Nat) : roundBits p q < 2 ^ 31 := Nat.lt_of_le_of_lt (roundBits_le p q) infBits_lt

theorem isInf_packSign_inf (neg : Bool) : isInf (packSign neg infBits) = true := by
  rw [isInf, magBits_packSign _ infBits_lt, decide_eq_true_eq]

theorem isFinite_packSign (neg : Bool) {b : Nat} (h : b < infBits) : isFinite (packSign neg b) = true := by
  rw [isFinite, magBits_packSign _ (h.trans infBits_lt), decide_eq_true_eq]
  exact h

theorem absUnits_packSign (neg : Bool) {b : Nat} (h : b < 2 ^ 31) : absUnits (packSign neg b) = magUnits b := by
  rw [absUnits, magBits_packSign _ h]

/-- The rounding of zero is a zero of either sign. -/
theorem rounds_zero (neg : Bool) {q : Nat} (hq : 0 < q) : Rounds 0 q (packSign neg 0) := by
  have h := rounds_packSign (p := 0) hq neg (fun h => absurd rfl h)
  rwa [Int.natAbs_zero, roundBits_zero] at h

/-! Sums (R101). -/

theorem addOr_nan {n a b : Word} (h : isNaN a = true ∨ isNaN b = true) : addOr n a b = n := by
  rw [addOr, if_pos (by simpa using h)]

theorem addOr_inf {n a b : Word} (ha : isInf a = true) (hb : isFinite b = true) : addOr n a b = a := by
  obtain ⟨hbn, hbi⟩ := isFinite_iff.mp hb
  simp [addOr, not_nan_of_inf ha, ha, hbn, hbi]

/-- Two finite words: the exact sum. -/
theorem addOr_finite {n a b : Word} (ha : isFinite a = true) (hb : isFinite b = true) :
    addOr n a b = if units a + units b = 0 then packSign (signBit a && signBit b) 0
      else packSign (decide (units a + units b < 0)) (roundBits (units a + units b).natAbs 1) := by
  obtain ⟨han, hai⟩ := isFinite_iff.mp ha
  obtain ⟨hbn, hbi⟩ := isFinite_iff.mp hb
  simp [addOr, han, hai, hbn, hbi]

theorem rounds_addOr {n a b : Word} (ha : isFinite a = true) (hb : isFinite b = true) :
    Rounds (units a + units b) 1 (addOr n a b) := by
  rw [addOr_finite ha hb]
  split
  next h0 => rw [h0]; exact rounds_zero _ Nat.one_pos
  next => exact rounds_packSign Nat.one_pos _ fun _ => rfl

/-- Settles O50: a difference is the sum with the operand of the other sign. -/
theorem sumsRoundedOnce : Obligations.SumsRoundedOnce := by
  intro d a b
  refine ⟨fun ha hb => ⟨rounds_addOr ha hb, ?_⟩, fun ha hb h0 => ?_, fun ha hb => ?_, fun ha => ?_, fun h => ?_,
    fneg_eq_xor a⟩
  · rw [sub_eq_add_neg, ← units_fneg]
    exact rounds_addOr ha (by simpa using hb)
  · rw [fadd, addOr_finite ha hb, if_pos h0]
    cases signBit a && signBit b <;> rfl
  · exact ⟨addOr_inf ha hb, addOr_inf ha (by simpa using hb)⟩
  · have hn := not_nan_of_inf ha
    simp [fsub, fadd, addOr, ha, hn]
  · rw [fadd, fsub, addOr_nan h, addOr_nan (by simpa using h)]
    simp

/-! Products and quotients (R101). -/

/-- Two finite words: the exact product. -/
theorem fmul_finite {d : Nat} {a b : Word} (ha : isFinite a = true) (hb : isFinite b = true) :
    fmul d a b = packSign (signBit a != signBit b) (roundBits (units a * units b).natAbs (2 ^ 149)) := by
  obtain ⟨han, hai⟩ := isFinite_iff.mp ha
  obtain ⟨hbn, hbi⟩ := isFinite_iff.mp hb
  simp only [fmul, han, hai, hbn, hbi, Int.natAbs_mul, natAbs_units, Bool.or_false, Bool.false_eq_true, if_false]

/-- The exact quotient as a rational with a positive denominator. -/
theorem fdiv_finite {d : Nat} {a b : Word} (ha : isFinite a = true) (hb : isFinite b = true)
    (h0 : isZero b = false) :
    fdiv d a b = packSign (signBit a != signBit b)
      (roundBits (units a * 2 ^ 149 * (if signBit b then -1 else 1)).natAbs (absUnits b)) := by
  obtain ⟨han, hai⟩ := isFinite_iff.mp ha
  obtain ⟨hbn, hbi⟩ := isFinite_iff.mp hb
  have hsign : (if signBit b then -1 else 1 : Int).natAbs = 1 := by split <;> rfl
  simp only [fdiv, han, hai, hbn, hbi, h0, Int.natAbs_mul, natAbs_units, hsign, Bool.or_false, Bool.false_eq_true,
    if_false, Nat.mul_one]
  rfl

/-- The sign bits tell the sign of a product that is no zero. -/
theorem bne_signBit_eq_mul_neg {a b : Word} (h : units a * units b ≠ 0) :
    (signBit a != signBit b) = decide (units a * units b < 0) := by
  have ha := left_ne_zero_of_mul h
  have hb := right_ne_zero_of_mul h
  rw [signBit_eq_units_neg ha, signBit_eq_units_neg hb, Bool.eq_iff_iff, bne_iff_ne, ne_eq, decide_eq_decide,
    decide_eq_true_eq, mul_neg_iff]
  omega

/-- The sign bits tell the sign of a quotient that is no zero, whose numerator carries the divisor's sign. -/
theorem bne_signBit_eq_div_neg {a b : Word} (h : units a ≠ 0) :
    (signBit a != signBit b) = decide (units a * 2 ^ 149 * (if signBit b then -1 else 1) < 0) := by
  rw [signBit_eq_units_neg h, Bool.eq_iff_iff, bne_iff_ne]
  cases signBit b <;> simp <;> omega

/-- Settles O51: a quotient by `b` is the quotient by `|b|` of a numerator that takes `b`'s sign. -/
theorem productsRoundedOnce : Obligations.ProductsRoundedOnce := by
  intro d a b
  refine ⟨fun ha hb => ?_, fun ha hb h0 => ?_, fun ha ha0 hb0 => ?_, fun ha0 hb0 => ?_, fun ha0 hb => ?_,
    fun h => ?_⟩
  · rw [fmul_finite ha hb]
    exact ⟨rounds_packSign (by decide) _ bne_signBit_eq_mul_neg, signBit_packSign _ (roundBits_lt _ _)⟩
  · rw [fdiv_finite ha hb h0]
    have hq : 0 < absUnits b := Nat.pos_of_ne_zero fun h => by simp [absUnits_eq_zero.mp h] at h0
    exact ⟨rounds_packSign hq _ fun hp => bne_signBit_eq_div_neg (left_ne_zero_of_mul (left_ne_zero_of_mul hp)),
      signBit_packSign _ (roundBits_lt _ _)⟩
  · obtain ⟨han, hai⟩ := isFinite_iff.mp ha
    obtain ⟨hbn, hbi⟩ := isFinite_iff.mp (isFinite_of_isZero hb0)
    have hdiv : fdiv d a b = packSign (signBit a != signBit b) infBits := by
      simp [fdiv, han, hai, hbn, hbi, ha0, hb0]
    rw [hdiv]
    exact ⟨isInf_packSign_inf _, signBit_packSign _ infBits_lt⟩
  · obtain ⟨han, hai⟩ := isFinite_iff.mp (isFinite_of_isZero ha0)
    obtain ⟨hbn, hbi⟩ := isFinite_iff.mp (isFinite_of_isZero hb0)
    simp [fdiv, han, hai, hbn, hbi, ha0, hb0]
  · obtain ⟨han, hai⟩ := isFinite_iff.mp (isFinite_of_isZero ha0)
    have hbn := not_nan_of_inf hb
    simp [fmul, han, hbn, ha0, hb]
  · rcases h with h | h <;> simp [fmul, fdiv, h]

/-! Representable magnitudes. -/

/-- A significand of at most 24 bits at any exponent is the value of an encoding. -/
theorem exists_magUnits {k : Nat} (hk : k ≤ 2 ^ 24) (j : Nat) :
    ∃ c, c ≤ j * 2 ^ 23 + 2 ^ 24 ∧ magUnits c = k * 2 ^ j := by
  induction j generalizing k with
  | zero => exact ⟨0 * 2 ^ 23 + k, by omega, magUnits_of_parts hk (Or.inl rfl)⟩
  | succ j ih =>
    rcases Nat.lt_or_ge k (2 ^ 23) with hlt | hge
    · obtain ⟨c, hc, hval⟩ := ih (k := 2 * k) (by omega)
      exact ⟨c, hc.trans (by gcongr; omega), by rw [hval, Nat.pow_succ]; ring⟩
    · exact ⟨(j + 1) * 2 ^ 23 + k, by omega, magUnits_of_parts hk (Or.inr hge)⟩

/-- The significand of an encoding at its exponent, as in `magUnits`. -/
theorem exists_significand (b : Nat) : ∃ k, k < 2 ^ 24 ∧ magUnits b = k * 2 ^ (b / 2 ^ 23 - 1) := by
  by_cases h : b < 2 ^ 24
  · refine ⟨b, h, ?_⟩
    rw [magUnits, if_pos h, show b / 2 ^ 23 - 1 = 0 by omega, pow_zero, Nat.mul_one]
  · exact ⟨2 ^ 23 + b % 2 ^ 23, by omega, by rw [magUnits, if_neg h]⟩

/-- The remainder of two magnitudes is a magnitude: either the first is the smaller one, or both are multiples of
the second one's unit in the last place, and so is the remainder (R105). -/
theorem exists_magUnits_mod (a : Nat) {b : Nat} (hb : b ≠ 0) :
    ∃ c, c < b ∧ magUnits c = magUnits a % magUnits b := by
  have hpos : 0 < magUnits b := Nat.pos_of_ne_zero (by rwa [ne_eq, magUnits_eq_zero])
  have hmod : magUnits a % magUnits b < magUnits b := Nat.mod_lt _ hpos
  suffices h : ∃ c, magUnits c = magUnits a % magUnits b by
    obtain ⟨c, hc⟩ := h
    exact ⟨c, magUnits_strictMono.lt_iff_lt.mp (hc ▸ hmod), hc⟩
  rcases Nat.lt_or_ge a b with hlt | hge
  · exact ⟨a, (Nat.mod_eq_of_lt (magUnits_strictMono hlt)).symm⟩
  · obtain ⟨ka, -, hka⟩ := exists_significand a
    obtain ⟨kb, hkb, hvb⟩ := exists_significand b
    have hdvd : 2 ^ (b / 2 ^ 23 - 1) ∣ magUnits a % magUnits b := by
      refine (Nat.dvd_mod_iff ?_).mpr ?_
      · exact hvb ▸ Nat.dvd_mul_left _ _
      · exact hka ▸ Nat.dvd_mul_left_of_dvd (Nat.pow_dvd_pow 2 (by omega)) _
    obtain ⟨k, hk⟩ := hdvd
    rw [Nat.mul_comm] at hk
    have hlt : k < kb := by
      rw [hk, hvb] at hmod
      exact Nat.lt_of_mul_lt_mul_right hmod
    obtain ⟨c, -, hc⟩ := exists_magUnits (k := k) (by omega) (b / 2 ^ 23 - 1)
    exact ⟨c, hc.trans hk.symm⟩

/-- A finite encoding is the rounding of its value. -/
theorem roundBits_magUnits {b : Nat} (hb : b < infBits) : roundBits (magUnits b) 1 = b := by
  simpa using roundBits_exact hb Nat.one_pos

/-! The remainder (R105). -/

/-- Two finite words, the second no zero: the remainder of the magnitudes with the first one's sign. -/
theorem frem_finite {d : Nat} {a b : Word} (ha : isFinite a = true) (hb : isFinite b = true)
    (h0 : isZero b = false) :
    frem d a b = packSign (signBit a) (roundBits (absUnits a % absUnits b) 1) := by
  obtain ⟨han, hai⟩ := isFinite_iff.mp ha
  obtain ⟨hbn, hbi⟩ := isFinite_iff.mp hb
  simp [frem, han, hai, hbn, hbi, h0]

/-- The truncated remainder of two values has the first one's sign and the remainder of the magnitudes. -/
theorem tmod_units (a b : Word) :
    Int.tmod (units a) (units b) =
      if signBit a then -((absUnits a % absUnits b : Nat) : Int) else (absUnits a % absUnits b : Nat) := by
  cases sa : signBit a <;> cases sb : signBit b <;>
    simp [units, sa, sb, Int.neg_tmod, Int.tmod_neg, Int.tmod_eq_emod_of_nonneg]

/-- Settles O52: the remainder of the magnitudes is a magnitude (`exists_magUnits_mod`), so rounding keeps it. -/
theorem remainderExact : Obligations.RemainderExact := by
  intro d a b
  refine ⟨fun ha hb h0 => ?_, fun h => ?_, fun ha hb => ?_⟩
  · have hb0 : magBits b ≠ 0 := by simpa [isZero] using h0
    obtain ⟨c, hcb, hc⟩ := exists_magUnits_mod (magBits a) hb0
    have hcinf : c < infBits := hcb.trans (of_decide_eq_true hb)
    have hc31 := hcinf.trans infBits_lt
    have hrem : frem d a b = packSign (signBit a) c := by
      rw [frem_finite ha hb h0, absUnits, absUnits, ← hc, roundBits_magUnits hcinf]
    have habs : absUnits (frem d a b) = absUnits a % absUnits b := by
      rw [hrem, absUnits_packSign _ hc31]; exact hc
    have hsign : signBit (frem d a b) = signBit a := by rw [hrem, signBit_packSign _ hc31]
    refine ⟨hrem ▸ isFinite_packSign _ hcinf, ?_, hsign, ?_⟩
    · rw [tmod_units, units, hsign, habs]
    · rw [habs]
      exact Nat.mod_lt _ (Nat.pos_of_ne_zero fun h => by simp [absUnits_eq_zero.mp h] at h0)
  · rcases h with h | h | h | h <;> simp [frem, h]
  · obtain ⟨han, hai⟩ := isFinite_iff.mp ha
    simp [frem, han, hai, not_nan_of_inf hb, not_zero_of_inf hb, hb]

/-! The guards (R113). -/

/-- Nothing at or below zero, and no NaN, is at or above a value above 0. -/
theorem fle_of_pos_eq_false {least f : Word} (hpos : flt fZero least = true)
    (h : isNaN f = true ∨ isZero f = true ∨ signBit f = true) : fle least f = false := by
  obtain ⟨-, -, hlt⟩ := flt_iff.mp hpos
  rw [Bool.eq_false_iff]
  intro hle
  obtain ⟨-, hf, hle⟩ := fle_iff.mp hle
  have hkey : orderKey f ≤ 0 := by
    rcases h with h | h | h
    · simp [h] at hf
    · have h0 : magBits f = 0 := of_decide_eq_true h
      simp [orderKey, h0]
    · simp [orderKey, h]
  have hzero : orderKey fZero = 0 := by decide
  omega

theorem fle_refl {w : Word} (h : isNaN w = false) : fle w w = true := fle_iff.mpr ⟨h, h, le_refl _⟩

theorem flt_of_flt_of_fle {a b c : Word} (hab : flt a b = true) (hbc : fle b c = true) : flt a c = true := by
  obtain ⟨ha, -, hlt⟩ := flt_iff.mp hab
  obtain ⟨-, hc, hle⟩ := fle_iff.mp hbc
  exact flt_iff.mpr ⟨ha, hc, hlt.trans_le hle⟩

theorem fle_of_flt {a b : Word} (h : flt a b = true) : fle a b = true := by
  obtain ⟨ha, hb, hlt⟩ := flt_iff.mp h
  exact fle_iff.mpr ⟨ha, hb, hlt.le⟩

theorem fle_eq_false_of_flt {a b : Word} (h : flt a b = true) : fle b a = false := by
  obtain ⟨-, -, hlt⟩ := flt_iff.mp h
  rw [Bool.eq_false_iff]
  intro hle
  obtain ⟨-, -, hle⟩ := fle_iff.mp hle
  omega

/-- +infinity is at or above every finite value (R102). -/
theorem fle_inf {w : Word} (h : isFinite w = true) : fle w 0x7F800000#32 = true := by
  obtain ⟨hn, -⟩ := isFinite_iff.mp h
  have hlt : magBits w < infBits := of_decide_eq_true h
  have hinf : isNaN 0x7F800000#32 = false ∧ orderKey 0x7F800000#32 = infBits := by decide
  refine fle_iff.mpr ⟨hn, hinf.1, hinf.2 ▸ ?_⟩
  unfold orderKey
  split <;> omega

/-- What `guard_freq` answers is at or above the least value. -/
theorem fle_guardFreq (d : Nat) {least : Word} (h : isNaN least = false) (f : Word) :
    fle least (guardFreq (b32 d) least f).1 = true := by
  unfold guardFreq
  split
  · assumption
  · exact fle_refl h

theorem clamp01_inside {d : Nat} {p : Word} (h0 : fle fZero p = true) (h1 : fle p fOne = true) :
    clamp01 (b32 d) p = (p, 0x000#9) := by
  simp [clamp01, b32, h0, h1]

theorem clamp01_above {d : Nat} {p : Word} (h : flt fOne p = true) : clamp01 (b32 d) p = (fOne, 0x080#9) := by
  have h0 : fle fZero p = true := fle_of_flt (flt_of_flt_of_fle (by decide : flt fZero fOne = true) (fle_of_flt h))
  simp [clamp01, b32, h0, fle_eq_false_of_flt h, DiagBit.mask]

theorem clamp01_below {d : Nat} {p : Word} (h : fle fZero p = false) :
    clamp01 (b32 d) p = (fZero, 0x080#9) := by
  simp [clamp01, b32, h, DiagBit.mask]

/-- Settles O53, guard by guard, from the order of the words. -/
theorem guardsReplace : Obligations.GuardsReplace := by
  intro d least f p hleast
  obtain ⟨hfin, hpos⟩ : isFinite least = true ∧ flt fZero least = true := by
    simpa [positiveFinite] using hleast
  obtain ⟨hnan, -⟩ := isFinite_iff.mp hfin
  have hguard := fle_guardFreq d hnan f
  refine ⟨fun h => ?_, fun h => ?_, fle_of_pos_eq_false hpos, fle_inf hfin, hguard,
    flt_of_flt_of_fle hpos hguard, clamp01_inside, clamp01_above, fun h => ?_, ?_, inUnit_clamp01 d p⟩
  · simp [guardFreq, guardQ, b32, h]
  · simp [guardFreq, guardQ, b32, h, DiagBit.mask]
  · rcases h with h | h
    · exact clamp01_below (fle_nan_right _ h)
    · exact clamp01_below (fle_eq_false_of_flt h)
  · exact clamp01_inside (by decide) (by decide)

/-! The conversions (R106, R107). -/

/-- A finite word's value, truncated and limited (R106). -/
theorem f2i_finite {w : Word} (h : isFinite w = true) :
    f2i w = max (-2 ^ 31) (min (Int.tdiv (units w) (2 ^ 149)) (2 ^ 31 - 1)) := by
  obtain ⟨hn, hi⟩ := isFinite_iff.mp h
  have hdiv : Int.tdiv (absUnits w : Int) (2 ^ 149) = (absUnits w / 2 ^ 149 : Nat) := by
    rw [Int.ofNat_tdiv]; rfl
  unfold f2i units
  simp only [hn, hi, Bool.false_eq_true, if_false]
  cases signBit w
  · simp only [Bool.false_eq_true, if_false, hdiv]
    omega
  · simp only [if_true, Int.neg_tdiv, hdiv]
    omega

/-- `i2f` rounds the integer once (R107). -/
theorem i2f_rounds (n : Int) : Rounds (n * 2 ^ 149) 1 (i2f n) := by
  have hneg : n * 2 ^ 149 < 0 ↔ n < 0 := by omega
  have habs : (n * 2 ^ 149).natAbs = n.natAbs * 2 ^ 149 := by rw [Int.natAbs_mul]; rfl
  have h := rounds_packSign (p := n * 2 ^ 149) Nat.one_pos (decide (n < 0)) fun _ => by simp only [hneg]
  rwa [habs] at h

/-- An integer of at most 24 bits is a binary32 value (R107). -/
theorem i2f_exact {n : Int} (h : n.natAbs ≤ 2 ^ 24) : units (i2f n) = n * 2 ^ 149 := by
  obtain ⟨c, hc, hval⟩ := exists_magUnits h 149
  have hinf : infBits = 255 * 2 ^ 23 := rfl
  have hcinf : c < infBits := by omega
  have hi2f : i2f n = packSign (decide (n < 0)) c := by rw [i2f, ← hval, roundBits_magUnits hcinf]
  have hc31 := hcinf.trans infBits_lt
  rw [units, hi2f, signBit_packSign _ hc31, absUnits_packSign _ hc31, hval]
  by_cases hn : n < 0
  · rw [if_pos (by simpa using hn)]; omega
  · rw [if_neg (by simpa using hn)]; omega

/-- Settles O54: `f2i` by the class of the word; `i2f` as the rounding of an integer, which up to 2^24 is exact. -/
theorem conversionsRoundRight : Obligations.ConversionsRoundRight := by
  refine ⟨fun w => ⟨fun h => ?_, fun h => ?_, f2i_finite⟩, fun n => ⟨i2f_rounds n, i2f_exact⟩⟩
  · simp [f2i, h]
  · simp [f2i, not_nan_of_inf h, h]

end Sys2Proof.Proofs

/-! SUPPORT. The system and store commands (41_sys_wts.md R130, R131, R134 to R136) run forward: what each answers
when its tests pass, and what a count or a cell reads as afterwards; and what RUN mode says of the store
(10_state.md R30). -/

namespace Sys2Proof.Proofs

open Machine

/-! The table counts and the cells of the store (R30). -/

theorem ntabAt_setNtab {s : State} {b : Nat} (hb : b < s.ntab.length) (n b' : Nat) :
    (s.setNtab b n).ntabAt b' = if b' = b then n else s.ntabAt b' := by
  by_cases h : b' = b
  · subst h; simp [State.ntabAt, hb]
  · simp [State.ntabAt, h, Ne.symm h]

/-- A listed element stands in the list under its key. -/
theorem mem_of_find {V : Type} {m : Memory V} {k : Nat} {v : V} (h : Memory.find m k = some v) :
    (k, v) ∈ m := by
  induction m with
  | nil => cases h
  | cons c rest ih =>
    simp only [Memory.find] at h
    split at h
    next hk => cases h; subst hk; exact List.mem_cons_self
    next => exact List.mem_cons_of_mem _ (ih h)

/-- A cell that holds a value is listed in the store: an unlisted one is `unwritten`. -/
theorem mem_wt_of_cell {s : State} {b t i : Nat} {v : Word} (h : s.cell b t i = some v) :
    (s.cfg.cellKey b t i, v) ∈ s.wt := by
  unfold State.cell Memory.read at h
  split at h
  next hf => cases h; exact mem_of_find hf
  next => cases h

theorem cell_setCell_same {s : State} (h : Memory.wf storeBlank s.wt = true) (b t i : Nat) (v : Word) :
    (s.setCell b t i v).cell b t i = some v := by
  rw [cell_setCell h, if_pos rfl]

/-- A cell other than the written one keeps its contents, both tables below `NT_MAX`. -/
theorem cell_setCell_other {s : State} (h : Memory.wf storeBlank s.wt = true) {b t i b' t' i' : Nat}
    (ht : t < s.cfg.ntMax) (hi : i < s.cfg.tableLen) (ht' : t' < s.cfg.ntMax) (hi' : i' < s.cfg.tableLen)
    (hne : (b', t', i') ≠ (b, t, i)) (v : Word) : (s.setCell b t i v).cell b' t' i' = s.cell b' t' i' := by
  rw [cell_setCell h, if_neg]
  intro hkey
  obtain ⟨rfl, rfl, rfl⟩ := cellKey_inj ht' ht hi' hi hkey
  exact hne rfl

/-- Under the invariant a declared bank has 2 to `NT_MAX` tables. -/
theorem ntabAt_range {s : State} (h : BlockInv s) {b : Nat} (hb : b < s.cfg.nBanks) :
    s.ntabAt b = 0 ∨ (2 ≤ s.ntabAt b ∧ s.ntabAt b ≤ s.cfg.ntMax) :=
  h.ntab_range _ (getD_mem (h.ntab_length ▸ hb) 0)

/-! The store commands in CONFIG mode (R134 to R136). -/

/-- `WTS.BANK` when none of its tests fails. -/
theorem exec_wtsBank_ok {s : State} (hm : s.mode = .config) (hb : s.a0.toNat < s.cfg.nBanks)
    (h2 : 2 ≤ s.a1.toNat) (hmax : s.a1.toNat ≤ s.cfg.ntMax) (h0 : s.ntabAt s.a0.toNat = 0) :
    exec .wtsBank s = .next (s.setNtab s.a0.toNat s.a1.toNat) := by
  refine (onOpenStore_config hm _).trans ?_
  simp only [State.opA, asU]
  rw [if_neg (by omega), if_neg (by omega), if_neg (by omega)]

/-- `WTS.WR` when none of its tests fails. -/
theorem exec_wtsWr_ok {s : State} (hm : s.mode = .config) (hb : s.a0.toNat < s.cfg.nBanks)
    (ht : s.a1.toNat < s.ntabAt s.a0.toNat) (hi : s.a2.toNat < s.cfg.tableLen)
    (hv : isFinite s.a3 = true) :
    exec .wtsWr s = .next (s.setCell s.a0.toNat s.a1.toNat s.a2.toNat s.a3) := by
  refine (onOpenStore_config hm _).trans ?_
  simp only [State.opA, asU, asF]
  rw [if_neg (by omega), if_neg (by omega), if_neg (by omega), if_neg (by simp [hv])]

theorem exec_wtsSeal_config {s : State} (hm : s.mode = .config) :
    exec .wtsSeal s =
      if s.storeComplete then .next { s with mode := .run }
      else .next (s.faultEntry .wtsIncomplete (encode .wtsSeal)) :=
  onOpenStore_config hm _

/-- Settles O23: the count written is the only field that moves, and it is read back. -/
theorem bankDeclared : Obligations.BankDeclared := by
  intro s hm hlen hb h2 hmax h0
  exact ⟨_, exec_wtsBank_ok hm hb h2 hmax h0, rfl, by simp [hlen], ntabAt_setNtab (hlen ▸ hb) _⟩

/-- Settles O24: one write to the store's memory; cells of other indexes have other keys. -/
theorem cellWritten : Obligations.CellWritten := by
  intro s hm hwf hb _ ht hi hv
  refine ⟨_, exec_wtsWr_ok hm hb ht hi hv, rfl, Memory.wf_write hwf _ _, fun k hk => ?_,
    cell_setCell_same hwf _ _ _ _, fun hmax b t i ht' hi' hne => ?_⟩
  · rw [State.setCell_wt, Memory.read_write hwf, if_neg hk]
  · exact cell_setCell_other hwf (ht.trans_le hmax) hi ht' hi' hne _

/-- Settles O25: the seal's test is the completeness of the store (`storeComplete_iff`), so the two cases are its
two answers. -/
theorem sealDecides : Obligations.SealDecides := by
  intro s hm
  rw [exec_wtsSeal_config hm]
  constructor
  · intro hall
    rw [if_pos]
    refine (storeComplete_iff s).mpr fun b hb => ?_
    obtain ⟨h0, hcells⟩ := hall b hb
    exact ⟨h0, fun t ht i hi => Option.isSome_iff_ne_none.mpr (hcells t i ht hi)⟩
  · rintro ⟨b, hb, hbad⟩
    rw [if_neg]
    · rfl
    intro hcomplete
    obtain ⟨h0, hcells⟩ := (storeComplete_iff s).mp hcomplete b hb
    rcases hbad with hnone | ⟨t, i, ht, hi, hnone⟩
    · exact h0 hnone
    · exact Option.isSome_iff_ne_none.mp (hcells t ht i hi) hnone

/-- Settles O26: the store is complete in RUN mode, its counts are in range and its listed values finite. -/
theorem sealedStoreIsWhole : Obligations.SealedStoreIsWhole := by
  intro s hinv hrun b hb
  obtain ⟨h0, hcells⟩ := (storeComplete_iff s).mp (hinv.sealed hrun) b hb
  obtain ⟨h2, hmax⟩ := (ntabAt_range hinv hb).resolve_left h0
  refine ⟨h2, hmax, fun t i ht hi => ?_⟩
  obtain ⟨v, hv⟩ := Option.isSome_iff_exists.mp (hcells t ht i hi)
  exact ⟨v, hv, hinv.store_finite _ (mem_wt_of_cell hv)⟩

/-! The system commands (R130, R131). -/

/-- Settles O19: discarded in FAULTED mode, without effect in the others. -/
theorem nopChangesNothing : Obligations.NopChangesNothing := by
  refine ⟨by decide, fun s => ?_⟩
  by_cases hm : s.mode = .faulted
  · exact unlessFaulted_faulted hm _
  · exact unlessFaulted_ready hm _

/-- Settles O20: as a command, as a word written to `CMD` and as power-on, each is `doReset` of the state that
has taken the event. -/
theorem resetRestoresEverything : Obligations.ResetRestoresEverything := by
  refine fun s => ⟨rfl, fun rest hcmd => ?_, fun rest hc hp => step_event hc hp⟩
  obtain ⟨-, hdecode, -⟩ := opcodeMapWords
  exact step_commanded_ok hcmd hdecode (Or.inr rfl)

end Sys2Proof.Proofs

/-! SUPPORT. The envelope generator (42_env.md): what one evaluation answers in each branch, what the commands of
the unit answer when their tests pass, the `finished` flag under every command, and the attack of R159 in the
exact reading and in binary32. -/

namespace Sys2Proof.Proofs

open Machine

/-! One evaluation, branch by branch (R153). -/

section Branches

variable {F : Type} {N : Arith F} {E : Env F} {t toff : F}

theorem envStep_ramp (hoff : N.lt N.zero toff = true)
    (hramp : (N.lt N.zero E.release && N.lt (N.sub t toff) E.release) = true) :
    envStep N E t toff = (N.sub E.rsa (N.mul (N.sub t toff) (N.div E.rsa E.release)), E) := by
  rw [envStep, if_pos hoff]
  exact if_pos hramp

theorem envStep_ended (hoff : N.lt N.zero toff = true)
    (hramp : (N.lt N.zero E.release && N.lt (N.sub t toff) E.release) = false) :
    envStep N E t toff = (N.zero, { E with finished := true }) := by
  rw [envStep, if_pos hoff]
  exact if_neg (Bool.eq_false_iff.mp hramp)

theorem envStep_held (hoff : N.lt N.zero toff = false) :
    envStep N E t toff = (heldAmplitude N E t, { E with rsa := heldAmplitude N E t }) := by
  rw [envStep, if_neg (Bool.eq_false_iff.mp hoff)]

/-- The flag is set where a released ramp has run out, and nowhere cleared (R156). -/
theorem envStep_finished :
    (envStep N E t toff).2.finished =
      (E.finished || (N.lt N.zero toff && !(N.lt N.zero E.release && N.lt (N.sub t toff) E.release))) := by
  cases hoff : N.lt N.zero toff
  · simp [envStep_held hoff]
  · cases hramp : N.lt N.zero E.release && N.lt (N.sub t toff) E.release
    · simp [envStep_ended hoff hramp]
    · simp [envStep_ramp hoff hramp]

theorem heldAmplitude_attack (ha : N.lt N.zero E.attack = true) (ht : N.lt t E.attack = true) :
    heldAmplitude N E t = N.div t E.attack := by
  simp [heldAmplitude, ha, ht]

theorem heldAmplitude_decay (ht : N.lt t E.attack = false) (hd : N.lt N.zero E.decay = true)
    (hend : N.lt t (N.add E.attack E.decay) = true) :
    heldAmplitude N E t =
      N.sub N.one (N.div (N.mul (N.sub t E.attack) (N.sub N.one E.sustain)) E.decay) := by
  simp [heldAmplitude, ht, hd, hend]

theorem heldAmplitude_sustain (ht : N.lt t E.attack = false) (hd : N.lt N.zero E.decay = false) :
    heldAmplitude N E t = E.sustain := by
  simp [heldAmplitude, ht, hd]

end Branches

/-! The commands of the unit: their words and what they answer, run forward. -/

/-- The word of a command, its opcode byte shifted into place (R82). -/
theorem encode_of_op {i : Instr} {base : Nat} (h : i.op * 2 ^ 24 = base) :
    encode i = BitVec.ofNat 32 (base + i.idx) := by
  rw [encode, h]

theorem exec_envSetp_ready {s : State} (h : s.mode ≠ .faulted) {j : Nat} (hj : j < s.cfg.nEnv) :
    exec (.envSetp j) s = .next (s.setEnv j
      { s.envAt j with attack := s.a0, decay := s.a1, sustain := s.a2, release := s.a3 }) :=
  onIndex_ready h hj _

theorem exec_envStat_ready {s : State} (h : s.mode ≠ .faulted) {j : Nat} (hj : j < s.cfg.nEnv) :
    exec (.envStat j) s = .next (s.withR01 (s.envAt j).rsa (bitsB (s.envAt j).finished)) :=
  onIndex_ready h hj _

theorem exec_envProc_ready {s : State} (h : s.mode ≠ .faulted) {j : Nat} (hj : j < s.cfg.nEnv) {amp : Word}
    {E : Env Word} (hstep : envStep (b32 s.draw) (s.envAt j) s.a0 s.a1 = (amp, E)) :
    exec (.envProc j) s = .next ((s.setEnv j E).withR01 amp (bitsB E.finished)) := by
  have hexec : exec (.envProc j) s =
      .next ((s.setEnv j (envStep (b32 s.draw) (s.envAt j) s.a0 s.a1).2).withR01
        (envStep (b32 s.draw) (s.envAt j) s.a0 s.a1).1
        (bitsB (envStep (b32 s.draw) (s.envAt j) s.a0 s.a1).2.finished)) := onIndex_ready h hj _
  rw [hexec, hstep]

/-- Settles O27: both commands pass their tests and do what their rules say. -/
theorem envelopeParameters : Obligations.EnvelopeParameters :=
  fun _ _ hs hj => ⟨encode_of_op (by norm_num [Instr.op]), encode_of_op (by norm_num [Instr.op]),
    exec_envSetp_ready hs hj, exec_envStat_ready hs hj⟩

/-- Settles O28: the evaluation of the branch that `toff` and the ramp test select, stored and returned. -/
theorem envelopeAmplitude : Obligations.EnvelopeAmplitude := by
  intro s j hs hj
  refine ⟨encode_of_op (by norm_num [Instr.op]), fun hoff hramp => ?_, fun hoff hramp => ?_, fun hoff => ?_⟩
  · exact exec_envProc_ready hs hj (envStep_ramp hoff hramp)
  · exact exec_envProc_ready hs hj (envStep_ended hoff hramp)
  · exact exec_envProc_ready hs hj (envStep_held hoff)

/-! The `finished` flag (R156). -/

theorem envAt_setEnv_same {s : State} {j : Nat} (hj : j < s.env.length) (x : Env Word) :
    (s.setEnv j x).envAt j = x := by
  simp [State.envAt, hj]

theorem envAt_setEnv_other {s : State} {j k : Nat} (h : k ≠ j) (x : Env Word) :
    (s.setEnv k x).envAt j = s.envAt j := by
  simp [State.envAt, List.getD_eq_getElem?_getD, h]

/-- A set flag is that of a listed envelope: an index outside the list reads as the reset value (log 14). -/
theorem lt_length_of_finished {s : State} {j : Nat} (h : (s.envAt j).finished = true) : j < s.env.length := by
  by_contra hj
  have hreset : s.envAt j = Env.reset := List.getD_eq_default _ _ (by omega)
  rw [hreset] at h
  cases h

/-- Writing one envelope keeps every other's set flag, and its own if the new value has it set. -/
theorem finished_setEnv {s : State} {j k : Nat} {x : Env Word} (hx : k = j → x.finished = true)
    (h : (s.envAt j).finished = true) : ((s.setEnv k x).envAt j).finished = true := by
  by_cases hk : k = j
  · subst hk
    rw [envAt_setEnv_same (lt_length_of_finished h)]
    exact hx rfl
  · rwa [envAt_setEnv_other hk]

/-- The own rule of a command other than `ENV.INIT` of that envelope and reset keeps a set flag: an `ENV` command
rewrites one envelope and keeps its flag, the others leave the unit alone. -/
theorem effect_keeps_finished {i : Instr} {s t : State} {j : Nat} (hinit : i ≠ .envInit j) (hi : i ≠ .sysReset)
    (he : Effect i s t) (h : (s.envAt j).finished = true) : (t.envAt j).finished = true := by
  have other : i.op / 16 ≠ 2 → (t.envAt j).finished = true := fun hunit => by
    rwa [State.envAt, (effect_otherUnitsKept hi he).env hunit]
  cases i with
  | envInit k =>
    obtain ⟨-, rfl⟩ := he
    exact finished_setEnv (fun hk => absurd (congrArg Instr.envInit hk) hinit) h
  | envSetp k =>
    obtain ⟨-, rfl⟩ := he
    exact finished_setEnv (fun hk => hk ▸ h) h
  | envProc k =>
    obtain ⟨-, rfl⟩ := he
    exact finished_setEnv (fun hk => by simp [envStep_finished, hk, h]) h
  | envStat k =>
    obtain ⟨-, rfl⟩ := he
    exact h
  | _ => exact other (by norm_num [Instr.op])

/-- Settles O29: the flag after one evaluation, and that no other case of a command clears it. -/
theorem finishedFlag : Obligations.FinishedFlag := by
  refine ⟨fun s t j hs hj hlen h => ?_, fun i s t j h hinit hi hf => ?_⟩
  · rw [exec_envProc_ready hs hj rfl] at h
    cases h
    have hafter : ∀ w v x, ((s.setEnv j x).withR01 w v).envAt j = x := fun _ _ x => envAt_setEnv_same hlen x
    rw [hafter]
    exact ⟨envStep_finished, rfl⟩
  · rcases exec_next h with ⟨-, -, rfl⟩ | ⟨-, _, rfl⟩ | ⟨-, _, -, rfl⟩ | ⟨-, he⟩
    · exact hf
    · exact hf
    · exact hf
    · exact effect_keeps_finished hinit hi he hf

/-! The attack in the exact reading (R159). -/

theorem envStep_attack_exact {E : Env ℝ} {t : ℝ} (ha : 0 < E.attack) (ht : t < E.attack) :
    (envStep exactReading E t 0).1 = t / E.attack := by
  rw [envStep_held (by simp [exactReading]), heldAmplitude_attack]
  · rfl
  · exact (exactReading_lt _ _).mpr ha
  · exact (exactReading_lt _ _).mpr ht

theorem envStep_decayStart_exact {E : Env ℝ} (hd : 0 < E.decay) : (envStep exactReading E E.attack 0).1 = 1 := by
  rw [envStep_held (by simp [exactReading]), heldAmplitude_decay]
  · simp [exactReading]
  · simp [exactReading]
  · exact (exactReading_lt _ _).mpr hd
  · exact (exactReading_lt _ _).mpr (lt_add_of_pos_right _ hd)

theorem envStep_sustain_exact {E : Env ℝ} (hd : E.decay = 0) :
    (envStep exactReading E E.attack 0).1 = E.sustain := by
  rw [envStep_held (by simp [exactReading]), heldAmplitude_sustain]
  · simp [exactReading]
  · simp [exactReading, hd]

/-! Words at or above zero (R102). -/

theorem orderKey_fZero : orderKey fZero = 0 := by decide

theorem orderKey_eq_magBits {w : Word} (h : 0 ≤ orderKey w) : orderKey w = magBits w := by
  unfold orderKey at h ⊢
  split
  · rw [if_pos ‹_›] at h; omega
  · rfl

theorem signBit_of_orderKey_pos {w : Word} (h : 0 < orderKey w) : signBit w = false := by
  cases hs : signBit w
  · rfl
  · simp only [orderKey, hs, if_true] at h
    omega

/-- Below a finite word at or above zero every word at or above zero is finite. -/
theorem isFinite_of_orderKey_le {t a : Word} (ht : 0 ≤ orderKey t) (hta : orderKey t ≤ orderKey a)
    (ha : isFinite a = true) : isFinite t = true := by
  have hlt : magBits a < infBits := of_decide_eq_true ha
  have hkey := orderKey_eq_magBits ht
  have hkey' := orderKey_eq_magBits (ht.trans hta)
  exact decide_eq_true (by omega)

theorem absUnits_le_of_orderKey_le {t u : Word} (ht : 0 ≤ orderKey t) (htu : orderKey t ≤ orderKey u) :
    absUnits t ≤ absUnits u := by
  have hkey := orderKey_eq_magBits ht
  have hkey' := orderKey_eq_magBits (ht.trans htu)
  exact magUnits_strictMono.monotone (by omega)

theorem absUnits_pos {w : Word} (h : 0 < orderKey w) : 0 < absUnits w := by
  have hkey := orderKey_eq_magBits h.le
  refine Nat.pos_of_ne_zero fun h0 => ?_
  rw [absUnits, magUnits_eq_zero] at h0
  omega

theorem isZero_of_orderKey_pos {w : Word} (h : 0 < orderKey w) : isZero w = false := by
  rw [Bool.eq_false_iff, ne_eq, ← absUnits_eq_zero]
  exact (absUnits_pos h).ne'

theorem flt_of_fle_of_flt {a b c : Word} (hab : fle a b = true) (hbc : flt b c = true) : flt a c = true := by
  obtain ⟨ha, -, hle⟩ := fle_iff.mp hab
  obtain ⟨-, hc, hlt⟩ := flt_iff.mp hbc
  exact flt_iff.mpr ⟨ha, hc, hle.trans_lt hlt⟩

/-! Rounding keeps the order (R101). -/

/-- A greater rational is not rounded to a lower encoding: of two roundings in the wrong order each would be
nearest to its own rational, which leaves only equal rationals. -/
theorem roundBits_mono {p p' q : Nat} (hq : 0 < q) (h : p ≤ p') : roundBits p q ≤ roundBits p' q := by
  by_contra hlt
  rw [not_le] at hlt
  have hinf' : roundBits p' q < infBits := hlt.trans_le (roundBits_le p q)
  have hinf : roundBits p q < infBits := by
    refine lt_of_le_of_ne (roundBits_le p q) fun heq => hinf'.ne ?_
    exact (roundBits_inf p' hq).mpr (((roundBits_inf p hq).mp heq).trans h)
  have hval := magUnits_strictMono hlt
  have hmul : magUnits (roundBits p' q) * q < magUnits (roundBits p q) * q := Nat.mul_lt_mul_of_pos_right hval hq
  have near := roundBits_nearest p hq hinf (roundBits p' q) hval.ne
  have near' := roundBits_nearest p' hq hinf' (roundBits p q) hval.ne'
  have heq : p = p' := by omega
  exact hlt.ne (by rw [heq])

/-! The attack in binary32 (R159). -/

/-- A finite word at or above zero by one above zero: the rounded quotient of the magnitudes. -/
theorem orderKey_fdiv {d : Nat} {t a : Word} (ht : isFinite t = true) (ha : isFinite a = true)
    (ht0 : 0 ≤ orderKey t) (ha0 : 0 < orderKey a) :
    orderKey (fdiv d t a) = roundBits (absUnits t * 2 ^ 149) (absUnits a) := by
  have hdiv : fdiv d t a = packSign (signBit t) (roundBits (absUnits t * 2 ^ 149) (absUnits a)) := by
    rw [fdiv_finite ht ha (isZero_of_orderKey_pos ha0)]
    simp only [signBit_of_orderKey_pos ha0, Bool.bne_false, Bool.false_eq_true, if_false, Int.mul_one, Int.natAbs_mul,
      natAbs_units]
    rfl
  have hmag : signBit t = true → absUnits t = 0 := fun hs => by
    simp only [orderKey, hs, if_true] at ht0
    rw [absUnits, magUnits_eq_zero]
    omega
  rw [hdiv, orderKey, signBit_packSign _ (roundBits_lt _ _), magBits_packSign _ (roundBits_lt _ _)]
  split
  next hs => rw [hmag hs, Nat.zero_mul, roundBits_zero]; rfl
  next => rfl

/-- Held inside an attack whose duration is above zero, the amplitude is one quotient (R153). -/
theorem envStep_attack_b32 {d : Nat} {E : Env Word} {t : Word} (ha : flt fZero E.attack = true)
    (ht : flt t E.attack = true) : (envStep (b32 d) E t fZero).1 = fdiv d t E.attack := by
  rw [envStep_held (by simp [b32, flt]), heldAmplitude_attack]
  · rfl
  · exact ha
  · exact ht

/-- A quotient by a value above zero rounds the numerator's exact value over the divisor's. -/
theorem rounds_fdiv {d : Nat} {t a : Word} (ht : isFinite t = true) (ha : isFinite a = true)
    (ha0 : 0 < orderKey a) : Rounds (units t * 2 ^ 149) (absUnits a) (fdiv d t a) := by
  obtain ⟨-, hquot, -⟩ := productsRoundedOnce d t a
  obtain ⟨hrounds, -⟩ := hquot ht ha (isZero_of_orderKey_pos ha0)
  simpa [signBit_of_orderKey_pos ha0] using hrounds

/-- A quotient of words at or above zero by one above zero rises with its numerator. -/
theorem fle_fdiv {d : Nat} {t u a : Word} (ha : isFinite a = true) (ha0 : 0 < orderKey a)
    (ht0 : 0 ≤ orderKey t) (htu : orderKey t ≤ orderKey u) (hu : isFinite u = true) :
    fle (fdiv d t a) (fdiv d u a) = true := by
  have ht := isFinite_of_orderKey_le ht0 htu hu
  obtain ⟨hnt, -⟩ := rounds_fdiv (d := d) ht ha ha0
  obtain ⟨hnu, -⟩ := rounds_fdiv (d := d) hu ha ha0
  refine fle_iff.mpr ⟨hnt, hnu, ?_⟩
  rw [orderKey_fdiv ht ha ht0 ha0, orderKey_fdiv hu ha (ht0.trans htu) ha0, Int.ofNat_le]
  exact roundBits_mono (absUnits_pos ha0) (Nat.mul_le_mul_right _ (absUnits_le_of_orderKey_le ht0 htu))

/-- Settles O30: in both readings the attack is one quotient by `attack`, and a quotient by a positive value rises
with its numerator, rounded or not. -/
theorem attackIsLinear : Obligations.AttackIsLinear := by
  refine ⟨fun E ha => ⟨fun t _ ht => envStep_attack_exact ha ht, fun t u _ htu hu => ?_,
    envStep_decayStart_exact, envStep_sustain_exact⟩, fun d E t u hfin ha ht0 htu hu => ?_⟩
  · rw [envStep_attack_exact ha (htu.trans_lt hu), envStep_attack_exact ha hu]
    gcongr
  · rw [envStep_attack_b32 ha (flt_of_fle_of_flt htu hu), envStep_attack_b32 ha hu]
    obtain ⟨-, -, ha0⟩ := flt_iff.mp ha
    obtain ⟨-, -, ht0⟩ := fle_iff.mp ht0
    obtain ⟨-, -, htu⟩ := fle_iff.mp htu
    obtain ⟨-, -, hu⟩ := flt_iff.mp hu
    rw [orderKey_fZero] at ha0 ht0
    have hufin := isFinite_of_orderKey_le (ht0.trans htu) hu.le hfin
    exact ⟨rounds_fdiv (isFinite_of_orderKey_le ht0 htu hufin) hfin ha0, fle_fdiv hfin ha0 ht0 htu hufin⟩

end Sys2Proof.Proofs

/-! SUPPORT. The wavetable oscillator (43_osc.md): what the guards answer as one value and one mask, what the
commands of the unit answer when their tests pass, the two cells `OSC.PROC` reads, and the crossfade at an exact
morph threshold, where it is the cell of a single table (R181). -/

namespace Sys2Proof.Proofs

open Machine

/-! The guards in one equation each (R113). -/

theorem guardFreq_b32 (d : Nat) (least f : Word) :
    guardFreq (b32 d) least f =
      (if fle least f then f else least, if fle least f then 0x000#9 else 0x010#9) := by
  cases h : fle least f <;> simp [guardFreq, b32, h, DiagBit.mask]

theorem clamp01_b32 (d : Nat) (p : Word) :
    clamp01 (b32 d) p =
      (if fle fZero p && fle p fOne then p else if fle fZero p then fOne else fZero,
        if fle fZero p && fle p fOne then 0x000#9 else 0x080#9) := by
  cases h0 : fle fZero p
  · simp [clamp01_below h0]
  · cases h1 : fle p fOne <;> simp [clamp01, b32, h0, h1, DiagBit.mask]

/-! The commands that set an oscillator up, run forward (R173 to R175). -/

/-- `OSC.INIT` when neither of its tests raises a fault. -/
theorem exec_oscInit_ok {s : State} (hm : s.mode = .run) {j : Nat} (hj : j < s.cfg.nOsc)
    (hb : s.a1.toNat < s.cfg.nBanks) :
    exec (.oscInit j) s = .next ((s.setOsc j
      (setFreq (b32 s.draw) s.cfg.fs (i2f s.cfg.tableLen)
        { valid := true, bank := s.a1.toNat, tps := fdiv s.draw fOne s.cfg.fs,
          spc := fZero, scale := fZero, morph := fZero }
        (guardFreq (b32 s.draw) s.cfg.fMin s.a0).1)).raiseDiag (guardFreq (b32 s.draw) s.cfg.fMin s.a0).2) := by
  refine (onIndex_ready (by simp [hm]) hj _).trans ?_
  rw [if_neg (by simp [hm])]
  exact if_neg (Nat.not_le.mpr hb)

theorem exec_oscSetf_ready {s : State} (h : s.mode ≠ .faulted) {j : Nat} (hj : j < s.cfg.nOsc)
    (hv : (s.oscAt j).valid = true) :
    exec (.oscSetf j) s = .next ((s.setOsc j
      (setFreq (b32 s.draw) s.cfg.fs (i2f s.cfg.tableLen) (s.oscAt j)
        (guardFreq (b32 s.draw) s.cfg.fMin s.a0).1)).raiseDiag (guardFreq (b32 s.draw) s.cfg.fMin s.a0).2) :=
  onValidOsc_ready h hj hv _

theorem exec_oscSetm_ready {s : State} (h : s.mode ≠ .faulted) {j : Nat} (hj : j < s.cfg.nOsc)
    (hv : (s.oscAt j).valid = true) :
    exec (.oscSetm j) s = .next ((s.setOsc j
      { s.oscAt j with morph := (clamp01 (b32 s.draw) s.a0).1 }).raiseDiag (clamp01 (b32 s.draw) s.a0).2) :=
  onValidOsc_ready h hj hv _

/-- Settles O31: both tests of `OSC.INIT` pass, and the guard is one value and one mask. -/
theorem oscillatorConstructed : Obligations.OscillatorConstructed := by
  intro s j hm hj hb
  rw [exec_oscInit_ok hm hj hb, guardFreq_b32]
  rfl

/-- Settles O32: both commands pass their tests, and each guard is one value and one mask. -/
theorem oscillatorSettings : Obligations.OscillatorSettings := by
  intro s j hs hj hv
  refine ⟨encode_of_op (by norm_num [Instr.op]), encode_of_op (by norm_num [Instr.op]), ?_, ?_⟩
  · rw [exec_oscSetf_ready hs hj hv, guardFreq_b32]
    rfl
  · rw [exec_oscSetm_ready hs hj hv, clamp01_b32]
    rfl

/-! The indexes and the cells of `OSC.PROC` (R176 to R179). -/

/-- The two cuts of R178 and R179 bring an integer into the range from 0 to `hi`. -/
theorem cut_eq_max_min (i hi : Int) :
    (if (if hi < i then hi else i) < 0 then 0 else if hi < i then hi else i) = max 0 (min i hi) := by
  split_ifs <;> omega

theorem tableIndex_b32 (d len : Nat) (O : Osc Word) (t : Word) :
    tableIndex (b32 d) len O t =
      (max 0 (min (f2i (fmul d (oscPhase (b32 d) O t) O.scale)) ((len : Int) - 1))).toNat :=
  congrArg Int.toNat (cut_eq_max_min _ _)

theorem morphPair_b32 {d n : Nat} {morph seg : Word} (h : fmul d morph (i2f ((n : Int) - 1)) = seg) :
    morphPair (b32 d) n morph =
      ((max 0 (min (f2i seg) ((n : Int) - 2))).toNat,
        fsub d seg (i2f (max 0 (min (f2i seg) ((n : Int) - 2))))) := by
  rw [← cut_eq_max_min, ← h]
  rfl

/-- `OSC.PROC` on a valid oscillator whose two cells hold values. -/
theorem exec_oscProc_ready {s : State} (h : s.mode ≠ .faulted) {j : Nat} (hj : j < s.cfg.nOsc)
    (hv : (s.oscAt j).valid = true) {k : Nat} {f a b : Word}
    (hpair : morphPair (b32 s.draw) (s.ntabAt (s.oscAt j).bank) (s.oscAt j).morph = (k, f))
    (ha : s.cell (s.oscAt j).bank k (tableIndex (b32 s.draw) s.cfg.tableLen (s.oscAt j) s.a0) = some a)
    (hb : s.cell (s.oscAt j).bank (k + 1) (tableIndex (b32 s.draw) s.cfg.tableLen (s.oscAt j) s.a0) = some b) :
    exec (.oscProc j) s = .next (s.withR0 (crossfade (b32 s.draw) a b f)) := by
  refine (onValidOsc_ready h hj hv _).trans ?_
  simp only [hpair, State.opA, asF, ha, hb]

/-- In RUN mode the bank of an oscillator has 2 to 65536 tables, whose cells at the table index hold finite
values (R30, R135). -/
theorem bank_of_oscillator {s : State} (hinv : BlockInv s) (hm : s.mode = .run) {j : Nat} (hj : j < s.cfg.nOsc)
    (hv : (s.oscAt j).valid = true) :
    2 ≤ s.ntabAt (s.oscAt j).bank ∧ s.ntabAt (s.oscAt j).bank ≤ 65536 ∧
      ∀ k, k < s.ntabAt (s.oscAt j).bank →
        ∃ v, s.cell (s.oscAt j).bank k (tableIndex (b32 s.draw) s.cfg.tableLen (s.oscAt j) s.a0) = some v ∧
          isFinite v = true := by
  obtain ⟨hmem, -⟩ := valid_osc hinv hj hv
  obtain ⟨h2, hmax, hcells⟩ := sealedStoreIsWhole s hinv hm _ (hinv.osc_bank _ hmem)
  have hsizes : 1 ≤ s.cfg.tableLen ∧ s.cfg.ntMax ≤ 65536 := by
    have hok := hinv.cfg_ok
    simp only [Config.ok, Bool.and_eq_true, decide_eq_true_eq] at hok
    omega
  exact ⟨h2, by omega, fun k hk => hcells k _ hk (tableIndex_lt _ _ _ hsizes.1)⟩

/-- Settles O33: both tables of the morph pair and the table index are in range (`morphPair_lt`,
`bank_of_oscillator`), so both cells hold values. -/
theorem oscillatorSample : Obligations.OscillatorSample := by
  intro s j hinv hm hj hv
  refine ⟨encode_of_op (by norm_num [Instr.op]), ?_⟩
  obtain ⟨h2, -, hcells⟩ := bank_of_oscillator hinv hm hj hv
  have hpair := morphPair_b32 (d := s.draw) (n := s.ntabAt (s.oscAt j).bank) (morph := (s.oscAt j).morph) rfl
  have hlt := morphPair_lt (b32 s.draw) (s.oscAt j).morph h2
  rw [hpair] at hlt
  obtain ⟨a, ha, -⟩ := hcells _ (Nat.lt_of_succ_lt hlt)
  obtain ⟨b, hb, -⟩ := hcells _ hlt
  have hexec := exec_oscProc_ready (by simp [hm]) hj hv hpair ha hb
  rw [tableIndex_b32] at ha hb
  exact ⟨a, b, ha, hb, hexec⟩

/-! Exact sums and products (R101). -/

/-- A zero is the word of its sign. -/
theorem eq_of_isZero {w : Word} (h : isZero w = true) : w = if signBit w then fNegZero else fZero := by
  have hmag : magBits w = 0 := of_decide_eq_true h
  rw [← packSign_self w, hmag, signBit_packSign _ (by decide)]
  cases signBit w <;> rfl

theorem isZero_packSign_zero (neg : Bool) : isZero (packSign neg 0) = true := by
  cases neg <;> decide

theorem units_eq_zero {w : Word} : units w = 0 ↔ isZero w = true := by
  rw [← absUnits_eq_zero, ← natAbs_units, Int.natAbs_eq_zero]

/-- A sum whose exact value is that of a finite word other than zero is that word. -/
theorem addOr_exact {n a b c : Word} (ha : isFinite a = true) (hb : isFinite b = true)
    (hc : isFinite c = true) (h0 : isZero c = false) (hsum : units a + units b = units c) :
    addOr n a b = c := by
  have hne : units c ≠ 0 := fun h => by simp [units_eq_zero.mp h] at h0
  rw [addOr_finite ha hb, hsum, if_neg hne, natAbs_units, ← signBit_eq_units_neg hne, absUnits,
    roundBits_magUnits (of_decide_eq_true hc), packSign_self]

/-- A sum whose exact value is zero is a zero. -/
theorem isZero_addOr {n a b : Word} (ha : isFinite a = true) (hb : isFinite b = true)
    (hsum : units a + units b = 0) : isZero (addOr n a b) = true := by
  rw [addOr_finite ha hb, if_pos hsum]
  exact isZero_packSign_zero _

/-- `r` is the word `c`, but that −0.0 may have become +0.0 (R181). -/
def SameButNegZero (c r : Word) : Prop := r = c ∨ (c = fNegZero ∧ r = fZero)

/-- Adding a zero changes at most the sign of a zero. -/
theorem addOr_zero {n a z : Word} (ha : isFinite a = true) (hz : isZero z = true) :
    SameButNegZero a (addOr n a z) := by
  have hzf := isFinite_of_isZero hz
  have hz0 := units_eq_zero.mpr hz
  cases h0 : isZero a
  · exact Or.inl (addOr_exact ha hzf ha h0 (by rw [hz0, add_zero]))
  · have ha0 := units_eq_zero.mpr h0
    rw [addOr_finite ha hzf, if_pos (by rw [ha0, hz0, add_zero]), eq_of_isZero h0]
    cases signBit a <;> cases signBit z
    · exact Or.inl rfl
    · exact Or.inl rfl
    · exact Or.inr ⟨rfl, rfl⟩
    · exact Or.inl rfl

theorem addOr_comm {n a b : Word} (ha : isFinite a = true) (hb : isFinite b = true) :
    addOr n a b = addOr n b a := by
  rw [addOr_finite ha hb, addOr_finite hb ha, Int.add_comm, Bool.and_comm]

theorem isFinite_fOne : isFinite fOne = true := by decide

theorem isZero_fOne : isZero fOne = false := by decide

theorem units_fOne : units fOne = 2 ^ 149 := by decide

theorem fmul_one {d : Nat} {a : Word} (ha : isFinite a = true) : fmul d a fOne = a := by
  have hmul : (units a * units fOne).natAbs = magUnits (magBits a) * 2 ^ 149 := by
    rw [Int.natAbs_mul, natAbs_units, units_fOne]; rfl
  rw [fmul_finite ha isFinite_fOne, hmul, roundBits_exact (of_decide_eq_true ha) (by decide)]
  simpa [show signBit fOne = false by decide] using packSign_self a

theorem isZero_fmul {d : Nat} {a z : Word} (ha : isFinite a = true) (hz : isZero z = true) :
    isZero (fmul d a z) = true := by
  rw [fmul_finite ha (isFinite_of_isZero hz), units_eq_zero.mpr hz, mul_zero, Int.natAbs_zero, roundBits_zero]
  exact isZero_packSign_zero _

/-! The crossfade at the ends of a segment (R180). -/

theorem crossfade_b32 (d : Nat) (a b f : Word) :
    crossfade (b32 d) a b f = fadd d (fmul d a (fsub d fOne f)) (fmul d b f) := by
  simp only [crossfade, b32]

/-- At position 0 of a segment the crossfade is the lower table's cell. -/
theorem crossfade_zero {d : Nat} {a b f : Word} (ha : isFinite a = true) (hb : isFinite b = true)
    (hf : isZero f = true) : SameButNegZero a (crossfade (b32 d) a b f) := by
  have hone : fsub d fOne f = fOne :=
    addOr_exact isFinite_fOne (by simpa using isFinite_of_isZero hf) isFinite_fOne isZero_fOne
      (by rw [units_fneg, units_eq_zero.mpr hf, neg_zero, add_zero])
  rw [crossfade_b32, hone, fmul_one ha, fadd]
  exact addOr_zero ha (isZero_fmul hb hf)

/-- At position 1 of a segment the crossfade is the upper table's cell. -/
theorem crossfade_one {d : Nat} {a b : Word} (ha : isFinite a = true) (hb : isFinite b = true) :
    SameButNegZero b (crossfade (b32 d) a b fOne) := by
  have hzero : isZero (fsub d fOne fOne) = true :=
    isZero_addOr isFinite_fOne (by decide) (by rw [units_fneg, add_neg_cancel])
  have hz := isZero_fmul (d := d) ha hzero
  rw [crossfade_b32, fmul_one hb, fadd, addOr_comm (isFinite_of_isZero hz) hb]
  exact addOr_zero hb hz

/-! The morph pair at an exact threshold (R179). -/

theorem isFinite_i2f {n : Int} (h : n.natAbs ≤ 2 ^ 24) : isFinite (i2f n) = true := by
  obtain ⟨hnan, hinf, -⟩ := i2f_rounds n
  refine isFinite_iff.mpr ⟨hnan, Bool.eq_false_iff.mpr fun hi => ?_⟩
  have hbound := hinf.mp hi
  rw [Int.natAbs_mul, show (2 ^ 149 : Int).natAbs = 2 ^ 149 from rfl] at hbound
  omega

/-- A finite word whose value is an integer below 2^31 converts to it (R106). -/
theorem f2i_of_units {w : Word} {m : Nat} (h : isFinite w = true) (hw : units w = (m : Int) * 2 ^ 149)
    (hm : m < 2 ^ 31) : f2i w = m := by
  rw [f2i_finite h, hw, Int.mul_tdiv_cancel _ (by decide)]
  omega

/-- Where the rounded product is the integer `m`, the pair is `m` at position 0 or, at the last table, the table
below it at position 1. -/
theorem morphPair_threshold {d n m : Nat} {morph seg : Word} (h2 : 2 ≤ n) (hn : n ≤ 65536) (hm : m ≤ n - 1)
    (h : fmul d morph (i2f ((n : Int) - 1)) = seg) (hfin : isFinite seg = true)
    (hseg : units seg = (m : Int) * 2 ^ 149) :
    (m + 1 < n ∧ ∃ f, isZero f = true ∧ morphPair (b32 d) n morph = (m, f)) ∨
    (m = n - 2 + 1 ∧ morphPair (b32 d) n morph = (n - 2, fOne)) := by
  rw [morphPair_b32 h, f2i_of_units hfin hseg (by omega)]
  rcases Nat.lt_or_ge (m + 1) n with hlt | hge
  · have hk : max 0 (min (m : Int) ((n : Int) - 2)) = m := by omega
    rw [hk]
    refine Or.inl ⟨hlt, _, isZero_addOr hfin ?_ ?_, rfl⟩
    · simpa using isFinite_i2f (n := m) (by omega)
    · rw [units_fneg, i2f_exact (by omega), hseg, add_neg_cancel]
  · have hk : max 0 (min (m : Int) ((n : Int) - 2)) = (n - 2 : Nat) := by omega
    rw [hk]
    refine Or.inr ⟨by omega, Prod.ext rfl (addOr_exact hfin ?_ isFinite_fOne isZero_fOne ?_)⟩
    · simpa using isFinite_i2f (n := (n - 2 : Nat)) (by omega)
    · rw [units_fneg, i2f_exact (by omega), hseg, units_fOne]
      omega

/-- Settles O35: at position 0 of a segment the lower cell remains, at position 1 the upper one. -/
theorem morphBoundary : Obligations.MorphBoundary := by
  intro s j m hinv hm hj hv O N seg hmN hfin hseg
  obtain ⟨h2, hmax, hcells⟩ := bank_of_oscillator hinv hm hj hv
  have hready : s.mode ≠ .faulted := by simp [hm]
  rcases morphPair_threshold h2 hmax hmN rfl hfin hseg with ⟨hlt, f, hf, hpair⟩ | ⟨rfl, hpair⟩
  · obtain ⟨a, ha, hafin⟩ := hcells m (by omega)
    obtain ⟨b, hb, hbfin⟩ := hcells (m + 1) hlt
    exact ⟨a, _, ha, exec_oscProc_ready hready hj hv hpair ha hb, crossfade_zero hafin hbfin hf⟩
  · obtain ⟨a, ha, hafin⟩ := hcells (s.ntabAt (s.oscAt j).bank - 2) (by omega)
    obtain ⟨b, hb, hbfin⟩ := hcells (s.ntabAt (s.oscAt j).bank - 2 + 1) (by omega)
    exact ⟨b, _, hb, exec_oscProc_ready hready hj hv hpair ha hb, crossfade_one hafin hbfin⟩

end Sys2Proof.Proofs

/-! SUPPORT. The biquad filter (44_biquad.md): what the commands of the unit answer when their tests pass, the
host feeding inputs to a command one after the other (R94), and the identity filter of `BQ.INIT`, which returns
what it is given. -/

namespace Sys2Proof.Proofs

open Machine

/-! The commands of the unit, run forward (R191 to R196). -/

theorem guardQ_b32 (d : Nat) (least q : Word) :
    guardQ (b32 d) least q =
      (if fle least q then q else least, if fle least q then 0x000#9 else 0x020#9) := by
  cases h : fle least q <;> simp [guardQ, b32, h, DiagBit.mask]

section Ready

variable {s : State} (h : s.mode ≠ .faulted) {j : Nat} (hj : j < s.cfg.nBq)

include h hj

theorem exec_bqInit_ready : exec (.bqInit j) s = .next (s.setBq j Biquad.reset) :=
  onIndex_ready h hj _

theorem exec_bqSetc_ready :
    exec (.bqSetc j) s = .next (s.setBq j (bqSet (s.bqAt j)
      { b0 := s.a0, b1 := s.a1, b2 := s.a2, a1 := s.a3, a2 := s.a4 })) :=
  onIndex_ready h hj _

/-- `BQ.LP` on the quantities and the mask of its design. -/
theorem exec_bqLp_ready {p : Prelude Word} {mask : BitVec 9}
    (hp : designPrelude (b32 s.draw) s.cfg.fs s.cfg.fMin s.cfg.qMin s.a0 s.a1 = (p, mask)) :
    exec (.bqLp j) s =
      .next ((s.setBq j (bqSet (s.bqAt j) (bqLowpass (b32 s.draw) p))).raiseDiag mask) := by
  refine (onIndex_ready h hj _).trans ?_
  simp only [asF, State.opA, hp]

/-- `BQ.AP` on the quantities and the mask of its design. -/
theorem exec_bqAp_ready {p : Prelude Word} {mask : BitVec 9}
    (hp : designPrelude (b32 s.draw) s.cfg.fs s.cfg.fMin s.cfg.qMin s.a0 s.a1 = (p, mask)) :
    exec (.bqAp j) s =
      .next ((s.setBq j (bqSet (s.bqAt j) (bqAllpass (b32 s.draw) p))).raiseDiag mask) := by
  refine (onIndex_ready h hj _).trans ?_
  simp only [asF, State.opA, hp]

theorem exec_bqProc_ready {y : Word} {B : Biquad Word} (hstep : bqStep (b32 s.draw) (s.bqAt j) s.a0 = (y, B)) :
    exec (.bqProc j) s = .next ((s.setBq j B).withR0 y) := by
  refine (onIndex_ready h hj _).trans ?_
  simp only [asF, State.opA, hstep]

end Ready

/-- Settles O36: each command passes its tests, and each guard of the design is one value and one mask. -/
theorem biquadCoefficients : Obligations.BiquadCoefficients := by
  intro s j hs hj d f q w0 cw alpha aa bits
  have hprelude : designPrelude (b32 d) s.cfg.fs s.cfg.fMin s.cfg.qMin s.a0 s.a1 =
      (⟨cw, alpha, aa⟩, (if fle s.cfg.fMin s.a0 then 0x000#9 else 0x010#9) |||
        (if fle s.cfg.qMin s.a1 then 0x000#9 else 0x020#9)) := by
    simp only [designPrelude, guardFreq_b32, guardQ_b32]
    rfl
  refine ⟨encode_of_op (by norm_num [Instr.op]), encode_of_op (by norm_num [Instr.op]),
    encode_of_op (by norm_num [Instr.op]), ?_, ?_, ?_⟩
  · exact exec_bqSetc_ready hs hj
  · rw [exec_bqLp_ready hs hj hprelude]
    rfl
  · rw [exec_bqAp_ready hs hj hprelude]
    rfl

/-- Settles O37: the command passes its tests and takes one step of the filter. -/
theorem biquadSample : Obligations.BiquadSample :=
  fun _ _ hs hj => ⟨encode_of_op (by norm_num [Instr.op]), exec_bqProc_ready hs hj rfl⟩

/-! Inputs fed to a command one after the other (R94). -/

/-- The state in which a command runs on a fed input: the input in `A0`, the command word accepted. -/
def fedInput (s : State) (x : Word) : State := { s.setA 0 x with draw := s.draw + 1 }

theorem feed_nil (i : Instr) (s : State) : feed i [] s = some ([], s) := rfl

/-- The first input: written to `A0`, run, its results noted. -/
theorem feed_cons {i : Instr} {x : Word} {s t : State} (hi : i.wellFormed = true) (hm : s.mode ≠ .faulted)
    (hexec : exec i (fedInput s x) = .next t) (rest : List Word) :
    feed i (x :: rest) s = (feed i rest t).map fun r => ((t.r0, t.r1) :: r.1, r.2) := by
  have hoperand : performEvent (.write 0x0008 x) s = .next (s.setA 0 x) := rfl
  have hcommand : performEvent (.write 0x0000 (encode i)) (s.setA 0 x) = .next t :=
    (cmdWrite_ok (s := fedInput s x) (decode_ok_iff.mpr (spells_iff.mpr ⟨hi, rfl⟩)) rfl (Or.inl hm)).trans hexec
  simp only [feed, hoperand, hcommand]
  cases feed i rest t <;> rfl

/-- A command that keeps `P` and answers each input `x` by results related to it answers a whole list of inputs
so, and `P` holds at the end. -/
theorem feed_keeps {i : Instr} {P : State → Prop} {R : Word → Word × Word → Prop} {xs : List Word}
    (hi : i.wellFormed = true) (hready : ∀ s, P s → s.mode ≠ .faulted)
    (hstep : ∀ s, ∀ x ∈ xs, P s → ∃ t, exec i (fedInput s x) = .next t ∧ P t ∧ R x (t.r0, t.r1))
    {s : State} (hs : P s) : ∃ ys t, feed i xs s = some (ys, t) ∧ List.Forall₂ R xs ys ∧ P t := by
  induction xs generalizing s with
  | nil => exact ⟨[], s, feed_nil i s, .nil, hs⟩
  | cons x rest ih =>
    obtain ⟨t, hexec, ht, hR⟩ := hstep s x List.mem_cons_self hs
    obtain ⟨ys, v, hfeed, hys, hv⟩ := ih (fun s x hx => hstep s x (List.mem_cons_of_mem _ hx)) ht
    exact ⟨(t.r0, t.r1) :: ys, v, by rw [feed_cons hi (hready s hs) hexec, hfeed]; rfl, .cons hR hys, hv⟩

/-! The identity filter (R191). -/

theorem fmul_comm {d : Nat} {a b : Word} (ha : isFinite a = true) (hb : isFinite b = true) :
    fmul d a b = fmul d b a := by
  rw [fmul_finite ha hb, fmul_finite hb ha, Int.mul_comm, bne_comm]

/-- A finite word less itself is +0.0, whatever its sign. -/
theorem fsub_self {d : Nat} {a : Word} (ha : isFinite a = true) : fsub d a a = fZero := by
  rw [fsub, addOr_finite ha (by simpa using ha), if_pos (by rw [units_fneg, add_neg_cancel]), signBit_fneg,
    Bool.and_not_self]
  rfl

theorem isFinite_fZero : isFinite fZero = true := by decide

/-- An empty tap added to a finite word but −0.0 leaves it as it is. -/
theorem fadd_fZero {d : Nat} {x : Word} (hx : isFinite x = true) (h0 : x ≠ fNegZero) : fadd d x fZero = x := by
  rcases addOr_zero hx (show isZero fZero = true by decide) with h | ⟨h, -⟩
  · exact h
  · exact absurd h h0

/-- R196 on words. -/
theorem bqStep_b32 {d : Nat} {B : Biquad Word} {x y : Word} (hy : fadd d (fmul d B.coefs.b0 x) B.s1 = y) :
    bqStep (b32 d) B x = (y, { B with
      s1 := fadd d (fsub d (fmul d B.coefs.b1 x) (fmul d B.coefs.a1 y)) B.s2
      s2 := fsub d (fmul d B.coefs.b2 x) (fmul d B.coefs.a2 y) }) := by
  subst hy
  rfl

/-- The output is `1.0 x + 0`, and both taps stay +0.0: each is a difference of two equal zeros. -/
theorem bqStep_reset {d : Nat} {x : Word} (hx : isFinite x = true) (h0 : x ≠ fNegZero) :
    bqStep (b32 d) Biquad.reset x = (x, Biquad.reset) := by
  have hy : fadd d (fmul d fOne x) fZero = x := by
    rw [fmul_comm isFinite_fOne hx, fmul_one hx, fadd_fZero hx h0]
  have hzero : isZero (fmul d fZero x) = true := by
    rw [fmul_comm isFinite_fZero hx]
    exact isZero_fmul hx (by decide)
  have htap2 : fsub d (fmul d fZero x) (fmul d fZero x) = fZero := fsub_self (isFinite_of_isZero hzero)
  have htap1 : fadd d (fsub d (fmul d fZero x) (fmul d fZero x)) fZero = fZero := by
    rw [htap2, fadd_fZero isFinite_fZero (by decide)]
  exact (bqStep_b32 (B := Biquad.reset) hy).trans
    (congrArg (Prod.mk x) (congrArg₂ (Biquad.mk Coefs.identity) htap1 htap2))

/-- Filter `j` is there and is as `BQ.INIT` leaves it. -/
structure IdentityAt (j : Nat) (s : State) : Prop where
  ready : s.mode ≠ .faulted
  inRange : j < s.cfg.nBq
  listed : j < s.bq.length
  atReset : s.bqAt j = Biquad.reset

theorem bqAt_setBq_same {s : State} {j : Nat} (hj : j < s.bq.length) (B : Biquad Word) :
    (s.setBq j B).bqAt j = B := by
  simp [State.bqAt, hj]

/-- `BQ.PROC` on an identity filter answers its input and leaves an identity filter. -/
theorem IdentityAt.exec_bqProc {j : Nat} {s : State} (h : IdentityAt j s) {x : Word} (hx : isFinite x = true)
    (h0 : x ≠ fNegZero) : ∃ t, exec (.bqProc j) (fedInput s x) = .next t ∧ IdentityAt j t ∧ t.r0 = x := by
  have hstep : bqStep (b32 (s.draw + 1)) (s.bqAt j) x = (x, Biquad.reset) := by
    rw [h.atReset, bqStep_reset hx h0]
  exact ⟨((fedInput s x).setBq j Biquad.reset).withR0 x, exec_bqProc_ready (s := fedInput s x) h.ready h.inRange hstep,
    ⟨h.ready, h.inRange, by simpa [fedInput] using h.listed, bqAt_setBq_same h.listed _⟩, rfl⟩

theorem wellFormed_bqProc {c : Config} (hc : c.ok = true) {j : Nat} (hj : j < c.nBq) :
    (Instr.bqProc j).wellFormed = true := by
  refine (wellFormed_iff _).mpr (show j < 65536 from ?_)
  simp only [Config.ok, Bool.and_eq_true, decide_eq_true_eq] at hc
  omega

/-- Settles O38: `BQ.INIT` makes an identity filter, and every input of the stream keeps it one. -/
theorem identityPassesThrough : Obligations.IdentityPassesThrough := by
  intro s j xs hc hs hj hl hxs
  have hinit : IdentityAt j (s.setBq j Biquad.reset) := ⟨hs, hj, by simpa using hl, bqAt_setBq_same hl _⟩
  obtain ⟨ys, t, hfeed, hys, ht⟩ := feed_keeps (R := fun x y => y.1 = x) (wellFormed_bqProc hc hj)
    (fun _ h => h.ready) (fun _ x hx h => h.exec_bqProc (hxs x hx).1 (hxs x hx).2) hinit
  have hout : ys.map (·.1) = xs := List.forall₂_eq_eq_eq ▸ List.forall₂_map_left_iff.mpr hys.flip
  exact ⟨_, exec_bqInit_ready hs hj, ys, t, hfeed, hout, ht.atReset.trans hinit.atReset.symm⟩

end Sys2Proof.Proofs

/-! SUPPORT. The delay line (45_delay_reverb.md section 1): what the commands of the unit answer when their tests
pass, and the ring buffer as the record of the last inputs, from which a line without feedback answers its input
`delay` steps later (R217). -/

namespace Sys2Proof.Proofs

open Machine

/-! The commands of the unit, run forward (R213 to R216). -/

section Ready

variable {s : State} (h : s.mode ≠ .faulted) {j : Nat} (hj : j < s.cfg.nDl)

include h hj

theorem exec_dlInit_ready :
    exec (.dlInit j) s = .next ((s.setDl j { buf := [], w := 0, delay := s.a0, fb := s.a1 }).raiseDiag
      (DiagBit.delayWrapped.when (delayOutside s.cfg.dlCap s.a0))) :=
  onIndex_ready h hj _

theorem exec_dlSet_ready :
    exec (.dlSet j) s = .next ((s.setDl j { s.dlAt j with delay := s.a0, fb := s.a1 }).raiseDiag
      (DiagBit.delayWrapped.when (delayOutside s.cfg.dlCap s.a0))) :=
  onIndex_ready h hj _

/-- `DL.PROC` on the answer of its step. -/
theorem exec_dlProc_ready {r : Word × DelayLine Word}
    (hstep : dlStep (b32 s.draw) s.cfg.dlCap (s.dlAt j) s.a0 = r) :
    exec (.dlProc j) s = .next ((s.setDl j r.2).withR0 r.1) := by
  subst hstep
  exact onIndex_ready h hj _

end Ready

theorem dlAt_setDl_same {s : State} {j : Nat} (hj : j < s.dl.length) (L : DelayLine Word) :
    (s.setDl j L).dlAt j = L := by
  simp [State.dlAt, hj]

theorem when_delayOutside (cap : Nat) (w : Word) :
    DiagBit.delayWrapped.when (delayOutside cap w) =
      if w.toInt < 0 ∨ (cap : Int) ≤ w.toInt then 0x040#9 else 0x000#9 := by
  by_cases h : w.toInt < 0 ∨ (cap : Int) ≤ w.toInt
  · rw [if_pos h, delayOutside, asS, decide_eq_true h]
    rfl
  · rw [if_neg h, delayOutside, asS, decide_eq_false h]
    rfl

/-- Settles O39: both commands pass their tests and write the settings, the mask being one bit. -/
theorem delaySettings : Obligations.DelaySettings := by
  intro s j hs hj bits
  refine ⟨encode_of_op (by norm_num [Instr.op]), encode_of_op (by norm_num [Instr.op]), ?_, ?_⟩
  · rw [exec_dlInit_ready hs hj, when_delayOutside]
    rfl
  · rw [exec_dlSet_ready hs hj, when_delayOutside]
    rfl

/-- Settles O40: the command takes one step of the line, and a step is said by `dlStep_b32`. -/
theorem delayStep : Obligations.DelayStep := by
  intro s j hs hj hl hwf L out
  obtain ⟨r, hstep⟩ : ∃ r, dlStep (b32 s.draw) s.cfg.dlCap L s.a0 = r := ⟨_, rfl⟩
  have hspec := dlStep_b32 s.draw s.cfg.dlCap L s.a0 hwf
  rw [hstep] at hspec
  obtain ⟨hout, hbuf, hw, hdelay, hfb, -⟩ := hspec
  have hline : State.dlAt ((s.setDl j r.2).withR0 r.1) j = r.2 := dlAt_setDl_same hl r.2
  refine ⟨encode_of_op (by norm_num [Instr.op]), _, exec_dlProc_ready hs hj hstep, ?_⟩
  rw [hline]
  refine ⟨?_, hw, hdelay, hfb, hbuf⟩
  rw [hout]
  rfl

/-! Inputs fed one after the other, counted. -/

/-- An index below its unit's count fits a command word (R80, R83): no count is above 65536. -/
theorem wellFormed_of_instanceOf {c : Config} (hc : c.ok = true) {i : Instr} {j n : Nat}
    (hi : instanceOf c i = some (j, n)) (hj : j < n) : i.wellFormed = true := by
  refine (wellFormed_iff i).mpr ?_
  simp only [Config.ok, Bool.and_eq_true, decide_eq_true_eq] at hc
  cases i <;> simp only [instanceOf, Option.some.injEq, Prod.mk.injEq, reduceCtorEq] at hi <;>
    simp only [Instr.idx] <;> omega

/-- A command that takes the state from `P n` to `P (n + 1)` on the `n`th input and answers `R n` does so along a
whole list of inputs. -/
theorem feed_counted {i : Instr} {xs : List Word} {P : Nat → State → Prop} {R : Nat → Word × Word → Prop}
    (hi : i.wellFormed = true) (hready : ∀ n s, P n s → s.mode ≠ .faulted)
    (hstep : ∀ n s x, xs[n]? = some x → P n s →
      ∃ t, exec i (fedInput s x) = .next t ∧ P (n + 1) t ∧ R n (t.r0, t.r1))
    {s : State} (hs : P 0 s) :
    ∃ ys t, feed i xs s = some (ys, t) ∧ ys.length = xs.length ∧ ∀ n y, ys[n]? = some y → R n y := by
  induction xs generalizing s P R with
  | nil => exact ⟨[], s, feed_nil i s, rfl, fun n y h => by simp at h⟩
  | cons x rest ih =>
    obtain ⟨t, hexec, ht, hR⟩ := hstep 0 s x rfl hs
    obtain ⟨ys, v, hfeed, hlen, hys⟩ := ih (P := fun n => P (n + 1)) (R := fun n => R (n + 1))
      (fun n => hready (n + 1)) (fun n s x hx => hstep (n + 1) s x hx) ht
    refine ⟨(t.r0, t.r1) :: ys, v, by rw [feed_cons hi (hready 0 s hs) hexec, hfeed]; rfl, by simp [hlen], ?_⟩
    rintro (_ | n) y hy
    · obtain rfl : (t.r0, t.r1) = y := by simpa using hy
      exact hR
    · exact hys n y hy

/-! A line without feedback (R217). -/

/-- The input at time `m`: silence before the first. -/
def inputAt (xs : List Word) (m : Int) : Word := if m < 0 then fZero else xs.getD m.toNat fZero

theorem inputAt_neg (xs : List Word) {m : Int} (h : m < 0) : inputAt xs m = fZero := if_pos h

theorem inputAt_of_getElem? {xs : List Word} {n : Nat} {x : Word} (h : xs[n]? = some x) : inputAt xs n = x := by
  simp [inputAt, h]

theorem isFinite_inputAt {xs : List Word} (h : ∀ x ∈ xs, isFinite x = true) (m : Int) :
    isFinite (inputAt xs m) = true := by
  unfold inputAt
  split
  · exact isFinite_fZero
  · rw [List.getD_eq_getElem?_getD]
    cases hx : xs[m.toNat]? with
    | none => exact isFinite_fZero
    | some x => exact h x (List.mem_of_getElem? hx)

theorem SameButNegZero.isFinite {a r : Word} (h : SameButNegZero a r) (ha : isFinite a = true) :
    Machine.isFinite r = true := by
  obtain rfl | ⟨-, rfl⟩ := h
  · exact ha
  · exact isFinite_fZero

/-- Without feedback a finite input is stored as it is, but that −0.0 may become +0.0. -/
theorem sameButNegZero_stored {d : Nat} {x out : Word} (hx : isFinite x = true) (hout : isFinite out = true) :
    SameButNegZero x (fadd d x (fmul d fZero out)) := by
  rw [fmul_comm isFinite_fZero hout]
  exact addOr_zero hx (isZero_fmul hout (by decide))

/-- After `n` inputs the buffer holds the last `cap` of them, each at its time modulo the capacity. -/
def HoldsInputs (cap : Nat) (xs : List Word) (n : Nat) (L : DelayLine Word) : Prop :=
  L.w = emod n cap ∧
  ∀ m : Int, n - cap ≤ m → m < n → SameButNegZero (inputAt xs m) (Memory.word L.buf (emod m cap))

theorem natCast_emod {cap : Nat} (hcap : 0 < cap) (a : Int) : (emod a cap : Int) = a % cap :=
  Int.toNat_of_nonneg (Int.emod_nonneg a (by omega))

theorem emod_eq_iff {cap : Nat} (hcap : 0 < cap) (a b : Int) : emod a cap = emod b cap ↔ a % cap = b % cap := by
  rw [← Int.natCast_inj, natCast_emod hcap, natCast_emod hcap]

/-- One step without feedback answers the input of `delay` steps earlier and files its own. -/
theorem HoldsInputs.step {cap n : Nat} {xs : List Word} {L : DelayLine Word} (h : HoldsInputs cap xs n L)
    (hcap : 0 < cap) (hwf : Memory.wf zeroBlank L.buf = true) (hfb : L.fb = fZero)
    (hxs : ∀ x ∈ xs, isFinite x = true) {x : Word} (hx : xs[n]? = some x) (hlow : 1 ≤ L.delay.toInt)
    (hhigh : L.delay.toInt ≤ (cap : Int) - 1) (d : Nat) :
    SameButNegZero (inputAt xs (n - L.delay.toInt)) (dlStep (b32 d) cap L x).1 ∧
    HoldsInputs cap xs (n + 1) (dlStep (b32 d) cap L x).2 := by
  obtain ⟨hw, hheld⟩ := h
  obtain ⟨hout, hbuf, hnext, -⟩ := dlStep_b32 d cap L x hwf
  have hread : dlReadIndex cap L = emod (n - L.delay.toInt) cap := by
    rw [dlReadIndex, asS, hw, emod_eq_iff hcap, natCast_emod hcap, natCast_emod hcap]
    exact (Int.sub_emod ..).symm
  have hdelayed : SameButNegZero (inputAt xs (n - L.delay.toInt)) (Memory.word L.buf (dlReadIndex cap L)) := by
    rw [hread]
    exact hheld _ (by omega) (by omega)
  refine ⟨hout ▸ hdelayed, ?_, fun m hm1 hm2 => ?_⟩
  · rw [hnext, hw, emod_eq_iff hcap, natCast_emod hcap]
    simp
  · rw [hbuf, hw]
    by_cases hmn : m = n
    · rw [hmn, if_pos rfl, inputAt_of_getElem? hx, hfb]
      exact sameButNegZero_stored (hxs x (List.mem_of_getElem? hx)) (hdelayed.isFinite (isFinite_inputAt hxs _))
    · have hother : emod m cap ≠ emod n cap := fun h => by
        have hdvd : (cap : Int) ∣ n - m := Int.ModEq.dvd ((emod_eq_iff hcap m n).mp h)
        have hle := Int.le_of_dvd (by omega) hdvd
        omega
      rw [if_neg hother]
      exact hheld m (by omega) (by omega)

/-- Line `j` is there, with no feedback and a delay inside the capacity, and holds the first `n` inputs of `xs`. -/
structure DelayedAt (j : Nat) (delay : Word) (xs : List Word) (n : Nat) (s : State) : Prop where
  ready : s.mode ≠ .faulted
  inRange : j < s.cfg.nDl
  listed : j < s.dl.length
  canonical : Memory.wf zeroBlank (s.dlAt j).buf = true
  sameDelay : (s.dlAt j).delay = delay
  noFeedback : (s.dlAt j).fb = fZero
  inside : 1 ≤ delay.toInt ∧ delay.toInt ≤ (s.cfg.dlCap : Int) - 1
  holds : HoldsInputs s.cfg.dlCap xs n (s.dlAt j)

/-- `DL.PROC` on the `n`th input answers the input of `delay` steps earlier. -/
theorem DelayedAt.exec_dlProc {j n : Nat} {delay : Word} {xs : List Word} {s : State} (h : DelayedAt j delay xs n s)
    (hxs : ∀ x ∈ xs, isFinite x = true) {x : Word} (hx : xs[n]? = some x) :
    ∃ t, exec (.dlProc j) (fedInput s x) = .next t ∧ DelayedAt j delay xs (n + 1) t ∧
      SameButNegZero (inputAt xs (n - delay.toInt)) t.r0 := by
  obtain ⟨hready, hj, hl, hwf, hdelay, hfb, hinside, hholds⟩ := h
  subst hdelay
  obtain ⟨r, hstep⟩ : ∃ r, dlStep (b32 (s.draw + 1)) s.cfg.dlCap (s.dlAt j) x = r := ⟨_, rfl⟩
  obtain ⟨-, -, -, hdelay, hfb', hwf'⟩ := dlStep_b32 (s.draw + 1) s.cfg.dlCap (s.dlAt j) x hwf
  obtain ⟨hout, hnext⟩ := hholds.step (by omega) hwf hfb hxs hx hinside.1 hinside.2 (s.draw + 1)
  rw [hstep] at hdelay hfb' hwf' hout hnext
  have hline : State.dlAt (((fedInput s x).setDl j r.2).withR0 r.1) j = r.2 := dlAt_setDl_same hl r.2
  refine ⟨_, exec_dlProc_ready (s := fedInput s x) hready hj hstep,
    ⟨hready, hj, by simpa [fedInput] using hl, ?_, ?_, ?_, hinside, ?_⟩, hout⟩ <;> rw [hline]
  exacts [hwf', hdelay, hfb'.trans hfb, hnext]

/-- `DL.INIT` leaves a line that has had no input: all before is silence. -/
theorem delayedAt_dlInit {s : State} {j : Nat} (hs : s.mode ≠ .faulted) (hj : j < s.cfg.nDl) (hl : j < s.dl.length)
    (hlow : 1 ≤ s.a0.toInt) (hhigh : s.a0.toInt ≤ (s.cfg.dlCap : Int) - 1) (hfb : s.a1 = fZero) (xs : List Word) :
    ∃ u, exec (.dlInit j) s = .next u ∧ DelayedAt j s.a0 xs 0 u := by
  have hline (mask : BitVec 9) (L : DelayLine Word) : State.dlAt ((s.setDl j L).raiseDiag mask) j = L :=
    dlAt_setDl_same hl L
  refine ⟨_, exec_dlInit_ready hs hj, ⟨hs, hj, by simpa using hl, ?_, ?_, ?_, ⟨hlow, hhigh⟩, ?_⟩⟩ <;> rw [hline]
  · rfl
  · exact hfb
  · exact ⟨by simp [emod], fun m _ hm => Or.inl (inputAt_neg xs (by simpa using hm)).symm⟩

/-- Settles O41: the line holds its last inputs along the stream, and `delay` steps is no more than it holds. -/
theorem delayReproducesInput : Obligations.DelayReproducesInput := by
  intro s j xs hc hs hj hl hlow hhigh hfb hxs
  obtain ⟨u, hinit, hu⟩ := delayedAt_dlInit hs hj hl hlow hhigh hfb xs
  obtain ⟨ys, t, hfeed, hlen, hys⟩ := feed_counted
    (R := fun n y => SameButNegZero (inputAt xs (n - s.a0.toInt)) y.1)
    (wellFormed_of_instanceOf hc (i := .dlProc j) rfl hj) (fun _ _ h => h.ready)
    (fun _ _ _ hx h => h.exec_dlProc hxs hx) hu
  have hdelay : s.a0.toInt = s.a0.toNat := by
    have := s.a0.isLt
    rw [BitVec.toInt_eq_toNat_cond] at hlow ⊢
    split at hlow <;> omega
  refine ⟨u, hinit, ys, t, hfeed, hlen, fun n x y hx hy => ?_⟩
  obtain ⟨r, hr, rfl⟩ : ∃ r, ys[n]? = some r ∧ r.1 = y := by simpa using hy
  have hsame := hys n r hr
  rw [hdelay] at hsame
  refine ⟨fun hlt => ?_, fun hle => ?_⟩
  · rw [inputAt_neg xs (by omega)] at hsame
    exact hsame.elim id And.right
  · have hn : n < xs.length := (List.getElem?_eq_some_iff.mp hx).1
    have hearlier := List.getElem?_eq_getElem (show n - s.a0.toNat < xs.length by omega)
    rw [show (n : Int) - s.a0.toNat = (n - s.a0.toNat : Nat) by omega, inputAt_of_getElem? hearlier] at hsame
    exact ⟨_, hearlier, hsame⟩

end Sys2Proof.Proofs

/-! SUPPORT. The reverb network (45_delay_reverb.md section 2): what a chain of one channel reads and writes under
reading A of the map, what `RVB.UPD` writes stage by stage, and that two channels in equal states stay so. -/

namespace Sys2Proof.Proofs

open Machine

/-! The commands of the unit, run forward (R225 to R227). -/

section Ready

variable {s : State} (h : s.mode ≠ .faulted) {j : Nat} (hj : j < s.cfg.nRvb)

include h hj

theorem exec_rvbInit_ready : exec (.rvbInit j) s = .next (s.setRvb j Reverb.reset) :=
  onIndex_ready h hj _

/-- `RVB.UPD` on the network and the mask of its update. -/
theorem exec_rvbUpd_ready {V : Reverb Word} {mask : BitVec 9}
    (hupd : rvbUpdate (b32 s.draw) s.cfg s.a0.toInt s.a1 s.a2 s.a3 (s.rvbAt j) = (V, mask)) :
    exec (.rvbUpd j) s = .next ((s.setRvb j V).raiseDiag mask) := by
  refine (onIndex_ready h hj _).trans ?_
  simp only [asF, asS, State.opA, hupd]

/-- `RVB.PROC` on the answers of its two chains. -/
theorem exec_rvbProc_ready {l r : Word × Reverb Word}
    (hleft : rvbChain (b32 s.draw) s.cfg .left (s.rvbAt j) s.a0 = l)
    (hright : rvbChain (b32 s.draw) s.cfg .right l.2 s.a0 = r) :
    exec (.rvbProc j) s = .next ((s.setRvb j r.2).withR01 l.1 r.1) := by
  subst hleft hright
  exact onIndex_ready h hj _

end Ready

theorem rvbAt_setRvb_same {s : State} {j : Nat} (hj : j < s.rvb.length) (V : Reverb Word) :
    (s.setRvb j V).rvbAt j = V := by
  simp [State.rvbAt, hj]

/-- Settles O43: the chains of the model, stage after stage, are those of the statement. -/
theorem reverbSample : Obligations.ReverbSample :=
  fun _ _ hs hj => ⟨encode_of_op (by norm_num [Instr.op]), exec_rvbProc_ready hs hj rfl rfl⟩

/-! What a chain reads and writes (R227 to R229). -/

/-- What stage `g` of channel `ch` works on: the delay line the map names and its own allpass filter. -/
def stageUnits (c : Config) (ch : Chan) (V : Reverb Word) (g : Stage) : DelayLine Word × Biquad Word :=
  (V.line (PerStage.at (Stereo.at c.rvbMap ch) g).1 (PerStage.at (Stereo.at c.rvbMap ch) g).2, V.allpass ch g)

/-- One stage on its delay line and its filter (R229). -/
def stageStep (d cap : Nat) (u : DelayLine Word × Biquad Word) (v : Word) :
    Word × (DelayLine Word × Biquad Word) :=
  let N := b32 d
  let delayed := dlStep N cap u.1 v
  let filtered := bqStep N u.2 delayed.1
  (N.add (N.mul N.half filtered.1) (N.mul N.half delayed.1), (delayed.2, filtered.2))

theorem rvbStage_output (d : Nat) (c : Config) (ch : Chan) (g : Stage) (V : Reverb Word) (v : Word) :
    (rvbStage (b32 d) c ch g V v).1 = (stageStep d c.rvbDlCap (stageUnits c ch V g) v).1 := by
  simp only [rvbStage, stageStep, stageUnits, Reverb.allpass_setLine]

/-- Reading A of the map names no delay line twice (R228). -/
theorem mapReadingA_injective (ch ch' : Chan) (g g' : Stage) :
    ((PerStage.at (Stereo.at mapReadingA ch') g').1 = (PerStage.at (Stereo.at mapReadingA ch) g).1 ∧
      (PerStage.at (Stereo.at mapReadingA ch') g').2 = (PerStage.at (Stereo.at mapReadingA ch) g).2) ↔
    ch' = ch ∧ g' = g := by
  cases ch <;> cases ch' <;> cases g <;> cases g' <;> decide

/-- So the six stages of a network work on different units: a stage writes its own and no other stage's. -/
theorem stageUnits_rvbStage {c : Config} (hA : c.rvbMap = mapReadingA) (d : Nat) (ch ch' : Chan) (g g' : Stage)
    (V : Reverb Word) (v : Word) :
    stageUnits c ch' (rvbStage (b32 d) c ch g V v).2 g' =
      if ch' = ch ∧ g' = g then (stageStep d c.rvbDlCap (stageUnits c ch V g) v).2 else stageUnits c ch' V g' := by
  simp only [stageUnits, rvbStage, Reverb.line_setAllpass, Reverb.line_setLine, Reverb.allpass_setAllpass,
    Reverb.allpass_setLine, hA, mapReadingA_injective]
  split
  · rfl
  · rfl

/-- A chain leaves the units of the other channel's chain alone. -/
theorem stageUnits_rvbChain_other {c : Config} (hA : c.rvbMap = mapReadingA) (d : Nat) {ch ch' : Chan}
    (hne : ch' ≠ ch) (V : Reverb Word) (x : Word) :
    stageUnits c ch' (rvbChain (b32 d) c ch V x).2 = stageUnits c ch' V := by
  funext g
  simp only [rvbChain, stageUnits_rvbStage hA, hne, false_and, if_false]

/-- Equal units of two chains: one stage of each, given the same sample, answers the same and leaves them equal. -/
theorem rvbStage_congr {c : Config} (hA : c.rvbMap = mapReadingA) (d : Nat) {ch ch' : Chan} {V W : Reverb Word}
    (h : stageUnits c ch V = stageUnits c ch' W) (g : Stage) (v : Word) :
    (rvbStage (b32 d) c ch g V v).1 = (rvbStage (b32 d) c ch' g W v).1 ∧
    stageUnits c ch (rvbStage (b32 d) c ch g V v).2 = stageUnits c ch' (rvbStage (b32 d) c ch' g W v).2 := by
  refine ⟨by rw [rvbStage_output, rvbStage_output, h], ?_⟩
  funext g'
  simp only [stageUnits_rvbStage hA, h, true_and]

/-- Equal units of two chains: given the same input they answer the same and leave the units equal. -/
theorem rvbChain_congr {c : Config} (hA : c.rvbMap = mapReadingA) (d : Nat) {ch ch' : Chan} {V W : Reverb Word}
    (h : stageUnits c ch V = stageUnits c ch' W) (x : Word) :
    (rvbChain (b32 d) c ch V x).1 = (rvbChain (b32 d) c ch' W x).1 ∧
    stageUnits c ch (rvbChain (b32 d) c ch V x).2 = stageUnits c ch' (rvbChain (b32 d) c ch' W x).2 := by
  obtain ⟨hout1, hunits1⟩ := rvbStage_congr hA d h .s1 x
  obtain ⟨hout2, hunits2⟩ := rvbStage_congr hA d hunits1 .s2 (rvbStage (b32 d) c ch .s1 V x).1
  have hlast := rvbStage_congr hA d hunits2 .s3
    (rvbStage (b32 d) c ch .s2 (rvbStage (b32 d) c ch .s1 V x).2 (rvbStage (b32 d) c ch .s1 V x).1).1
  simp only [rvbChain]
  rw [← hout1, ← hout2]
  exact hlast

/-- Under reading A the two channels hold equal states exactly when their chains work on equal units: stages 1 and 3
take each other's line, from the other channel. -/
theorem mirrored_iff_stageUnits {c : Config} (hA : c.rvbMap = mapReadingA) {V : Reverb Word} :
    Mirrored V ↔ stageUnits c .left V = stageUnits c .right V := by
  simp only [funext_iff, stageUnits, hA, Prod.mk.injEq, Mirrored]
  constructor
  all_goals
    intro h g
    cases g
    · exact ⟨(h .s3).1.symm, (h .s1).2⟩
    · exact h .s2
    · exact ⟨(h .s1).1.symm, (h .s3).2⟩

/-- One sample through a network with equal channels: equal answers, and the channels stay equal. The right chain
finds its units as the left one found its own, for the left chain wrote none of them. -/
theorem rvbChains_mirrored {c : Config} (hA : c.rvbMap = mapReadingA) (d : Nat) {V : Reverb Word}
    (hV : Mirrored V) (x : Word) {l r : Word × Reverb Word} (hl : rvbChain (b32 d) c .left V x = l)
    (hr : rvbChain (b32 d) c .right l.2 x = r) : l.1 = r.1 ∧ Mirrored r.2 := by
  subst hl hr
  have hunits : stageUnits c .left V = stageUnits c .right (rvbChain (b32 d) c .left V x).2 := by
    rw [stageUnits_rvbChain_other hA d (by decide), (mirrored_iff_stageUnits hA).mp hV]
  obtain ⟨hout, hafter⟩ := rvbChain_congr hA d hunits x
  refine ⟨hout, (mirrored_iff_stageUnits hA).mpr ?_⟩
  rw [stageUnits_rvbChain_other hA d (by decide)]
  exact hafter

/-! What `RVB.UPD` writes (R226). -/

/-- The delay stage `g` gets: the sum of delay and offset, saturated. -/
def stageDelay (c : Config) (len : Int) (g : Stage) : Int := sat32 (len + PerStage.at c.rvbDd g)

/-- The allpass design stage `g` gets, with the mask of its guards. -/
def stageDesign (d : Nat) (c : Config) (fr q : Word) (g : Stage) : Prelude Word × BitVec 9 :=
  designPrelude (b32 d) c.fs c.fMin c.qMin (fadd d fr (PerStage.at c.rvbDfreq g)) q

/-- The mask of stage `g`: the guards of its design, and a delay outside the capacity. -/
def stageMask (d : Nat) (c : Config) (len : Int) (fr q : Word) (g : Stage) : BitVec 9 :=
  (stageDesign d c fr q g).2 |||
    DiagBit.delayWrapped.when (delayOutside c.rvbDlCap (bitsS (stageDelay c len g)))

section Update

variable (d : Nat) (c : Config) (len : Int) (fb fr q : Word)

theorem line_rvbUpdateStage (g : Stage) (V : Reverb Word) (ch : Chan) (g' : Stage) :
    (rvbUpdateStage (b32 d) c len fb fr q g V).1.line ch g' =
      if g' = g then { V.line ch g with delay := bitsS (stageDelay c len g), fb := fadd d fb (PerStage.at c.rvbDfb g) }
      else V.line ch g' := by
  cases ch <;> cases g <;> cases g' <;> rfl

theorem allpass_rvbUpdateStage (g : Stage) (V : Reverb Word) (ch : Chan) (g' : Stage) :
    (rvbUpdateStage (b32 d) c len fb fr q g V).1.allpass ch g' =
      if g' = g then { V.allpass ch g with coefs := bqAllpass (b32 d) (stageDesign d c fr q g).1 }
      else V.allpass ch g' := by
  cases ch <;> cases g <;> cases g' <;> rfl

theorem mask_rvbUpdateStage (g : Stage) (V : Reverb Word) :
    (rvbUpdateStage (b32 d) c len fb fr q g V).2 = stageMask d c len fr q g := by
  have hmask : (rvbUpdateStage (b32 d) c len fb fr q g V).2 = stageMask d c len fr q g |||
      DiagBit.delayWrapped.when (delayOutside c.rvbDlCap (bitsS (stageDelay c len g))) := rfl
  rw [hmask, stageMask, BitVec.or_assoc, BitVec.or_self]

/-- Every stage of both channels keeps its buffer and write index and gets its delay and feedback. -/
theorem line_rvbUpdate (V : Reverb Word) (ch : Chan) (g : Stage) :
    (rvbUpdate (b32 d) c len fb fr q V).1.line ch g =
      { V.line ch g with delay := bitsS (stageDelay c len g), fb := fadd d fb (PerStage.at c.rvbDfb g) } := by
  cases g <;> simp [rvbUpdate, line_rvbUpdateStage]

/-- Every stage of both channels keeps its taps and gets its allpass design. -/
theorem allpass_rvbUpdate (V : Reverb Word) (ch : Chan) (g : Stage) :
    (rvbUpdate (b32 d) c len fb fr q V).1.allpass ch g =
      { V.allpass ch g with coefs := bqAllpass (b32 d) (stageDesign d c fr q g).1 } := by
  cases g <;> simp [rvbUpdate, allpass_rvbUpdateStage]

theorem mask_rvbUpdate (V : Reverb Word) :
    (rvbUpdate (b32 d) c len fb fr q V).2 =
      stageMask d c len fr q .s1 ||| stageMask d c len fr q .s2 ||| stageMask d c len fr q .s3 := by
  simp only [rvbUpdate, mask_rvbUpdateStage]

/-- Equal states of the channels stay equal under new parameters, for both channels get the same. -/
theorem mirrored_rvbUpdate {V : Reverb Word} (h : Mirrored V) :
    Mirrored (rvbUpdate (b32 d) c len fb fr q V).1 := by
  intro g
  obtain ⟨hline, hallpass⟩ := h g
  simp only [line_rvbUpdate, allpass_rvbUpdate, hline, hallpass, and_self]

end Update

/-! The values and the mask of an update (R226). -/

/-- A saturated delay is stored as it is: it fits a signed word. -/
theorem delayOutside_stageDelay (cap : Nat) (c : Config) (len : Int) (g : Stage) :
    delayOutside cap (bitsS (stageDelay c len g)) =
      decide (stageDelay c len g < 0 ∨ (cap : Int) ≤ stageDelay c len g) := by
  have hrange : -2 ^ 31 ≤ stageDelay c len g ∧ stageDelay c len g < 2 ^ 31 := by
    unfold stageDelay sat32
    omega
  rw [delayOutside, asS, bitsS, BitVec.toInt_ofInt_eq_self (by decide) hrange.1 hrange.2]

theorem stageDesign_eq (d : Nat) (c : Config) (fr q : Word) (g : Stage) {f qq w0 alpha : Word}
    (hf : (if fle c.fMin (fadd d fr (PerStage.at c.rvbDfreq g)) then fadd d fr (PerStage.at c.rvbDfreq g)
      else c.fMin) = f)
    (hq : (if fle c.qMin q then q else c.qMin) = qq) (hw0 : fdiv d (fmul d fTwoPi f) c.fs = w0)
    (halpha : fdiv d (Config.num.sin w0) (fmul d fTwo qq) = alpha) :
    stageDesign d c fr q g = (⟨Config.num.cos w0, alpha, fadd d fOne alpha⟩,
      (if fle c.fMin (fadd d fr (PerStage.at c.rvbDfreq g)) then 0x000#9 else 0x010#9) |||
        (if fle c.qMin q then 0x000#9 else 0x020#9)) := by
  subst hf hq hw0 halpha
  simp only [stageDesign, designPrelude, guardFreq_b32, guardQ_b32]
  rfl

theorem getLsbD_singleBit {m : BitVec 9} {i : Nat} (hm : m = BitVec.twoPow 9 i) (hi : i < 9) (k : Nat) :
    m.getLsbD k = decide (k = i) := by
  simp [hm, BitVec.getLsbD_twoPow, hi, eq_comm]

/-- The bits of a stage's mask: `FREQ_CLAMPED`, `Q_CLAMPED` and `DELAY_WRAPPED`, each when its guard acts (R226). -/
theorem getLsbD_stageMask (d : Nat) (c : Config) (len : Int) (fr q : Word) (g : Stage) (k : Nat) :
    (stageMask d c len fr q g).getLsbD k = true ↔
      (k = 4 ∧ fle c.fMin (fadd d fr (PerStage.at c.rvbDfreq g)) = false) ∨
      (k = 5 ∧ fle c.qMin q = false) ∨
      (k = 6 ∧ (stageDelay c len g < 0 ∨ (c.rvbDlCap : Int) ≤ stageDelay c len g)) := by
  rw [stageMask, stageDesign_eq d c fr q g rfl rfl rfl rfl, delayOutside_stageDelay]
  simp only [DiagBit.when, DiagBit.mask, BitVec.getLsbD_or, apply_ite (BitVec.getLsbD · k), BitVec.getLsbD_zero,
    getLsbD_singleBit (m := 0x010#9) (i := 4) (by decide) (by decide),
    getLsbD_singleBit (m := 0x020#9) (i := 5) (by decide) (by decide),
    getLsbD_singleBit (m := 0x040#9) (i := 6) (by decide) (by decide)]
  cases fle c.fMin (fadd d fr (PerStage.at c.rvbDfreq g)) <;> cases fle c.qMin q <;> simp [or_assoc, and_comm]

theorem exists_stage {p : Stage → Prop} : (∃ g, p g) ↔ p .s1 ∨ p .s2 ∨ p .s3 := by
  constructor
  · rintro ⟨g, h⟩
    cases g
    exacts [Or.inl h, Or.inr (Or.inl h), Or.inr (Or.inr h)]
  · rintro (h | h | h)
    exacts [⟨_, h⟩, ⟨_, h⟩, ⟨_, h⟩]

/-- The bits of the whole update: each when its guard acts in some stage. -/
theorem getLsbD_mask_rvbUpdate (d : Nat) (c : Config) (len : Int) (fb fr q : Word) (V : Reverb Word) (k : Nat) :
    (rvbUpdate (b32 d) c len fb fr q V).2.getLsbD k = true ↔
      (k = 4 ∧ ∃ g, fle c.fMin (fadd d fr (PerStage.at c.rvbDfreq g)) = false) ∨
      (k = 5 ∧ fle c.qMin q = false) ∨
      (k = 6 ∧ ∃ g, stageDelay c len g < 0 ∨ (c.rvbDlCap : Int) ≤ stageDelay c len g) := by
  have hstage : (rvbUpdate (b32 d) c len fb fr q V).2.getLsbD k = true ↔
      ∃ g, (stageMask d c len fr q g).getLsbD k = true := by
    simp only [mask_rvbUpdate, BitVec.getLsbD_or, Bool.or_eq_true, exists_stage, or_assoc]
  have : Nonempty Stage := ⟨.s1⟩
  simp only [hstage, getLsbD_stageMask, exists_or, exists_and_left, exists_const]

/-- Settles O42: the update writes both channels stage by stage, and its mask is that of the three stages. -/
theorem reverbUpdated : Obligations.ReverbUpdated := by
  intro s j hs hj hl c d freq len
  have hmask := getLsbD_mask_rvbUpdate d c s.a0.toInt s.a1 s.a2 s.a3 (s.rvbAt j)
  have hline := line_rvbUpdate d c s.a0.toInt s.a1 s.a2 s.a3 (s.rvbAt j)
  have hallpass := allpass_rvbUpdate d c s.a0.toInt s.a1 s.a2 s.a3 (s.rvbAt j)
  obtain ⟨⟨V, mask⟩, hupd⟩ : ∃ r, rvbUpdate (b32 d) c s.a0.toInt s.a1 s.a2 s.a3 (s.rvbAt j) = r := ⟨_, rfl⟩
  rw [hupd] at hmask hline hallpass
  have hV : State.rvbAt ((s.setRvb j V).raiseDiag mask) j = V := rvbAt_setRvb_same hl V
  have hdiag (k : Nat) : ((s.setRvb j V).raiseDiag mask).diag.getLsbD k = true ↔
      s.diag.getLsbD k = true ∨ (k = 4 ∧ ∃ g, fle c.fMin (freq g) = false) ∨ (k = 5 ∧ fle c.qMin s.a3 = false) ∨
        (k = 6 ∧ ∃ g, len g < 0 ∨ (c.rvbDlCap : Int) ≤ len g) :=
    (by simp : _ ↔ s.diag.getLsbD k = true ∨ mask.getLsbD k = true).trans (or_congr_right (hmask k))
  refine ⟨encode_of_op (by norm_num [Instr.op]), _, exec_rvbUpd_ready hs hj hupd, ?_, fun ch g => ?_,
    by simpa using hdiag 4, by simpa using hdiag 5, by simpa using hdiag 6, fun k h4 h5 h6 => ?_⟩
  · rw [hV]
    rfl
  · intro w0 cw alpha aa
    rw [hV, hline, hallpass, stageDesign_eq d c s.a2 s.a3 g rfl rfl rfl rfl]
    exact ⟨rfl, rfl⟩
  · exact Bool.eq_iff_iff.mpr (by simpa [h4, h5, h6] using hdiag k)

/-! Equal channels along a stream (R230). -/

theorem mirrored_reset : Mirrored Reverb.reset := by
  intro g
  cases g <;> exact ⟨rfl, rfl⟩

/-- Network `j` is there, under reading A, and its channels hold equal states. -/
structure MirroredAt (j : Nat) (s : State) : Prop where
  ready : s.mode ≠ .faulted
  inRange : j < s.cfg.nRvb
  listed : j < s.rvb.length
  readingA : s.cfg.rvbMap = mapReadingA
  equalChannels : Mirrored (s.rvbAt j)

/-- `RVB.PROC` on equal channels answers `R0 = R1` and leaves equal channels. -/
theorem MirroredAt.exec_rvbProc {j : Nat} {s : State} (h : MirroredAt j s) (x : Word) :
    ∃ t, exec (.rvbProc j) (fedInput s x) = .next t ∧ MirroredAt j t ∧ t.r0 = t.r1 := by
  obtain ⟨hout, hmirrored⟩ := rvbChains_mirrored h.readingA (s.draw + 1) h.equalChannels x rfl rfl
  exact ⟨_, exec_rvbProc_ready (s := fedInput s x) h.ready h.inRange rfl rfl,
    ⟨h.ready, h.inRange, by simpa [fedInput] using h.listed, h.readingA,
      (congrArg Mirrored (rvbAt_setRvb_same h.listed _)).mpr hmirrored⟩, hout⟩

/-- Settles O44: `Reverb.reset` and the update treat both channels alike, and every input keeps the channels equal
(`MirroredAt.exec_rvbProc`). -/
theorem reverbChannelsEqual : Obligations.ReverbChannelsEqual := by
  intro s j hc hA hs hj hl
  refine ⟨⟨_, exec_rvbInit_ready hs hj, ?_⟩, fun hV => ⟨_, exec_rvbUpd_ready hs hj rfl, ?_⟩, fun xs hV => ?_⟩
  · rw [rvbAt_setRvb_same hl]
    exact mirrored_reset
  · exact (congrArg Mirrored (rvbAt_setRvb_same hl _)).mpr (mirrored_rvbUpdate _ _ _ _ _ _ hV)
  · obtain ⟨ys, t, hfeed, hys, ht⟩ := feed_keeps (P := MirroredAt j) (R := fun _ y => y.1 = y.2) (xs := xs)
      (wellFormed_of_instanceOf hc (i := .rvbProc j) rfl hj) (fun _ h => h.ready)
      (fun _ x _ h => h.exec_rvbProc x) ⟨hs, hj, hl, hA, hV⟩
    obtain ⟨hequal, -⟩ := (List.forall₂_and_left (p := fun y : Word × Word => y.1 = y.2) (R := fun _ _ => True)
      ys xs).mp (hys.flip.imp fun _ _ h => ⟨h, trivial⟩)
    exact ⟨ys, t, hfeed, hys.length_eq.symm, hequal, ht.equalChannels⟩

end Sys2Proof.Proofs

/-! SUPPORT. The drive (46_drive.md): what the commands of the unit answer when their tests pass, and the buffer of
a fresh unit, which for `DRV_DELAY` inputs answers only the zeros it was filled with (R243). -/

namespace Sys2Proof.Proofs

open Machine

/-! The commands of the unit, run forward (R241, R242). -/

section Ready

variable {s : State} (h : s.mode ≠ .faulted) {j : Nat} (hj : j < s.cfg.nDrv)

include h hj

theorem exec_drvInit_ready : exec (.drvInit j) s = .next (s.setDrv j (Drive.reset s.cfg)) :=
  onIndex_ready h hj _

/-- `DRV.PROC` on the answer of its line's step. -/
theorem exec_drvProc_ready {r : Word × DelayLine Word}
    (hstep : dlStep (b32 s.draw) s.cfg.drvDlCap (s.drvAt j).dl s.a0 = r) :
    exec (.drvProc j) s = .next ((s.setDrv j { dl := r.2 }).withR0 (Config.num.tanh (fmul s.draw s.a0 r.1))) := by
  subst hstep
  exact onIndex_ready h hj _

end Ready

theorem drvAt_setDrv_same {s : State} {j : Nat} (hj : j < s.drv.length) (D : Drive Word) :
    (s.setDrv j D).drvAt j = D := by
  simp [State.drvAt, hj]

/-- Settles O45: the command takes one step of its line, which `dlStep_b32` says. -/
theorem driveSample : Obligations.DriveSample := by
  intro s j hs hj hl hwf L cap out
  obtain ⟨r, hstep⟩ : ∃ r, dlStep (b32 s.draw) cap L s.a0 = r := ⟨_, rfl⟩
  have hspec := dlStep_b32 s.draw cap L s.a0 hwf
  rw [hstep] at hspec
  obtain ⟨hout, hbuf, hw, hdelay, hfb, -⟩ := hspec
  have hline (y : Word) : State.drvAt ((s.setDrv j { dl := r.2 }).withR0 y) j = { dl := r.2 } :=
    drvAt_setDrv_same hl _
  refine ⟨encode_of_op (by norm_num [Instr.op]), _, exec_drvProc_ready hs hj hstep, ?_⟩
  rw [hline]
  refine ⟨?_, hw, hdelay, hfb, hbuf⟩
  rw [hout]
  rfl

/-! A fresh unit is silent (R243, row 1). -/

/-- `tanh` of a zero is that zero (R108, `TANH_ZERO`). -/
theorem isZero_tanh {w : Word} (h : isZero w = true) : isZero (Config.num.tanh w) = true := by
  have hsame : Config.num.tanh w = w := by
    rw [eq_of_isZero h]
    cases signBit w
    · exact Config.num.tanh_zero.1
    · exact Config.num.tanh_zero.2
  rw [hsame, h]

/-- The buffer as its first `n` writes leave a silent one: the places from `n` on still hold +0.0. -/
def SilentFrom (cap n : Nat) (L : DelayLine Word) : Prop :=
  L.w = emod n cap ∧ ∀ k, n ≤ k → Memory.word L.buf k = fZero

/-- A step whose write index is below its delay reads at or above the write index: what it reads was
written in the round before. -/
theorem le_dlReadIndex {cap : Nat} {L : DelayLine Word} (hw : L.w < L.delay.toInt) (hcap : L.delay.toInt ≤ cap) :
    L.w ≤ dlReadIndex cap L := by
  have hpos : 0 < cap := by omega
  have hread : (dlReadIndex cap L : Int) = L.w - L.delay.toInt + cap :=
    calc (dlReadIndex cap L : Int) = (L.w - L.delay.toInt) % cap := by
          rw [dlReadIndex, asS, natCast_emod hpos, natCast_emod hpos, Int.sub_emod_emod]
      _ = (L.w - L.delay.toInt + cap) % cap := (Int.add_emod_right ..).symm
      _ = L.w - L.delay.toInt + cap := Int.emod_eq_of_lt (by omega) (by omega)
  omega

/-- While fewer samples than the delay have come, the step answers +0.0, whatever its input and feedback. -/
theorem SilentFrom.step {cap n : Nat} {L : DelayLine Word} (h : SilentFrom cap n L)
    (hwf : Memory.wf zeroBlank L.buf = true) (hn : n < L.delay.toInt) (hcap : L.delay.toInt ≤ cap) (d : Nat)
    (x : Word) :
    (dlStep (b32 d) cap L x).1 = fZero ∧ SilentFrom cap (n + 1) (dlStep (b32 d) cap L x).2 := by
  obtain ⟨hw, hsilent⟩ := h
  obtain ⟨hout, hbuf, hnext, -⟩ := dlStep_b32 d cap L x hwf
  obtain rfl : n = L.w := by
    rw [hw, emod, Int.emod_eq_of_lt (by omega) (by omega), Int.toNat_natCast]
  refine ⟨hout.trans (hsilent _ (le_dlReadIndex hn hcap)), hnext, fun k hk => ?_⟩
  rw [hbuf, if_neg (by omega)]
  exact hsilent k (by omega)

/-- Drive `j` of a block built as `c` is there, has the delay of `c`, and is silent but for the first `n` places. -/
structure SilencedAt (c : Config) (j n : Nat) (s : State) : Prop where
  built : s.cfg = c
  ready : s.mode ≠ .faulted
  inRange : j < c.nDrv
  listed : j < s.drv.length
  canonical : Memory.wf zeroBlank (s.drvAt j).dl.buf = true
  configured : (s.drvAt j).dl.delay.toInt = c.drvDelay
  fits : c.drvDelay ≤ c.drvDlCap
  silent : SilentFrom c.drvDlCap n (s.drvAt j).dl

/-- `DRV.PROC` on a finite input before the `DRV_DELAY`th answers a zero: `tanh` of the input times +0.0. -/
theorem SilencedAt.exec_drvProc {c : Config} {j n : Nat} {s : State} (h : SilencedAt c j n s) (hn : n < c.drvDelay)
    {x : Word} (hx : isFinite x = true) :
    ∃ t, exec (.drvProc j) (fedInput s x) = .next t ∧ SilencedAt c j (n + 1) t ∧ isZero t.r0 = true := by
  obtain ⟨rfl, hready, hj, hl, hwf, hdelay, hfits, hsilent⟩ := h
  obtain ⟨r, hstep⟩ : ∃ r, dlStep (b32 (s.draw + 1)) s.cfg.drvDlCap (s.drvAt j).dl x = r := ⟨_, rfl⟩
  obtain ⟨-, -, -, hdelay', -, hwf'⟩ := dlStep_b32 (s.draw + 1) s.cfg.drvDlCap (s.drvAt j).dl x hwf
  obtain ⟨hout, hnext⟩ := hsilent.step hwf (by omega) (by omega) (s.draw + 1) x
  rw [hstep] at hdelay' hwf' hout hnext
  have hzero : isZero (fmul (s.draw + 1) x r.1) = true := isZero_fmul hx (by rw [hout]; decide)
  have hline (y : Word) : State.drvAt (((fedInput s x).setDrv j { dl := r.2 }).withR0 y) j = { dl := r.2 } :=
    drvAt_setDrv_same hl _
  refine ⟨_, exec_drvProc_ready (s := fedInput s x) hready hj hstep,
    ⟨rfl, hready, hj, by simpa [fedInput] using hl, ?_, ?_, hfits, ?_⟩,
    isZero_tanh hzero⟩ <;> rw [hline]
  exacts [hwf', (congrArg BitVec.toInt hdelay').trans hdelay, hnext]

/-- `DRV.INIT` leaves a drive that has had no input. -/
theorem silencedAt_drvInit {s : State} {j : Nat} (hc : s.cfg.ok = true) (hs : s.mode ≠ .faulted)
    (hj : j < s.cfg.nDrv) (hl : j < s.drv.length) : SilencedAt s.cfg j 0 (s.setDrv j (Drive.reset s.cfg)) := by
  simp only [Config.ok, Bool.and_eq_true, decide_eq_true_eq] at hc
  have hdelay : (BitVec.ofNat 32 s.cfg.drvDelay).toInt = s.cfg.drvDelay := by
    rw [BitVec.toInt_ofNat', Int.bmod_eq_of_le (by omega) (by omega)]
  have hfits : s.cfg.drvDelay ≤ s.cfg.drvDlCap := by omega
  refine ⟨rfl, hs, hj, by simpa using hl, ?_, ?_, hfits, ?_⟩ <;> rw [drvAt_setDrv_same hl]
  exacts [rfl, hdelay, ⟨by simp [emod, Drive.reset, DelayLine.reset], fun _ _ => rfl⟩]

/-- `DRV.PROC` answers between −1.0 and 1.0 where the product is no NaN (R108, `TANH_BOUND`). -/
theorem bounded_drvProc {s : State} {j : Nat} (hs : s.mode ≠ .faulted) (hj : j < s.cfg.nDrv)
    (hnan : isNaN (fmul s.draw s.a0
      (Memory.word (s.drvAt j).dl.buf (dlReadIndex s.cfg.drvDlCap (s.drvAt j).dl))) = false) :
    ∃ t, exec (.drvProc j) s = .next t ∧ fle fNegOne t.r0 = true ∧ fle t.r0 fOne = true :=
  ⟨_, exec_drvProc_ready hs hj rfl, Config.num.tanh_bound _ hnan⟩

/-- Settles O46: each of the first `DRV_DELAY` inputs finds the drive silenced and leaves it so for the next, and
`tanh` is bounded. -/
theorem driveIsSilentAndBounded : Obligations.DriveIsSilentAndBounded := by
  refine ⟨fun s j xs hc hs hj hl hlen hxs => ?_, fun _ _ hs hj hnan => bounded_drvProc hs hj hnan⟩
  obtain ⟨ys, t, hfeed, hlength, hys⟩ := feed_counted (R := fun _ y => isZero y.1 = true)
    (wellFormed_of_instanceOf hc (i := .drvProc j) rfl hj) (fun _ _ h => h.ready)
    (fun n _ x hx h => h.exec_drvProc ((List.getElem?_eq_some_iff.mp hx).1.trans_le hlen)
      (hxs x (List.mem_of_getElem? hx)))
    (silencedAt_drvInit hc hs hj hl)
  refine ⟨_, exec_drvInit_ready hs hj, ys, t, hfeed, hlength, fun y hy => ?_⟩
  obtain ⟨n, hn⟩ := List.mem_iff_getElem?.mp hy
  exact hys n y hn

end Sys2Proof.Proofs

/-! SUPPORT. The spectrum analyzer (47_spectrum.md): what `SPA.PROC` leaves after any number of samples, and that the
cut of the samples into commands does not matter (R254). -/

namespace Sys2Proof.Proofs

open Machine

/-! One `SPA.PROC` (R253, R254, R255). -/

/-- The moment of a block's last publish, counted from the block's end and from its start (R253). -/
theorem heard_at_last_publish (w h m hop : Nat) :
    w + m - (h + m) % hop = w + (h + m) / hop * hop - h := by
  have hdiv : (h + m) / hop * hop + (h + m) % hop = h + m := Nat.div_add_mod' _ _
  omega

/-- Settles O47: what a block of samples leaves (`spaTakeAll_spec`), its last publish counted from the block's end. -/
theorem analyzerCounts : Obligations.AnalyzerCounts := by
  intro s hinv hs c m all p left
  have hsizes : AnalyzerSizes s := analyzerSizes_of_blockInv hinv
  obtain ⟨hhist, hcount, hlast, -⟩ :=
    spaTakeAll_spec (s := s.raiseDiag (DiagBit.spaClamped.when (decide (c.spaBlkMax < s.a0.toNat))))
      (one_le_spaWin hinv.cfg_ok) hsizes (inputBlock s m)
  rw [length_inputBlock] at hcount hlast
  have hheard : all.length - left = c.spaWin + p * c.spaHop - s.spa.hcnt := by
    rw [List.length_append, hinv.hist_length, length_inputBlock]
    exact heard_at_last_publish _ _ _ _
  refine ⟨_, exec_spaProc_ready hs, ?_, ?_, hhist, hcount, congrArg Snapshot.seq hlast, ?_⟩
  · rw [spaTakeAll_diag]
    exact spaTakeAll_frame _ _
  · rw [spaTakeAll_diag]
    simp [DiagBit.when, DiagBit.mask, c]
  · rw [hheard]
    exact congrArg Snapshot.bins hlast

/-! Blocks in a row (R254). -/

/-- The block with samples offered to the next `SPA.PROC`: their count in `A0`, themselves in `SPA_IN`. -/
def offering (s : State) (count : Word) (samples : Memory Word) : State := { s with a0 := count, spaIn := samples }

theorem midCommand_offering (s : State) (a : Word) (q : Memory Word) :
    (offering s a q).midCommand = offering s.midCommand a q := by
  unfold State.midCommand
  rw [show (offering s a q).midSnaps = s.midSnaps from rfl]
  cases s.midSnaps <;> rfl

/-- A sample taken does not depend on what is offered to the next command, and leaves it where it is. -/
theorem spaTake_offering (s : State) (a : Word) (q : Memory Word) (x : Word) :
    spaTake (offering s a q) x = offering (spaTake s x) a q := by
  by_cases hop : s.spa.hcnt + 1 = s.cfg.spaHop
  · rw [spaTake_eq s, if_pos hop, ← midCommand_offering]
    exact (spaTake_eq _ x).trans (if_pos hop)
  · rw [spaTake_quiet hop]
    exact spaTake_quiet (s := offering s a q) hop

theorem spaTakeAll_offering (s : State) (a : Word) (q : Memory Word) (xs : List Word) :
    spaTakeAll (offering s a q) xs = offering (spaTakeAll s xs) a q := by
  induction xs generalizing s with
  | nil => rfl
  | cons x rest ih => rw [spaTakeAll, spaTake_offering, ih, spaTakeAll]

/-- `SPA.PROC` on at most `SPA_BLK_MAX` samples takes them all and raises nothing (R254). -/
theorem exec_spaProc_offering {s : State} (hc : s.cfg.ok = true) (hs : s.mode ≠ .faulted) {m : Nat}
    (hm : m ≤ s.cfg.spaBlkMax) (q : Memory Word) :
    exec .spaProc (offering s (bitsU m) q) =
      .next (offering (spaTakeAll s ((List.range m).map (Memory.word q))) (bitsU m) q) := by
  have hcount : (offering s (bitsU m) q).a0.toNat = m := by
    obtain ⟨-, hmax, -⟩ := window_sizes hc
    exact (BitVec.toNat_ofNat m 32).trans (Nat.mod_eq_of_lt (by omega))
  have hquiet : (offering s (bitsU m) q).raiseDiag (DiagBit.spaClamped.when false) = offering s (bitsU m) q := by
    simp [State.raiseDiag, DiagBit.when]
  rw [exec_spaProc_ready (s := offering s (bitsU m) q) hs, hcount, show (offering s (bitsU m) q).cfg = s.cfg from rfl,
    decide_eq_false (Nat.not_lt.mpr hm), Nat.min_eq_left hm, hquiet, spaTakeAll_offering]
  rfl

/-- Settles O48: each of the three commands takes exactly its samples (`exec_spaProc_offering`), and taking the two
blocks in a row is taking them joined (`spaTakeAll_append`). -/
theorem analyzerBlocksSplit : Obligations.AnalyzerBlocksSplit := by
  intro s t u m n second hinv hs hmn hsecond hfirst hnext
  have hc : s.cfg.ok = true := hinv.cfg_ok
  obtain ⟨xs, hxs⟩ : ∃ xs, (List.range m).map (Memory.word s.spaIn) = xs := ⟨_, rfl⟩
  obtain ⟨ys, hys⟩ : ∃ ys, (List.range n).map (Memory.word second) = ys := ⟨_, rfl⟩
  have hjoined : (List.range (m + n)).map (Memory.word s.spaIn) = xs ++ ys := by
    rw [List.range_add, List.map_append, List.map_map, hxs, ← hys]
    exact congrArg (xs ++ ·) (List.map_congr_left fun i hi => (hsecond i (List.mem_range.mp hi)).symm)
  have hexec₁ := exec_spaProc_offering hc hs (m := m) (by omega) s.spaIn
  rw [hxs] at hexec₁
  cases hfirst.symm.trans hexec₁
  have hexec₂ := exec_spaProc_offering (s := spaTakeAll s xs) (by rwa [spaTakeAll_cfg]) (by rwa [spaTakeAll_mode])
    (m := n) (by rw [spaTakeAll_cfg]; omega) second
  rw [hys] at hexec₂
  cases hnext.symm.trans hexec₂
  have hexec := exec_spaProc_offering hc hs hmn s.spaIn
  rw [hjoined, spaTakeAll_append] at hexec
  exact ⟨_, hexec, rfl, rfl, rfl, rfl⟩

end Sys2Proof.Proofs

/-! SUPPORT. Modes and faults (60_exceptions.md R300 to R303, R308, R309; 41_sys_wts.md R133; 43_osc.md R172): how a
command can move the mode, each tabled fault raised where its condition holds, and the violations that are ignored. -/

namespace Sys2Proof.Proofs

open Machine

/-! How a command moves the mode (R300). -/

/-- What a command can do to the mode: nothing, the reset to CONFIG, the seal of a complete store, or the entry of a
tabled fault. -/
inductive ModeMove (i : Instr) (s t : State) : Prop where
  | stays (ht : t.mode = s.mode)
  | resets (hi : i = .sysReset) (ht : t.mode = .config)
  | seals (hi : i = .wtsSeal) (hs : s.mode = .config) (hc : s.storeComplete = true) (ht : t.mode = .run)
  | faults (cause : Cause) (hc : FaultCondition s i cause) (ht : t = s.faultEntry cause (encode i))

/-- The own rule of a command moves the mode by a reset or a seal only. -/
theorem modeMove_effect {i : Instr} {s t : State} (h : Effect i s t) : ModeMove i s t := by
  cases i with
  | sysReset => exact .resets rfl (h ▸ rfl)
  | wtsSeal =>
    obtain ⟨hs, hc, rfl⟩ := h
    exact .seals rfl hs hc rfl
  | sysNop | spaInit =>
    subst h
    exact .stays rfl
  | spaProc =>
    subst h
    exact .stays (by simp)
  | wtsBank =>
    obtain ⟨-, -, -, -, -, rfl⟩ := h
    exact .stays rfl
  | wtsWr =>
    obtain ⟨-, -, -, -, -, -, rfl⟩ := h
    exact .stays rfl
  | oscInit =>
    obtain ⟨-, -, -, _, -, -, rfl⟩ := h
    exact .stays rfl
  | oscSetf =>
    obtain ⟨-, -, _, _, rfl⟩ := h
    exact .stays rfl
  | oscProc =>
    obtain ⟨-, -, _, rfl⟩ := h
    exact .stays rfl
  | oscSetm =>
    obtain ⟨-, -, rfl⟩ := h
    exact .stays rfl
  | bqSetc | bqLp | bqAp =>
    obtain ⟨-, _, rfl⟩ := h
    exact .stays rfl
  | envInit | envSetp | envProc | envStat | bqInit | bqProc | dlInit | dlSet | dlProc | rvbInit | rvbUpd | rvbProc
  | drvInit | drvProc =>
    obtain ⟨-, rfl⟩ := h
    exact .stays rfl

theorem modeMove_exec {i : Instr} {s t : State} (h : exec i s = .next t) : ModeMove i s t := by
  rcases exec_next h with ⟨-, -, rfl⟩ | ⟨-, _, rfl⟩ | ⟨-, cause, hc, ht⟩ | ⟨-, he⟩
  · exact .stays rfl
  · exact .stays rfl
  · exact .faults cause hc ht
  · exact modeMove_effect he

/-- If a word written to `CMD` answers a next state, the mode has stayed or the word's command has moved it. -/
theorem modeMove_cmdWrite {s t : State} {c : Word} (h : cmdWrite s c = .next t) :
    t.mode = s.mode ∨ ∃ i, decode c = .ok i ∧ ModeMove i s t := by
  obtain ⟨-, hreset, -⟩ := opcodeMapWords
  unfold cmdWrite at h
  split at h
  case h_1 =>
    split at h
    next hc => exact Or.inr ⟨.sysReset, hc ▸ hreset, modeMove_exec h⟩
    next => cases h; exact Or.inl rfl
  all_goals
    split at h
    next i hd => exact Or.inr ⟨i, hd, modeMove_exec h⟩
    next => cases h; exact Or.inl rfl

/-- The events that move the mode are resets and writes of a command's word to `CMD`. -/
theorem modeMove_performEvent {s t : State} {e : Event} (h : performEvent e s = .next t) :
    t.mode = s.mode ∨ (t.mode = .config ∧ isReset e = true) ∨
      ∃ c i, e = .write 0x0000 c ∧ decode c = .ok i ∧ ModeMove i { s with draw := s.draw + 1 } t := by
  cases e with
  | read off =>
    unfold performEvent at h
    simp only at h
    split at h
    · cases h; exact Or.inl rfl
    · cases h
  | write off w =>
    rcases regWrite_next h with rfl | rfl | ⟨k, rfl⟩ | ⟨_, rfl⟩ | ⟨rfl, hc⟩
    · exact Or.inl rfl
    · exact Or.inl rfl
    · exact Or.inl (State.setA_mode s k w)
    · exact Or.inl rfl
    · rcases modeMove_cmdWrite hc with hstay | ⟨i, hd, hmove⟩
      · exact Or.inl hstay
      · exact Or.inr (Or.inr ⟨w, i, rfl, hd, hmove⟩)
  | snapshot => cases h; exact Or.inl rfl
  | powerOn => cases h; exact Or.inr (Or.inl ⟨rfl, rfl⟩)

/-- The causes 1 to 3 are raised in CONFIG mode and cause 4 in RUN mode (R301). -/
theorem mode_of_faultCondition {s : State} {i : Instr} {cause : Cause} (h : FaultCondition s i cause) :
    (s.mode = .config ∧ (cause = .wtsRange ∨ cause = .wtsIncomplete ∨ cause = .wtsMissing)) ∨
    (s.mode = .run ∧ cause = .cfgBank) := by
  cases cause with
  | none => exact h.elim
  | wtsRange | wtsIncomplete | wtsMissing =>
    obtain ⟨hm, -⟩ := h
    exact Or.inl ⟨hm, by simp⟩
  | cfgBank =>
    obtain ⟨hm, -⟩ := h
    exact Or.inr ⟨hm, rfl⟩

/-- Settles O13: an event that moves the mode is a reset or the write of a command's word, and a command moves it by
one of the cases of `ModeMove`. -/
theorem modeTransitions : Obligations.ModeTransitions := by
  intro s t h
  obtain ⟨-, ⟨-, rfl⟩ | ⟨e, rest, hp, he⟩⟩ := step_next h
  · exact Or.inl rfl
  rcases modeMove_performEvent he with hstay | ⟨ht, hreset⟩ | ⟨c, i, rfl, hd, hmove⟩
  · exact Or.inl hstay
  · exact Or.inr (Or.inl ⟨ht, e, rest, hp, hreset⟩)
  cases hmove with
  | stays ht => exact Or.inl ht
  | resets hi ht =>
    have hc : c = 0x01000000#32 := eq_resetWord_of_decode (hi ▸ hd)
    exact Or.inr (Or.inl ⟨ht, _, rest, hp, by rw [hc]; rfl⟩)
  | seals hi hs hcomplete ht =>
    have hc : c = 0x12000000#32 := by rw [← ((decodeInvertsEncode c i).mp hd).2, hi]; rfl
    refine Or.inr (Or.inr (Or.inl ⟨hs, ht, ⟨rest, hc ▸ hp⟩, fun b hb => ?_⟩))
    obtain ⟨h0, hcells⟩ := (storeComplete_iff _).mp hcomplete b hb
    exact ⟨h0, fun k n hk hn => Option.isSome_iff_ne_none.mp (hcells k hk n hn)⟩
  | faults cause hcond ht =>
    subst ht
    exact Or.inr (Or.inr (Or.inr (mode_of_faultCondition hcond |>.imp
      (fun ⟨hs, hcause⟩ => ⟨hs, rfl, hcause⟩) fun ⟨hs, hcause⟩ => ⟨hs, rfl, hcause⟩)))

/-! Faults (R301, R303). -/

/-- A command enters FAULTED mode by a fault of the table only (R301). -/
theorem ModeMove.faultEntry_of_faulted {i : Instr} {s t : State} (h : ModeMove i s t) (hs : s.mode ≠ .faulted)
    (ht : t.mode = .faulted) : ∃ cause, FaultCondition s i cause ∧ t = s.faultEntry cause (encode i) := by
  cases h with
  | stays h => exact absurd (h.symm.trans ht) hs
  | resets _ h => cases h.symm.trans ht
  | seals _ _ _ h => cases h.symm.trans ht
  | faults cause hc h => exact ⟨cause, hc, h⟩

/-- Settles O11: the word written spells the command that runs, whose own fault entry it is. -/
theorem faultEntryIsPrecise : Obligations.FaultEntryIsPrecise := by
  intro s t c rest hcmd hs h ht
  rw [step_commanded hcmd] at h
  rcases modeMove_cmdWrite h with hstay | ⟨i, hd, hmove⟩
  · exact absurd (hstay.symm.trans ht) hs
  · obtain ⟨cause, hc, rfl⟩ := hmove.faultEntry_of_faulted hs ht
    obtain ⟨-, hword⟩ := (decodeInvertsEncode c i).mp hd
    refine ⟨cause, ?_, hword ▸ rfl⟩
    rintro rfl
    exact hc

/-- A command raises the fault whose condition holds (R301, R306). -/
theorem exec_of_faultCondition {i : Instr} {s : State} {cause : Cause} (h : FaultCondition s i cause) :
    exec i s = .next (s.faultEntry cause (encode i)) := by
  cases cause with
  | none => exact h.elim
  | wtsRange =>
    obtain ⟨hm, ⟨rfl, hbad⟩ | ⟨rfl, hbad⟩⟩ := h
    · refine (onOpenStore_config hm _).trans ?_
      simp only [State.opA]
      split_ifs
      · rfl
      · rfl
      · rfl
      · omega
    · refine (onOpenStore_config hm _).trans ?_
      simp only [State.opA]
      split_ifs with _ _ _ hfinite
      · rfl
      · rfl
      · rfl
      · rfl
      · obtain ⟨hnan, hinf⟩ : isNaN s.a3 = false ∧ isInf s.a3 = false :=
          isFinite_iff.mp (Bool.of_not_eq_false hfinite)
        simp only [hnan, hinf, Bool.false_eq_true, or_false] at hbad
        omega
  | wtsIncomplete =>
    obtain ⟨hm, rfl, b, hb, hbad⟩ := h
    obtain ⟨-, hincomplete⟩ := sealDecides s hm
    exact hincomplete ⟨b, hb, hbad⟩
  | wtsMissing =>
    obtain ⟨hm, j, hj, rfl⟩ := h
    exact (onIndex_ready (by simp [hm]) hj _).trans (if_pos hm)
  | cfgBank =>
    obtain ⟨hm, j, hj, rfl, hb⟩ := h
    refine (onIndex_ready (by simp [hm]) hj _).trans ((if_neg (by simp [hm])).trans ?_)
    exact if_pos hb

/-- Settles O12: a command that enters FAULTED mode does so under a tabled condition, and the condition determines
what it answers. -/
theorem faultsExactlyAsTabled : Obligations.FaultsExactlyAsTabled := by
  intro s i cause hs
  refine ⟨fun hc => ⟨_, exec_of_faultCondition hc⟩, fun t h => ⟨⟨?_, fun hc => ?_⟩, fun ht => ?_⟩⟩
  · rintro ⟨ht, hcause⟩
    obtain ⟨_, hc, rfl⟩ := (modeMove_exec h).faultEntry_of_faulted hs ht
    exact hcause ▸ hc
  · cases h.symm.trans (exec_of_faultCondition hc)
    exact ⟨rfl, rfl⟩
  · obtain ⟨_, -, rfl⟩ := (modeMove_exec h).faultEntry_of_faulted hs ht
    rfl

/-! Violations (R308, R309). -/

/-- A command that takes an index tests it before its own rule (R86 step 4). -/
theorem exec_of_instance {i : Instr} {s : State} {j n : Nat} (h : instanceOf s.cfg i = some (j, n)) :
    ∃ k, exec i s = onIndex s n j k := by
  cases i <;> cases h <;> exact ⟨_, rfl⟩

/-- Settles O6, violation by violation: the test that finds it answers the ignored state. -/
theorem violationsIgnored : Obligations.ViolationsIgnored := by
  intro s hs
  refine ⟨fun c rest r hcmd hd => ?_, fun i j n hi hj => ?_, fun i j hi hj hv => ?_, fun i hi hm => ?_⟩
  · rw [step_commanded hcmd]
    exact cmdWrite_illegal hs (by simp [hd])
  · obtain ⟨k, hk⟩ := exec_of_instance hi
    exact hk.trans (onIndex_bad hs hj k)
  · rcases hi with rfl | rfl | rfl <;> exact onValidOsc_fresh hs hj hv _
  · rcases hi with rfl | rfl | rfl <;> exact onOpenStore_run hm _

end Sys2Proof.Proofs

/-! SUPPORT. Diagnostics (60_exceptions.md R307; 10_state.md R26): a command run on two states that differ in `DIAG`
only answers states that differ in `DIAG` only, with the same bits raised in both. -/

namespace Sys2Proof.Proofs

open Machine

/-- The state with another value of `DIAG`. -/
def withDiag (s : State) (d : BitVec 9) : State := { s with diag := d }

/-- The answers of one command on two states with `DIAG` values `d` and `d'`: if the first is a next state, so is the
second, equal but for `DIAG`, and one mask has been raised in both. -/
def RaiseAlike (d d' : BitVec 9) (r r' : Result) : Prop :=
  ∀ t, r = .next t → ∃ mask, t.diag = d ||| mask ∧ r' = .next (withDiag t (d' ||| mask))

/-! What the shared operations answer on two such states. -/

section Shared

variable {s t : State} {d : BitVec 9} {k k' : Result}

theorem raiseAlike_kept (h : t.diag = s.diag) : RaiseAlike s.diag d (.next t) (.next (withDiag t d)) := by
  rintro _ ⟨⟩
  exact ⟨0#9, by simp [h], by simp⟩

theorem raiseAlike_raised (h : t.diag = s.diag) (mask : BitVec 9) :
    RaiseAlike s.diag d (.next (t.raiseDiag mask)) (.next ((withDiag t d).raiseDiag mask)) := by
  rintro _ ⟨⟩
  exact ⟨mask, by simp [h], rfl⟩

theorem raiseAlike_ignored (b : DiagBit) :
    RaiseAlike s.diag d (.next (s.ignored b)) (.next ((withDiag s d).ignored b)) := by
  rintro _ ⟨⟩
  exact ⟨b.mask, rfl, rfl⟩

theorem raiseAlike_unlessFaulted (h : RaiseAlike s.diag d k k') :
    RaiseAlike s.diag d (unlessFaulted s k) (unlessFaulted (withDiag s d) k') := by
  by_cases hm : s.mode = .faulted
  · rw [unlessFaulted_faulted hm, unlessFaulted_faulted (s := withDiag s d) hm]
    exact raiseAlike_kept rfl
  · rwa [unlessFaulted_ready hm, unlessFaulted_ready (s := withDiag s d) hm]

theorem raiseAlike_ite {c : Prop} [Decidable c] {l l' : Result} (h : RaiseAlike s.diag d k k')
    (hl : RaiseAlike s.diag d l l') :
    RaiseAlike s.diag d (if c then k else l) (if c then k' else l') := by
  split <;> assumption

theorem raiseAlike_onIndex {n j : Nat} (h : RaiseAlike s.diag d k k') :
    RaiseAlike s.diag d (onIndex s n j k) (onIndex (withDiag s d) n j k') :=
  raiseAlike_unlessFaulted (raiseAlike_ite (raiseAlike_ignored _) h)

theorem raiseAlike_onOpenStore (h : RaiseAlike s.diag d k k') :
    RaiseAlike s.diag d (onOpenStore s k) (onOpenStore (withDiag s d) k') :=
  raiseAlike_unlessFaulted (raiseAlike_ite (raiseAlike_ignored _) h)

theorem raiseAlike_onValidOsc {j : Nat} (h : RaiseAlike s.diag d k k') :
    RaiseAlike s.diag d (onValidOsc s j k) (onValidOsc (withDiag s d) j k') :=
  raiseAlike_onIndex (raiseAlike_ite h (raiseAlike_ignored _))

/-- Two cells are read and either is unwritten or both words are used (R180, log 8). -/
theorem raiseAlike_cells {x y : Option Word} {f f' : Word → Word → Result}
    (h : ∀ a b, RaiseAlike s.diag d (f a b) (f' a b)) :
    RaiseAlike s.diag d (match x, y with | some a, some b => f a b | _, _ => .fault .unwrittenCell)
      (match x, y with | some a, some b => f' a b | _, _ => .fault .unwrittenCell) := by
  split
  · exact h _ _
  · rintro _ ⟨⟩

end Shared

/-! The analyzer (R253). -/

theorem midCommand_withDiag (s : State) (d : BitVec 9) : (withDiag s d).midCommand = withDiag s.midCommand d := by
  unfold State.midCommand
  rw [show (withDiag s d).midSnaps = s.midSnaps from rfl]
  cases s.midSnaps <;> rfl

theorem spaTake_withDiag (s : State) (d : BitVec 9) (x : Word) :
    spaTake (withDiag s d) x = withDiag (spaTake s x) d := by
  by_cases hop : s.spa.hcnt + 1 = s.cfg.spaHop
  · rw [spaTake_eq s, if_pos hop, ← midCommand_withDiag]
    exact (spaTake_eq _ x).trans (if_pos hop)
  · rw [spaTake_quiet hop]
    exact spaTake_quiet (s := withDiag s d) hop

theorem spaTakeAll_withDiag (s : State) (d : BitVec 9) (xs : List Word) :
    spaTakeAll (withDiag s d) xs = withDiag (spaTakeAll s xs) d := by
  induction xs generalizing s with
  | nil => rfl
  | cons x rest ih => rw [spaTakeAll, spaTake_withDiag, ih, spaTakeAll]

theorem raiseAlike_spaProc (s : State) (d : BitVec 9) :
    RaiseAlike s.diag d (exec .spaProc s) (exec .spaProc (withDiag s d)) := by
  refine raiseAlike_unlessFaulted ?_
  rw [spaBlock_zero, spaBlock_zero]
  rintro _ ⟨⟩
  refine ⟨DiagBit.spaClamped.when (decide (s.cfg.spaBlkMax < asU (s.opA 0))), by simp, ?_⟩
  rw [← spaTakeAll_withDiag]
  rfl

/-! The commands. -/

/-- Every command but reset raises the same bits whatever the value of `DIAG`, and does the same to everything
else. -/
theorem raiseAlike_exec {i : Instr} (hi : i ≠ .sysReset) (s : State) (d : BitVec 9) :
    RaiseAlike s.diag d (exec i s) (exec i (withDiag s d)) := by
  cases i with
  | sysReset => exact absurd rfl hi
  | sysNop | spaInit => exact raiseAlike_unlessFaulted (raiseAlike_kept rfl)
  | spaProc => exact raiseAlike_spaProc s d
  | wtsBank =>
    exact raiseAlike_onOpenStore (raiseAlike_ite (raiseAlike_kept rfl) (raiseAlike_ite (raiseAlike_kept rfl)
      (raiseAlike_ite (raiseAlike_kept rfl) (raiseAlike_kept rfl))))
  | wtsWr =>
    exact raiseAlike_onOpenStore (raiseAlike_ite (raiseAlike_kept rfl) (raiseAlike_ite (raiseAlike_kept rfl)
      (raiseAlike_ite (raiseAlike_kept rfl) (raiseAlike_ite (raiseAlike_kept rfl) (raiseAlike_kept rfl)))))
  | wtsSeal =>
    refine raiseAlike_onOpenStore ?_
    rw [storeComplete_congr (s := s) (t := withDiag s d) rfl rfl rfl]
    exact raiseAlike_ite (raiseAlike_kept rfl) (raiseAlike_kept rfl)
  | envInit | envSetp | envProc | envStat | bqInit | bqSetc | bqProc | dlProc | rvbInit | rvbProc | drvInit
  | drvProc => exact raiseAlike_onIndex (raiseAlike_kept rfl)
  | bqLp | bqAp | dlInit | dlSet | rvbUpd => exact raiseAlike_onIndex (raiseAlike_raised rfl _)
  | oscInit j =>
    exact raiseAlike_onIndex (raiseAlike_ite (raiseAlike_kept rfl)
      (raiseAlike_ite (raiseAlike_kept rfl) (raiseAlike_raised rfl _)))
  | oscSetf | oscSetm => exact raiseAlike_onValidOsc (raiseAlike_raised rfl _)
  | oscProc => exact raiseAlike_onValidOsc (raiseAlike_cells fun _ _ => raiseAlike_kept rfl)

/-- Settles O14: a mask is or-ed into `DIAG`. -/
theorem diagBitsSticky : Obligations.DiagBitsSticky := by
  intro i s t hi h k hk
  obtain ⟨mask, hmask, -⟩ := raiseAlike_exec hi s s.diag t h
  simp [hmask, hk]

/-- Settles O15: both runs raise the same mask into `DIAG`; a reset clears it in both. -/
theorem diagNeverRead : Obligations.DiagNeverRead := by
  intro i s t d h
  by_cases hi : i = .sysReset
  · subst hi
    cases h
    exact ⟨_, rfl, rfl, fun k _ => Or.inr⟩
  · obtain ⟨mask, hmask, ht⟩ := raiseAlike_exec hi s d t h
    refine ⟨_, ht, rfl, fun k _ hk => ?_⟩
    rw [hmask, BitVec.getLsbD_or, Bool.or_eq_true] at hk
    exact hk.imp_right fun hk => by simp [withDiag, hk]

end Sys2Proof.Proofs

/-! SUPPORT. Reset and isolation (70_reset_and_hazards.md R331, R333, R353; 60_exceptions.md R322, R323;
48_host_composition.md R294): the reset values, no step that stops, and the results of each element of a unit its own. -/

namespace Sys2Proof.Proofs

open Machine

/-! Reset values (R331, R333). -/

theorem status_resetOf (c : Config) : (State.resetOf c).status = 0#32 := by
  simp [status_eq_add, State.resetOf, Mode.code]

/-- The twelve states of a reset network, stage by stage. -/
theorem reverb_reset (c : Chan) (g : Stage) :
    Reverb.reset.line c g = DelayLine.reset ∧ Reverb.reset.allpass c g = Biquad.reset := by
  cases c <;> cases g <;> exact ⟨rfl, rfl⟩

/-- Settles O21, register by register and array by array. -/
theorem resetValues : Obligations.ResetValues := by
  intro c
  refine ⟨rfl, ⟨rfl, rfl, rfl, rfl, rfl, rfl, rfl⟩, ⟨rfl, rfl, rfl, rfl, rfl, status_resetOf c⟩,
    fun b => List.getElem?_getD_replicate_default_eq _ _ b,
    fun _ _ _ => rfl, ?lengths, ?osc, ?env, ?bq, ?dl, ?rvb, ?drv, fun _ => rfl, rfl, rfl, fun _ => rfl, rfl⟩
  case lengths => simp [State.resetOf]
  case rvb => exact fun V hV ch g => List.eq_of_mem_replicate hV ▸ reverb_reset ch g
  case drv => exact fun D hD => List.eq_of_mem_replicate hD ▸ rfl
  all_goals exact fun x hx => List.eq_of_mem_replicate hx

theorem raiseDiag_zero (s : State) : s.raiseDiag 0#9 = s := by
  simp [State.raiseDiag]

/-- `DL.INIT` with delay 0, which is inside the line, and feedback +0.0 (R213). -/
theorem exec_dlInit_zero {s : State} (hs : s.mode ≠ .faulted) {j : Nat} (hj : j < s.cfg.nDl) (hcap : 1 ≤ s.cfg.dlCap)
    (h0 : s.a0 = 0#32) (h1 : s.a1 = fZero) : exec (.dlInit j) s = .next (s.setDl j DelayLine.reset) := by
  have hinside : DiagBit.delayWrapped.when (delayOutside s.cfg.dlCap s.a0) = 0#9 := by
    rw [when_delayOutside, h0, BitVec.toInt_zero, if_neg (by omega)]
  have hline : ({ buf := [], w := 0, delay := s.a0, fb := s.a1 } : DelayLine Word) = DelayLine.reset := by
    rw [h0, h1]
    rfl
  rw [exec_dlInit_ready hs hj, hinside, raiseDiag_zero, hline]

/-- Settles O22: each command passes its tests and writes the reset value. -/
theorem initGivesResetValue : Obligations.InitGivesResetValue :=
  fun _ _ hs => ⟨fun hj => onIndex_ready hs hj _, exec_bqInit_ready hs, exec_rvbInit_ready hs, exec_drvInit_ready hs,
    exec_dlInit_zero hs, unlessFaulted_ready hs _⟩

/-- Settles O55: `CFG_T` meets R5 and R6, so its reset state falls under the general case. -/
theorem resetMeetsInvariant : Obligations.ResetMeetsInvariant :=
  ⟨fun _ => blockInv_resetOf, blockInv_resetOf (by decide)⟩

/-! No step stops (R66, R322). -/

theorem unlessFaulted_answers {s : State} {k : Result} (h : ∃ t, k = .next t) :
    ∃ t, unlessFaulted s k = .next t := by
  by_cases hm : s.mode = .faulted
  · exact ⟨s, unlessFaulted_faulted hm k⟩
  · rwa [unlessFaulted_ready hm]

theorem ite_answers {c : Prop} [Decidable c] {k l : Result} (hk : ∃ t, k = .next t) (hl : ∃ t, l = .next t) :
    ∃ t, (if c then k else l) = .next t := by
  split
  · exact hk
  · exact hl

theorem onIndex_answers {s : State} {n j : Nat} {k : Result} (h : ∃ t, k = .next t) :
    ∃ t, onIndex s n j k = .next t :=
  unlessFaulted_answers (ite_answers ⟨_, rfl⟩ h)

theorem onOpenStore_answers {s : State} {k : Result} (h : ∃ t, k = .next t) : ∃ t, onOpenStore s k = .next t :=
  unlessFaulted_answers (ite_answers ⟨_, rfl⟩ h)

theorem onValidOsc_answers {s : State} {j : Nat} {k : Result} (h : ∃ t, k = .next t) :
    ∃ t, onValidOsc s j k = .next t :=
  onIndex_answers (ite_answers h ⟨_, rfl⟩)

/-- Under the invariant `OSC.PROC` meets no unwritten cell: a valid oscillator acts in RUN mode, on a complete
store (R30). -/
theorem oscProc_answers {s : State} (hinv : BlockInv s) (j : Nat) : ∃ t, exec (.oscProc j) s = .next t := by
  by_cases hm : s.mode = .faulted
  · exact ⟨s, onIndex_faulted hm _ _ _⟩
  rcases Nat.lt_or_ge j s.cfg.nOsc with hj | hj
  · cases hv : (s.oscAt j).valid with
    | false => exact ⟨_, onValidOsc_fresh hm hj hv _⟩
    | true =>
      obtain ⟨-, hconfig⟩ := valid_osc hinv hj hv
      have hrun : s.mode = .run := by
        cases hmode : s.mode with
        | config => exact absurd hmode hconfig
        | run => rfl
        | faulted => exact absurd hmode hm
      obtain ⟨-, _, _, -, -, hexec⟩ := oscillatorSample s j hinv hrun hj hv
      exact ⟨_, hexec⟩
  · exact ⟨_, onIndex_bad hm hj _⟩

/-- Every command answers a next state under the invariant. -/
theorem exec_answers {s : State} (hinv : BlockInv s) (i : Instr) : ∃ t, exec i s = .next t := by
  cases i with
  | sysReset => exact ⟨_, rfl⟩
  | sysNop | spaInit | spaProc => exact unlessFaulted_answers ⟨_, rfl⟩
  | wtsBank =>
    exact onOpenStore_answers (ite_answers ⟨_, rfl⟩ (ite_answers ⟨_, rfl⟩ (ite_answers ⟨_, rfl⟩ ⟨_, rfl⟩)))
  | wtsWr =>
    exact onOpenStore_answers
      (ite_answers ⟨_, rfl⟩ (ite_answers ⟨_, rfl⟩ (ite_answers ⟨_, rfl⟩ (ite_answers ⟨_, rfl⟩ ⟨_, rfl⟩))))
  | wtsSeal => exact onOpenStore_answers (ite_answers ⟨_, rfl⟩ ⟨_, rfl⟩)
  | oscInit => exact onIndex_answers (ite_answers ⟨_, rfl⟩ (ite_answers ⟨_, rfl⟩ ⟨_, rfl⟩))
  | oscSetf | oscSetm => exact onValidOsc_answers ⟨_, rfl⟩
  | oscProc j => exact oscProc_answers hinv j
  | envInit | envSetp | envProc | envStat | bqInit | bqSetc | bqLp | bqAp | bqProc | dlInit | dlSet | dlProc
  | rvbInit | rvbUpd | rvbProc | drvInit | drvProc => exact onIndex_answers ⟨_, rfl⟩

theorem cmdWrite_answers {s : State} (hinv : BlockInv s) (c : Word) : ∃ t, cmdWrite s c = .next t := by
  unfold cmdWrite
  split
  · split
    · exact exec_answers hinv .sysReset
    · exact ⟨_, rfl⟩
  all_goals
    split
    · exact exec_answers hinv _
    · exact ⟨_, rfl⟩

theorem regWrite_answers {s : State} (hinv : BlockInv s) {off : Nat} (h : off ≤ 0x2FFF) (w : Word) :
    ∃ t, regWrite s off w = .next t := by
  unfold regWrite
  split
  case h_1 => exact cmdWrite_answers (blockInv_withDraw hinv _) w
  case h_13 hp => exact absurd hp (portAt_inside h)
  all_goals exact ⟨_, rfl⟩

theorem regRead_answers {s : State} {off : Nat} (h : off ≤ 0x2FFF) : ∃ w, regRead s off = some w := by
  unfold regRead
  split
  case h_13 hp => exact absurd hp (portAt_inside h)
  all_goals exact ⟨_, rfl⟩

/-- Settles O57: the next event, if there is one, is performed. -/
theorem noStepStops : Obligations.NoStepStops := by
  intro s hinv hread hwrite
  have hok : s.cfg.ok = true := hinv.cfg_ok
  cases hp : s.port with
  | nil => exact ⟨s, step_idle hok hp⟩
  | cons e rest =>
    cases e with
    | read off =>
      obtain ⟨w, hw⟩ := regRead_answers (s := { s with port := rest }) (hread off rest hp)
      exact ⟨_, step_read hok hp hw⟩
    | write off w =>
      rw [step_write hok hp]
      exact regWrite_answers (blockInv_withPort hinv rest) (hwrite off w rest hp) w
    | snapshot | powerOn => exact ⟨_, step_event hok hp⟩

/-! Instances (R353). -/

/-- Two arrays given one element at one index agree there, and the first keeps its elements elsewhere. -/
theorem getD_set_alike {α : Type} {xs ys : List α} {j : Nat} (hx : j < xs.length) (hy : j < ys.length) (x d d' : α) :
    (xs.set j x).getD j d = (ys.set j x).getD j d' ∧ ∀ k, k ≠ j → (xs.set j x).getD k d = xs.getD k d := by
  refine ⟨by simp [hx, hy], fun k hk => ?_⟩
  simp [List.getD_eq_getElem?_getD, hk.symm]

/-- If `OSC.PROC` on a valid oscillator answers a next state, both cells hold values (R176 to R180). -/
theorem oscProc_next {s t : State} {j : Nat} (hs : s.mode ≠ .faulted) (hj : j < s.cfg.nOsc)
    (hv : (s.oscAt j).valid = true) (h : exec (.oscProc j) s = .next t) : ∃ k f a b,
      morphPair (b32 s.draw) (s.ntabAt (s.oscAt j).bank) (s.oscAt j).morph = (k, f) ∧
      s.cell (s.oscAt j).bank k (tableIndex (b32 s.draw) s.cfg.tableLen (s.oscAt j) s.a0) = some a ∧
      s.cell (s.oscAt j).bank (k + 1) (tableIndex (b32 s.draw) s.cfg.tableLen (s.oscAt j) s.a0) = some b ∧
      t = s.withR0 (crossfade (b32 s.draw) a b f) := by
  have hk := (onValidOsc_ready hs hj hv _).symm.trans h
  simp only at hk
  split at hk
  next a b ha hb =>
    cases hk
    exact ⟨_, _, a, b, rfl, ha, hb, rfl⟩
  next => cases hk

/-- Settles O58: on both states a command takes one and the same step of its own element (`hstep`, `hstep'`), and
what it answers is written out by its ready form. -/
theorem instancesIsolated : Obligations.InstancesIsolated := by
  intro s u t v j hs hu hcfg hdraw ha0 ha1
  refine ⟨fun i hi ht hv hj hls hlu hat => ?env, fun ht hv hj hat hntab hwt hvalid => ?osc,
    fun ht hv hj hls hlu hat => ?bq, fun ht hv hj hls hlu hat => ?dl, fun ht hv hj hls hlu hat => ?rvb,
    fun ht hv hj hls hlu hat => ?drv⟩
  case env =>
    rcases hi with rfl | rfl
    · obtain ⟨⟨amp, E⟩, hstep⟩ : ∃ r, envStep (b32 s.draw) (s.envAt j) s.a0 s.a1 = r := ⟨_, rfl⟩
      have hstep' : envStep (b32 u.draw) (u.envAt j) u.a0 u.a1 = (amp, E) := by
        rw [← hdraw, ← hat, ← ha0, ← ha1, hstep]
      cases ht.symm.trans (exec_envProc_ready hs hj hstep)
      cases hv.symm.trans (exec_envProc_ready hu (hcfg ▸ hj) hstep')
      exact ⟨rfl, rfl, getD_set_alike hls hlu E _ _⟩
    · cases ht.symm.trans (exec_envStat_ready hs hj)
      cases hv.symm.trans (exec_envStat_ready hu (hcfg ▸ hj))
      exact ⟨congrArg Env.rsa hat, congrArg (fun E : Env Word => bitsB E.finished) hat, hat, fun _ _ => rfl⟩
  case osc =>
    obtain ⟨k, f, a, b, hpair, ha, hb, rfl⟩ := oscProc_next hs hj hvalid ht
    have hcell : s.cell = u.cell := by
      funext b t i
      rw [State.cell, State.cell, hwt, hcfg]
    have hcount : s.ntabAt = u.ntabAt := by
      funext b
      rw [State.ntabAt, State.ntabAt, hntab]
    rw [hdraw, hcount, hat] at hpair
    rw [hdraw, hcell, hcfg, ha0, hat] at ha hb
    cases hv.symm.trans (exec_oscProc_ready hu (hcfg ▸ hj) (hat ▸ hvalid) hpair ha hb)
    exact ⟨by rw [hdraw]; rfl, rfl⟩
  case bq =>
    obtain ⟨⟨y, B⟩, hstep⟩ : ∃ r, bqStep (b32 s.draw) (s.bqAt j) s.a0 = r := ⟨_, rfl⟩
    have hstep' : bqStep (b32 u.draw) (u.bqAt j) u.a0 = (y, B) := by rw [← hdraw, ← hat, ← ha0, hstep]
    cases ht.symm.trans (exec_bqProc_ready hs hj hstep)
    cases hv.symm.trans (exec_bqProc_ready hu (hcfg ▸ hj) hstep')
    exact ⟨rfl, getD_set_alike hls hlu B _ _⟩
  case dl =>
    obtain ⟨⟨y, L⟩, hstep⟩ : ∃ r, dlStep (b32 s.draw) s.cfg.dlCap (s.dlAt j) s.a0 = r := ⟨_, rfl⟩
    have hstep' : dlStep (b32 u.draw) u.cfg.dlCap (u.dlAt j) u.a0 = (y, L) := by
      rw [← hdraw, ← hcfg, ← hat, ← ha0, hstep]
    cases ht.symm.trans (exec_dlProc_ready hs hj hstep)
    cases hv.symm.trans (exec_dlProc_ready hu (hcfg ▸ hj) hstep')
    exact ⟨rfl, getD_set_alike hls hlu L _ _⟩
  case rvb =>
    obtain ⟨l, hleft⟩ : ∃ l, rvbChain (b32 s.draw) s.cfg .left (s.rvbAt j) s.a0 = l := ⟨_, rfl⟩
    obtain ⟨r, hright⟩ : ∃ r, rvbChain (b32 s.draw) s.cfg .right l.2 s.a0 = r := ⟨_, rfl⟩
    have hleft' : rvbChain (b32 u.draw) u.cfg .left (u.rvbAt j) u.a0 = l := by
      rw [← hdraw, ← hcfg, ← hat, ← ha0, hleft]
    have hright' : rvbChain (b32 u.draw) u.cfg .right l.2 u.a0 = r := by rw [← hdraw, ← hcfg, ← ha0, hright]
    cases ht.symm.trans (exec_rvbProc_ready hs hj hleft hright)
    cases hv.symm.trans (exec_rvbProc_ready hu (hcfg ▸ hj) hleft' hright')
    exact ⟨rfl, rfl, getD_set_alike hls hlu r.2 _ _⟩
  case drv =>
    obtain ⟨⟨y, L⟩, hstep⟩ : ∃ r, dlStep (b32 s.draw) s.cfg.drvDlCap (s.drvAt j).dl s.a0 = r := ⟨_, rfl⟩
    have hstep' : dlStep (b32 u.draw) u.cfg.drvDlCap (u.drvAt j).dl u.a0 = (y, L) := by
      rw [← hdraw, ← hcfg, ← hat, ← ha0, hstep]
    cases ht.symm.trans (exec_drvProc_ready hs hj hstep)
    cases hv.symm.trans (exec_drvProc_ready hu (hcfg ▸ hj) hstep')
    exact ⟨by rw [State.withR0_r0, State.withR0_r0, hdraw, ha0], getD_set_alike hls hlu { dl := L } _ _⟩

end Sys2Proof.Proofs
